-- ==== Sys2Proof/Word.lean ====
section
/-!
DEFINITION. The word types of the block: bytes, 32-bit register values, bit sequences
(spec/00_scope.md R2, R6, R7).
-/

namespace Sys2Proof

/-- A byte, and so a symbol: an unsigned value 0 to 255 (R2, R7). -/
abbrev Byte := BitVec 8

/-- A register value (R7: "A register value `r` is 32 bits"). -/
abbrev Word := BitVec 32

/-- A bit sequence, first bit first (R6). `false` is the bit 0, left; `true` is the bit 1, right. -/
abbrev Bits := List Bool

end Sys2Proof
end

