-- ==== Sys2Proof/Syntax.lean ====
section
/-!
DEFINITION. The instructions of the block: the six rows of spec/opcode_table.json, one constructor
each. Three are command words a host writes to CMD (spec/30_encoding.md R37, R39), three are
dictionary tokens the parser interprets (R40, R42).
-/

namespace Sys2Proof

inductive Instr where
  /-- COMPRESS, the command word 0x0000_0001 (R37, R78). -/
  | compress
  /-- DECOMPRESS, the command word 0x0000_0002 (R37, R80). -/
  | decompress
  /-- BAD_COMMAND, any other command word, by its fields OPCODE [7:0] and RSV [31:8] (R39, R82). -/
  | badCommand (opcode : BitVec 8) (rsv : BitVec 24)
  /-- TOKEN_INTERNAL, the byte 0x30 (R40, R58). -/
  | tokenInternal
  /-- TOKEN_LEAF, the byte 0x31 and the raw symbol byte (R40, R59). -/
  | tokenLeaf (sym : Byte)
  /-- TOKEN_INVALID, a structural byte that is neither mark (R42, R61). -/
  | tokenInvalid (mark : Byte)
  deriving DecidableEq, Repr

end Sys2Proof
end

