-- ==== Sys2Proof/WellFormed.lean ====
section
/-!
DEFINITION. When a term of `Instr` is an instruction of the spec: BAD_COMMAND carries a word that is
not a legal command (spec/30_encoding.md R39), TOKEN_INVALID a byte that is not a mark (R42).
-/

namespace Sys2Proof

/-- The check of R39: RSV is not 0, or OPCODE is neither 0x01 nor 0x02. -/
abbrev illegalFields (opcode : BitVec 8) (rsv : BitVec 24) : Prop :=
  rsv ≠ 0 ∨ (opcode ≠ 0x01 ∧ opcode ≠ 0x02)

/-- The check of R42: the byte is neither 0x30 nor 0x31. -/
abbrev illegalMark (mark : Byte) : Prop := mark ≠ 0x30 ∧ mark ≠ 0x31

/-- Well-formed instructions. -/
def Instr.wf : Instr → Bool
  | .compress => true
  | .decompress => true
  | .badCommand opcode rsv => decide (illegalFields opcode rsv)
  | .tokenInternal => true
  | .tokenLeaf _ => true
  | .tokenInvalid mark => decide (illegalMark mark)

end Sys2Proof
end

