-- ==== Sys2Proof/Decode.lean ====
section
/-!
DEFINITION. The two decoders of the block and their encoder, from spec/30_encoding.md.
A command word is one 32-bit value (R37, R39); every word decodes.
A dictionary token is one or two bytes (R40 to R42); what does not decode is rejected by name.
-/

namespace Sys2Proof

/-- Field OPCODE of a command word, bits [7:0] (R37). -/
def cmdOpcode (w : Word) : BitVec 8 := w.extractLsb' 0 8

/-- Field RSV of a command word, bits [31:8] (R37). -/
def cmdRsv (w : Word) : BitVec 24 := w.extractLsb' 8 24

/-- The command word with the given fields (R37). -/
def cmdWord (opcode : BitVec 8) (rsv : BitVec 24) : Word := rsv ++ opcode

/-- The command a word written to CMD encodes (R37, R39). -/
def decodeCommand (w : Word) : Instr :=
  if cmdRsv w = 0 ∧ cmdOpcode w = 0x01 then .compress
  else if cmdRsv w = 0 ∧ cmdOpcode w = 0x02 then .decompress
  else .badCommand (cmdOpcode w) (cmdRsv w)

/-- Why a byte sequence holds no token at its head. -/
inductive TokenReject where
  /-- There is no byte. -/
  | noByte
  /-- A LEAF mark is the last byte (R42). -/
  | leafWithoutSymbol
  deriving DecidableEq, Repr

/-- The token at the head of a byte sequence whose first byte is structural, and the bytes after it
(R40, R41: "A decoder tells a token's length from its first byte alone"). -/
def decodeToken : List Byte → Except TokenReject (Instr × List Byte)
  | [] => .error .noByte
  | mark :: rest =>
    if mark = 0x30 then .ok (.tokenInternal, rest)
    else if mark = 0x31 then
      match rest with
      | [] => .error .leafWithoutSymbol
      | sym :: rest' => .ok (.tokenLeaf sym, rest')
    else .ok (.tokenInvalid mark, rest)

/-- An instruction as the hardware stores it: a word in CMD, or bytes of DBUF. -/
inductive Encoding where
  | command (w : Word)
  | token (bytes : List Byte)
  deriving DecidableEq, Repr

/-- The encoding of an instruction (R37, R40). -/
def encode : Instr → Encoding
  | .compress => .command 0x00000001
  | .decompress => .command 0x00000002
  | .badCommand opcode rsv => .command (cmdWord opcode rsv)
  | .tokenInternal => .token [0x30]
  | .tokenLeaf sym => .token [0x31, sym]
  | .tokenInvalid mark => .token [mark]

/-- The bytes of a token, and none for a command. -/
def tokenBytes (i : Instr) : List Byte :=
  match encode i with
  | .command _ => []
  | .token bytes => bytes

/-- The instruction an encoding holds, when it holds exactly one. -/
def decode : Encoding → Option Instr
  | .command w => some (decodeCommand w)
  | .token bytes =>
    match decodeToken bytes with
    | .ok (i, []) => some i
    | .ok (_, _ :: _) => none
    | .error _ => none

/-- The instruction the decoders read from an opcode-table row's bits `w`. A row of at most two bytes
is a dictionary token, laid out as two bytes of DBUF with the bits above `nbits` zero; a longer row is
a command word, and nothing longer than 32 bits is one. -/
def decodeTableWord (nbits w : Nat) : Option Instr :=
  let v := w % 2 ^ nbits
  if nbits ≤ 16 then
    match decodeToken [BitVec.ofNat 8 v, BitVec.ofNat 8 (v / 256)] with
    | .ok (i, _) => some i
    | .error _ => none
  else if nbits ≤ 32 then some (decodeCommand (BitVec.ofNat 32 v))
  else none

end Sys2Proof
end

