-- ==== Sys2Proof/Config.lean ====
section
/-!
DEFINITION. What an implementation fixes (the parameters of spec/00_scope.md R5) and the free values
(the values the spec leaves unspecified). The parameters are data, read through the CFG registers;
the free values are constants without a body, so no proof can see what they are.
-/

namespace Sys2Proof

/-- The implementation parameters of R5. `PLATFORM_UNDECODED` is not bound (log 11). -/
structure Params where
  /-- `BASE`: host physical address of offset 0. -/
  base : Nat
  /-- `IBUF_SIZE`, bytes. -/
  ibufSize : Nat
  /-- `DBUF_SIZE`, bytes. -/
  dbufSize : Nat
  /-- `OBUF_SIZE`, bytes. -/
  obufSize : Nat
  /-- `PATH_MAX`, bits. -/
  pathMax : Nat
  deriving DecidableEq, Repr

/-- The constraints R5 puts on the parameters. -/
abbrev Params.ok (p : Params) : Prop :=
  p.base % 2 ^ 23 = 0 ∧
  (1 ≤ p.ibufSize ∧ p.ibufSize ≤ 2 ^ 20) ∧
  (767 ≤ p.dbufSize ∧ p.dbufSize ≤ 2 ^ 20) ∧
  (1 ≤ p.obufSize ∧ p.obufSize ≤ 2 ^ 22) ∧
  (255 ≤ p.pathMax ∧ p.pathMax ≤ 2 ^ 20)

/-- The reference values of R5. DESIGN CHOICE (log 1): the reset state takes them; every claim over
all states holds for all parameters. -/
def Params.reference : Params :=
  { base := 0x40000000, ibufSize := 4096, dbufSize := 1024, obufSize := 32768, pathMax := 256 }

/-- The value of an unspecified byte, at the n-th draw (R31, R88, R100; logs 4, 5, 6). -/
opaque Config.freeByte : Nat → Byte

/-- The value a 32-bit read during reset returns, at the n-th draw (R97; log 10). -/
opaque Config.freeWord : Nat → Word

/-- The first bit of the unspecified code PACK appends for a symbol that has none (log 7). -/
opaque Config.freeCodeBit : Nat → Bool

/-- The further bits of that unspecified code (log 7). -/
opaque Config.freeCodeTail : Nat → Bits

end Sys2Proof
end

