-- ==== Sys2Proof/Machine/State.lean ====
section
/-!
DEFINITION. The state of the machine: every register, buffer and piece of internal working state of
spec/10_state.md and spec/20_memory.md, and beside the block its environment: the reset input, the
host's remaining bus accesses and the schedule that says which agent moves next.
-/

namespace Sys2Proof.Machine

/-- Why a step faults. The spec has no behaviour that stops the machine: every error is an error
completion, a next state (spec/60_exceptions.md R88). So nothing raises a fault. -/
inductive Fault where
  deriving DecidableEq, Repr

/-- Why a step has no meaning. -/
inductive Refusal where
  /-- `exec`, for an instruction of the table that has no meaning yet. Safe. -/
  | notModelled (mnemonic : String)
  /-- A host access of a width or alignment R29 does not permit ("A model refuses such an access").
  Raised by the bus. Safe: the chip changes no state. -/
  | unsupportedAccess
  /-- A host access outside the 2^23 bytes at BASE, where the parameter PLATFORM_UNDECODED rules
  (R27; spec/93_implementation_defined.md I10). Raised by the bus. Safe. -/
  | platformUndecoded
  /-- A host statement writes a value, or takes its count, under a name no read has bound (log 9). Raised by the host's
  turn. Safe: such a program has no meaning in R45. -/
  | unboundName
  deriving DecidableEq, Repr

/-- PHASE (R11). -/
inductive Phase where
  | idle
  | busy
  deriving DecidableEq, Repr

/-- Where the engine stands inside BUSY (R11: "which phase it is in is not visible to the host").
DESIGN CHOICE (log 3). -/
inductive Stage where
  /-- The command has not been computed. -/
  | command
  /-- DECOMPRESS is inside PARSE; the next token is at DPOS. -/
  | parse
  deriving DecidableEq, Repr

/-- The two legal commands. -/
inductive Command where
  | compress
  | decompress
  deriving DecidableEq, Repr

/-- The error codes of R87; codes 8 to 15 are never produced. -/
inductive ErrCode where
  | none
  | emptyInput
  | emptyDictionary
  | invalidDictionary
  | badCommand
  | lengthRange
  | outOverflow
  | pathOverflow
  deriving DecidableEq, Repr

/-- The fields of STATUS other than BUSY, which mirrors PHASE (R11, R13; log 16). -/
structure Status where
  done : Bool
  err : Bool
  code : ErrCode
  deriving DecidableEq, Repr

/-- A tree node (R20). Handles are indexes into the arena. -/
inductive Node where
  | leaf (sym : Byte) (freq : Nat)
  | internal (freq left right : Nat)
  deriving DecidableEq, Repr

/-- The internal working state of R19 to R23, and DICT of R53. -/
structure Engine where
  /-- `FREQ[0..255]` (R19). -/
  freq : Vector Nat 256
  /-- `NODE`: entry h is the node with handle h (R20). NEXT of R48 is its length. -/
  node : List Node
  /-- `WORK` (R20). -/
  work : List Nat
  /-- `ROOT` (R20). -/
  root : Nat
  /-- `CODE[0..255]` (R21). -/
  code : Vector (Option Bits) 256
  /-- `DICT`, the dictionary bytes of GENERATE (R53). -/
  dict : List Byte
  /-- `INV`, a finite map: no key twice (R22). -/
  inv : List (Bits × Byte)
  /-- `PATH` (R22). -/
  path : Bits
  /-- `ENTRIES` (R22). -/
  entries : Nat
  /-- `DPOS` (R22). -/
  dpos : Nat
  /-- `PBUF` (R23). -/
  pbuf : Bits
  /-- `BUF` (R23). -/
  buf : Bits
  /-- `OPOS` (R23). -/
  opos : Nat
  deriving DecidableEq, Repr

/-- The three buffers (R26). -/
inductive Buf where
  | ibuf
  | dbuf
  | obuf
  deriving DecidableEq, Repr

/-- The bytes of the three buffers, by offset from BASE (R27): a list of written bytes with rising
addresses. A byte not listed is unspecified (R31). -/
abbrev Memory := List Host.Cell

/-- The canonical form: addresses strictly rising. No listed byte is redundant, since an unlisted
byte reads as no fixed value. -/
abbrev Memory.wf (m : Memory) : Prop := m.Pairwise (fun a b => a.1 < b.1)

/-- Access widths a host may try (R29). -/
inductive Width where
  | w8
  | w16
  | w32
  | w64
  deriving DecidableEq, Repr

/-- A name of a host program, with an index for the names `name[i]` of RBUF (R45, R46). -/
abbrev Var := Nat × Nat

/-- The data of a host write, or the count of a pseudo-statement: a value, or the value bound to a
name. -/
inductive Operand where
  | imm (v : Word)
  | var (x : Var)
  deriving DecidableEq, Repr

/-- The direction of an access: a read binds its result to a name (R45). -/
inductive Dir where
  | read (x : Var)
  | write (v : Operand)
  deriving DecidableEq, Repr

/-- A bus transaction: physical address, width, direction and data (R45). -/
structure Access where
  addr : Nat
  width : Width
  dir : Dir
  deriving DecidableEq, Repr

/-- A statement of a host program still to run: one access, or a pseudo-statement of R46 whose length
is known only when it runs. -/
inductive Stmt where
  | access (a : Access)
  /-- `POLL`, the name of its reads. -/
  | poll (x : Var)
  /-- `RBUF b, n -> name`. -/
  | rbuf (b : Buf) (n : Operand) (name : Nat)
  /-- `COPY src, dst, n`, with the temporary name `t`. -/
  | copy (src dst : Buf) (n : Operand) (t : Var)
  deriving DecidableEq, Repr

/-- Whose turn it is (R33, R96; log 2). -/
inductive Turn where
  | host
  | engine
  | assertReset
  | releaseReset
  deriving DecidableEq, Repr

/-- The whole state. -/
structure State where
  /-- The parameters, read through the CFG registers (R5, R17). -/
  cfg : Params
  /-- CMD (R12). -/
  cmd : Word
  /-- STATUS but for BUSY (R13). -/
  status : Status
  /-- IN_LEN (R14). -/
  inLen : Word
  /-- DICT_LEN (R15). -/
  dictLen : Word
  /-- OUT_LEN (R16). -/
  outLen : Word
  /-- PHASE, and so STATUS.BUSY (R11). -/
  phase : Phase
  /-- The part of the command the engine is in (R11; log 3). -/
  stage : Stage
  /-- IBUF, DBUF and OBUF (R26, R27). -/
  mem : Memory
  /-- The internal working state (R19 to R23). -/
  eng : Engine
  /-- The reset input (R96, R97). -/
  resetIn : Bool
  /-- The host's remaining statements (R45). -/
  prog : List Stmt
  /-- The values the host's reads have bound, newest first (R45). -/
  vars : List (Var × Word)
  /-- Who moves next, first turn first (log 2). -/
  schedule : List Turn
  /-- The model's own counter of free values drawn (log 4). -/
  draws : Nat
  deriving DecidableEq, Repr

/-- The internal working state after reset. The spec says "unspecified values, which no rule reads"
(R25). DESIGN CHOICE (log 8): empty and zero. -/
def Engine.reset : Engine :=
  { freq := Vector.replicate 256 0, node := [], work := [], root := 0,
    code := Vector.replicate 256 none, dict := [], inv := [], path := [], entries := 0, dpos := 0,
    pbuf := [], buf := [], opos := 0 }

/-- The machine right after reset (R96): registers 0, CFG registers the parameters, PHASE IDLE, every
buffer byte unspecified. -/
def State.reset : State :=
  { cfg := Params.reference, cmd := 0, status := { done := false, err := false, code := .none },
    inLen := 0, dictLen := 0, outLen := 0, phase := .idle, stage := .command, mem := [],
    eng := Engine.reset, resetIn := false, prog := [], vars := [], schedule := [], draws := 0 }

end Sys2Proof.Machine
end

