-- ==== Sys2Proof/Machine/Flags.lean ====
section
/-!
DEFINITION. The STATUS register: its word (spec/10_state.md R13) and its writers. The block has no
condition codes (R11).
-/

namespace Sys2Proof.Machine

/-- The number of an error code in STATUS.ERRCODE (spec/60_exceptions.md R87). -/
def ErrCode.num : ErrCode → Nat
  | .none => 0
  | .emptyInput => 1
  | .emptyDictionary => 2
  | .invalidDictionary => 3
  | .badCommand => 4
  | .lengthRange => 5
  | .outOverflow => 6
  | .pathOverflow => 7

/-- The value of one bit. -/
def bitNat (b : Bool) : Nat := if b then 1 else 0

/-- BUSY is 1 while PHASE = BUSY (R13). -/
def Phase.isBusy : Phase → Bool
  | .idle => false
  | .busy => true

/-- The STATUS word (R13): BUSY bit 0, DONE bit 1, ERR bit 2, ERRCODE bits [11:8], all else 0. -/
def statusWord (phase : Phase) (st : Status) : Word :=
  BitVec.ofNat 32
    (bitNat phase.isBusy + 2 * bitNat st.done + 4 * bitNat st.err + 256 * st.code.num)

/-- DONE, ERR and ERRCODE of a running command (R13: "A legal command start sets ..."). -/
def Status.started : Status := { done := false, err := false, code := .none }

/-- DONE, ERR and ERRCODE of a successful completion (R13). -/
def Status.succeeded : Status := { done := true, err := false, code := .none }

/-- DONE, ERR and ERRCODE of an error completion (R13, R88). -/
def Status.failed (code : ErrCode) : Status := { done := true, err := true, code := code }

/-- DONE as read in a STATUS word (R13), the test of POLL (spec/30_encoding.md R46). -/
def statusDone (w : Word) : Bool := w.getLsbD 1

end Sys2Proof.Machine
end

