-- ==== Sys2Proof/Machine/Ops.lean ====
section
/-!
DEFINITION. The named operations over memory and registers, the start of a command, and the
completion of one, successful or with an error (the exception entry of this block,
spec/60_exceptions.md R88). There is no return operation: STATUS keeps an error until the next CMD
write while IDLE, or a reset (R91).
-/

namespace Sys2Proof.Machine

/-! Memory: a list of written bytes with rising addresses. -/

/-- The byte at an address, none where nothing has written it (R31). -/
def Memory.read (a : Nat) : Memory → Option Byte
  | [] => none
  | c :: m => if c.1 = a then some c.2 else Memory.read a m

/-- The memory with a byte written, in the canonical form. -/
def Memory.write (a : Nat) (v : Byte) : Memory → Memory
  | [] => [(a, v)]
  | c :: m =>
    if a < c.1 then (a, v) :: c :: m
    else if c.1 = a then (a, v) :: m
    else c :: Memory.write a v m

/-- The memory with every byte of `[lo, lo + n)` unspecified. -/
def Memory.forget (lo n : Nat) (m : Memory) : Memory :=
  m.filter (fun c => decide (c.1 < lo ∨ lo + n ≤ c.1))

/-! Buffers (spec/20_memory.md R26, R27). -/

/-- The offset of a buffer's window (R27). -/
def Buf.offset : Buf → Nat
  | .ibuf => 0x100000
  | .dbuf => 0x200000
  | .obuf => 0x400000

/-- The span of a buffer's window (R27). -/
def Buf.span : Buf → Nat
  | .ibuf => 0x100000
  | .dbuf => 0x100000
  | .obuf => 0x400000

/-- The capacity of a buffer (R26). -/
def Buf.size (p : Params) : Buf → Nat
  | .ibuf => p.ibufSize
  | .dbuf => p.dbufSize
  | .obuf => p.obufSize

/-- Byte `i` of a buffer as it is stored: none where it is unspecified. -/
def State.byteAt (s : State) (b : Buf) (i : Nat) : Option Byte :=
  Memory.read (b.offset + i) s.mem

/-- The state after one free value has been drawn. -/
def State.tick (s : State) : State := { s with draws := s.draws + 1 }

/-- The state with the internal working state replaced. -/
def State.withEng (s : State) (e : Engine) : State := { s with eng := e }

/-- The state with the buffers replaced. -/
def State.withMem (s : State) (m : Memory) : State := { s with mem := m }

/-- A fresh draw of an unspecified byte (R31). -/
def drawByte (s : State) : Byte × State := (Config.freeByte s.draws, s.tick)

/-- `MemRead(B, i, 1)`: the stored byte, a fresh draw where it is unspecified (R31), and 0 at or past
the buffer's size (R28, R30). -/
def memRead (b : Buf) (i : Nat) (s : State) : Byte × State :=
  if i < b.size s.cfg then
    match s.byteAt b i with
    | some v => (v, s)
    | none => drawByte s
  else (0, s)

/-- `MemWrite(B, i, 1, v)`, ignored at or past the buffer's size (R28, R30). -/
def memWrite (b : Buf) (i : Nat) (v : Byte) (s : State) : State :=
  if i < b.size s.cfg then s.withMem (Memory.write (b.offset + i) v s.mem) else s

/-- `MemRead(B, i, n)`: the bytes i to i+n−1, read in order (R8, R32). -/
def memReadN (b : Buf) : Nat → Nat → State → List Byte × State
  | _, 0, s => ([], s)
  | i, n + 1, s =>
    let first := memRead b i s
    let rest := memReadN b (i + 1) n first.2
    (first.1 :: rest.1, rest.2)

/-- `MemWrite` of a list of bytes at i, i+1, ... -/
def memWriteN (b : Buf) : Nat → List Byte → State → State
  | _, [], s => s
  | i, v :: vs, s => memWriteN b (i + 1) vs (memWrite b i v s)

/-- The state with every byte of a buffer unspecified (R88). -/
def forgetBuf (b : Buf) (s : State) : State :=
  s.withMem (Memory.forget b.offset (b.size s.cfg) s.mem)

/-! Bits and bytes (spec/00_scope.md R7). -/

/-- `bits8(v)`: the bits of a byte, most significant first. -/
def bits8 (v : Byte) : Bits := (List.range 8).map (fun i => v.getLsbD (7 - i))

/-- `byte8(s)`: the byte whose bit 7−i is `s[i]`; bits past the end of `s` are 0. -/
def byte8 (s : Bits) : Byte :=
  BitVec.ofNat 8 ((List.range 8).foldl (fun acc i => 2 * acc + bitNat (s.getD i false)) 0)

/-- `zeros(n)`. -/
def zeros (n : Nat) : Bits := List.replicate n false

/-- The little-endian 32-bit value of four bytes (R28). -/
def wordOfBytes (b0 b1 b2 b3 : Byte) : Word := b3 ++ b2 ++ b1 ++ b0

/-- Byte k of a 32-bit value, least significant first (R28). -/
def byteOfWord (w : Word) (k : Nat) : Byte := w.extractLsb' (8 * k) 8

/-! Registers (spec/10_state.md section 2). -/

/-- The registers of R12 to R17. -/
inductive Reg where
  | cmd
  | status
  | inLen
  | dictLen
  | outLen
  | cfgIbufSize
  | cfgDbufSize
  | cfgObufSize
  | cfgPathMax
  deriving DecidableEq, Repr

/-- The offset of a register. -/
def Reg.offset : Reg → Nat
  | .cmd => 0x000
  | .status => 0x004
  | .inLen => 0x008
  | .dictLen => 0x00C
  | .outLen => 0x010
  | .cfgIbufSize => 0x014
  | .cfgDbufSize => 0x018
  | .cfgObufSize => 0x01C
  | .cfgPathMax => 0x020

/-- The register at an offset; none at a reserved one (R18). -/
def Reg.ofOffset (off : Nat) : Option Reg :=
  match off with
  | 0x000 => some .cmd
  | 0x004 => some .status
  | 0x008 => some .inLen
  | 0x00C => some .dictLen
  | 0x010 => some .outLen
  | 0x014 => some .cfgIbufSize
  | 0x018 => some .cfgDbufSize
  | 0x01C => some .cfgObufSize
  | 0x020 => some .cfgPathMax
  | _ => none

/-- `reg[NAME]` as a host reads it, in every phase (R12 to R17, R100). -/
def regRead (r : Reg) (s : State) : Word :=
  match r with
  | .cmd => s.cmd
  | .status => statusWord s.phase s.status
  | .inLen => s.inLen
  | .dictLen => s.dictLen
  | .outLen => s.outLen
  | .cfgIbufSize => BitVec.ofNat 32 s.cfg.ibufSize
  | .cfgDbufSize => BitVec.ofNat 32 s.cfg.dbufSize
  | .cfgObufSize => BitVec.ofNat 32 s.cfg.obufSize
  | .cfgPathMax => BitVec.ofNat 32 s.cfg.pathMax

/-! Start and completion of a command (spec/43_codec_commands.md section 1). -/

/-- R75: the start of a legal command, whose word the host has written to CMD while IDLE. -/
def startCommand (w : Word) (s : State) : State :=
  { s with cmd := w, phase := .busy, stage := .command, status := Status.started }

/-- R76: a successful completion. -/
def completeCommand (s : State) : State :=
  { s with phase := .idle, stage := .command, status := Status.succeeded }

/-- The buffers an error leaves unspecified (R88): OBUF after OUT_OVERFLOW, and DBUF too for
COMPRESS. -/
def errorBuffers (c : Command) (e : ErrCode) (s : State) : State :=
  if e = .outOverflow then
    match c with
    | .compress => forgetBuf .dbuf (forgetBuf .obuf s)
    | .decompress => forgetBuf .obuf s
  else s

/-- R88: the error completion of a command, the exception entry of this block. -/
def errorComplete (c : Command) (e : ErrCode) (s : State) : State :=
  { errorBuffers c e s with
    outLen := 0
    dictLen := match c with
      | .compress => 0
      | .decompress => s.dictLen
    phase := .idle
    stage := .command
    status := Status.failed e }

/-- An error raised inside a command: its code, and the state it was raised in (R8). -/
abbrev Raised := ErrCode × State

/-- The end of a command whose pseudocode ran to its end or raised an error (R76, R88). -/
def finish (c : Command) (r : Except Raised State) : State :=
  match r with
  | .ok s => completeCommand s
  | .error (e, s) => errorComplete c e s

/-- `EMIT(v)` (spec/42_bit_packer.md R66). -/
def emit (v : Byte) (s : State) : Except Raised State :=
  if s.cfg.obufSize ≤ s.eng.opos then .error (.outOverflow, s)
  else
    let t := memWrite .obuf s.eng.opos v s
    .ok (t.withEng { t.eng with opos := s.eng.opos + 1 })

end Sys2Proof.Machine
end

