-- ==== Sys2Proof/Machine/Operands.lean ====
section
/-!
DEFINITION. Where the block's operations find their operands: a command's in registers and buffers
(spec/30_encoding.md R38), a token's in DBUF (R41), a host statement's in the statement or under a
name (R45).
-/

namespace Sys2Proof.Machine

/-- N of COMPRESS, P of DECOMPRESS: `reg[IN_LEN]`, unsigned (R38). -/
def State.inputLen (s : State) : Nat := s.inLen.toNat

/-- D of DECOMPRESS: `reg[DICT_LEN]`, unsigned (R38). -/
def State.dictionaryLen (s : State) : Nat := s.dictLen.toNat

/-- The unspecified code of a symbol that has none, of 1 to 255 bits (log 7; the bounds are R21's). -/
def freeCode (n : Nat) : Bits := Config.freeCodeBit n :: (Config.freeCodeTail n).take 254

/-- `CODE[x]` as PACK looks it up (spec/42_bit_packer.md R66). It is absent only where the two reads
of an unwritten input byte drew different values; then the code is unspecified (log 7). -/
def lookupCode (x : Byte) (s : State) : Bits × State :=
  match s.eng.code[x.toNat]'x.isLt with
  | some c => (c, s)
  | none => (freeCode s.draws, s.tick)

/-- The bytes of the token at DPOS: the mark, and after a LEAF mark the symbol byte. A LEAF mark that
is the last dictionary byte has no symbol; 0 stands in its place and TOKEN_LEAF never uses it
(R59; log 14). -/
def fetchToken (s : State) : List Byte × State :=
  let mark := memRead .dbuf s.eng.dpos s
  if mark.1 = 0x31 then
    if s.eng.dpos + 1 < s.dictionaryLen then
      let sym := memRead .dbuf (s.eng.dpos + 1) mark.2
      ([mark.1, sym.1], sym.2)
    else ([mark.1, 0], mark.2)
  else ([mark.1], mark.2)

/-- The value bound to a name, the newest binding first (R45). -/
def lookupVar (x : Var) : List (Var × Word) → Option Word
  | [] => none
  | p :: vs => if p.1 = x then some p.2 else lookupVar x vs

/-- The data of a host write; none for a name no read has bound (log 9). -/
def operandValue (v : Operand) (s : State) : Option Word :=
  match v with
  | .imm w => some w
  | .var x => lookupVar x s.vars

/-- Binds the result of a host read to a name (R45). -/
def bindVar (x : Var) (w : Word) (s : State) : State := { s with vars := (x, w) :: s.vars }

end Sys2Proof.Machine
end

