-- ==== Sys2Proof/Machine/BadCommand.lean ====
section
/-!
DEFINITION. BAD_COMMAND: a CMD write of a word that is no legal command
(spec/43_codec_commands.md R82).
-/

namespace Sys2Proof.Machine

/-- BAD_COMMAND: while IDLE it completes at once with ERRCODE 4 (R82); while BUSY the write is ignored
(spec/70_reset_and_hazards.md R99). -/
def execBadCommand (opcode : BitVec 8) (rsv : BitVec 24) (s : State) :
    Host.Outcome State Fault Refusal :=
  match s.phase with
  | .idle => .next { s with cmd := cmdWord opcode rsv, status := Status.failed .badCommand }
  | .busy => .next s

end Sys2Proof.Machine
end

