-- ==== Sys2Proof/Machine/Compress.lean ====
section
/-!
DEFINITION. COMPRESS (spec/43_codec_commands.md R78) and its phases: FREQ_BUILD, TREE_BUILD, GENERATE
(spec/40_tree_and_codebook.md) and PACK (spec/42_bit_packer.md).
-/

namespace Sys2Proof.Machine

/-! FREQ_BUILD (R47). -/

/-- `FREQ[x] <- FREQ[x] + 1`. -/
def countByte (freq : Vector Nat 256) (x : Byte) : Vector Nat 256 :=
  freq.set x.toNat (freq[x.toNat]'x.isLt + 1) x.isLt

/-- The counts of a byte sequence. -/
def freqTable (bytes : List Byte) : Vector Nat 256 :=
  bytes.foldl countByte (Vector.replicate 256 0)

/-- FREQ_BUILD of the first `n` bytes of IBUF (R47). DESIGN CHOICE (log 18): on EMPTY_INPUT FREQ keeps its
old value, where R47's pseudocode has cleared it; R88 leaves it unspecified after the error. -/
def freqBuild (n : Nat) (s : State) : Except Raised State :=
  if n = 0 then .error (.emptyInput, s)
  else
    let input := memReadN .ibuf 0 n s
    .ok (input.2.withEng { input.2.eng with freq := freqTable input.1 })

/-! TREE_BUILD (R48 to R50). -/

/-- `freq(h)` for either kind of node. -/
def Node.freq : Node → Nat
  | .leaf _ f => f
  | .internal f _ _ => f

/-- `NODE[h].freq`. -/
def nodeFreq (nodes : List Node) (h : Nat) : Nat :=
  match nodes[h]? with
  | some nd => nd.freq
  | none => 0

/-- The leaves of R48: one per symbol that occurs, in ascending byte order. -/
def leafNodes (freq : Vector Nat 256) : List Node :=
  (List.finRange 256).filterMap fun s =>
    if 0 < freq[s] then some (Node.leaf (BitVec.ofNat 8 s.val) freq[s]) else none

/-- The least of a frequency and the frequencies of a list of handles. -/
def minFreq (f : Nat → Nat) : Nat → List Nat → Nat
  | m, [] => m
  | m, h :: hs => minFreq f (min m (f h)) hs

/-- SELECT_MIN (R49): the earliest handle of least frequency, and the others in their order. -/
def selectMin (f : Nat → Nat) (work : List Nat) : Option (Nat × List Nat) :=
  match work with
  | [] => none
  | h :: hs =>
    let m := minFreq f (f h) hs
    match work.find? (fun k => f k == m) with
    | some k => some (k, work.eraseP (fun k => f k == m))
    | none => none

/-- The merge loop of R50, at most `fuel` merges. -/
def mergeLoop : Nat → List Node → List Nat → List Node × List Nat
  | 0, nodes, work => (nodes, work)
  | fuel + 1, nodes, work =>
    match selectMin (nodeFreq nodes) work with
    | none => (nodes, work)
    | some (a, work1) =>
      match selectMin (nodeFreq nodes) work1 with
      | none => (nodes, work)
      | some (b, work2) =>
        mergeLoop fuel
          (nodes ++ [.internal (nodeFreq nodes a + nodeFreq nodes b) a b])
          (work2 ++ [nodes.length])

/-- NODE and WORK after TREE_BUILD. -/
def buildTree (freq : Vector Nat 256) : List Node × List Nat :=
  let leaves := leafNodes freq
  mergeLoop leaves.length leaves (List.range leaves.length)

/-- TREE_BUILD (R48, R50): ROOT is WORK[0]. -/
def treeBuild (s : State) : State :=
  let built := buildTree s.eng.freq
  s.withEng { s.eng with node := built.1, work := built.2, root := built.2.headD 0 }

/-! GENERATE (R53). -/

/-- VISIT: the leaves met with their paths, in order, and the dictionary bytes. The recursion is no
deeper than the number of nodes (R51). -/
def visit : Nat → List Node → Nat → Bits → List (Byte × Bits) × List Byte
  | 0, _, _, _ => ([], [])
  | fuel + 1, nodes, h, path =>
    match nodes[h]? with
    | none => ([], [])
    | some (.leaf sym _) => ([(sym, if path = [] then [true] else path)], [0x31, sym])
    | some (.internal _ l r) =>
      let left := visit fuel nodes l (path ++ [false])
      let right := visit fuel nodes r (path ++ [true])
      (left.1 ++ right.1, 0x30 :: (left.2 ++ right.2))

/-- `CODE[s] <- path`. -/
def setCode (code : Vector (Option Bits) 256) (e : Byte × Bits) : Vector (Option Bits) 256 :=
  code.set e.1.toNat (some e.2) e.1.isLt

/-- CODE after the visits, every other entry absent. -/
def codeTable (entries : List (Byte × Bits)) : Vector (Option Bits) 256 :=
  entries.foldl setCode (Vector.replicate 256 none)

/-- GENERATE (R53): CODE and DICT in one traversal. -/
def generate (s : State) : State :=
  let v := visit s.eng.node.length s.eng.node s.eng.root []
  s.withEng { s.eng with code := codeTable v.1, dict := v.2 }

/-! PACK (R66). -/

/-- The inner loop: while PBUF holds more than 8 bits, EMIT its leading 8. -/
def drain : Nat → State → Except Raised State
  | 0, s => .ok s
  | fuel + 1, s =>
    if 8 < s.eng.pbuf.length then
      match emit (byte8 (s.eng.pbuf.take 8)) s with
      | .error r => .error r
      | .ok t => drain fuel (t.withEng { t.eng with pbuf := t.eng.pbuf.drop 8 })
    else .ok s

/-- One input symbol: append its code to PBUF, then the inner loop. -/
def packSymbol (x : Byte) (s : State) : Except Raised State :=
  let c := lookupCode x s
  let t := c.2.withEng { c.2.eng with pbuf := c.2.eng.pbuf ++ c.1 }
  drain t.eng.pbuf.length t

/-- The input bytes i, i+1, ..., each read again from IBUF. -/
def packLoop : Nat → Nat → State → Except Raised State
  | 0, _, s => .ok s
  | n + 1, i, s =>
    let x := memRead .ibuf i s
    match packSymbol x.1 x.2 with
    | .error r => .error r
    | .ok t => packLoop n (i + 1) t

/-- The final byte: right-pad with 0 bits and EMIT. DESIGN CHOICE (log 18): on OUT_OVERFLOW PBUF stays
unpadded; R88 leaves it unspecified. -/
def packFlush (s : State) : Except Raised State :=
  if s.eng.pbuf = [] then .ok s
  else
    match emit (byte8 (s.eng.pbuf ++ zeros (8 - s.eng.pbuf.length))) s with
    | .error r => .error r
    | .ok t => .ok (t.withEng { t.eng with pbuf := [] })

/-- PACK of the first `n` bytes of IBUF (R66). -/
def pack (n : Nat) (s : State) : Except Raised State :=
  match packLoop n 0 (s.withEng { s.eng with pbuf := [], opos := 0 }) with
  | .error r => .error r
  | .ok t => packFlush t

/-! The command (R78). -/

/-- The lengths COMPRESS writes on success (R78). -/
def compressLengths (s : State) : State :=
  { s with
    dictLen := BitVec.ofNat 32 s.eng.dict.length
    outLen := BitVec.ofNat 32 s.eng.opos }

/-- The pseudocode of R78, run by the completion step. -/
def compressRun (s : State) : Except Raised State :=
  if s.cfg.ibufSize < s.inputLen then .error (.lengthRange, s)
  else
    match freqBuild s.inputLen s with
    | .error r => .error r
    | .ok s1 =>
      let s2 := generate (treeBuild s1)
      match pack s2.inputLen (memWriteN .dbuf 0 s2.eng.dict s2) with
      | .error r => .error r
      | .ok s3 => .ok (compressLengths s3)

/-- COMPRESS (R78): the completion step. -/
def execCompress (s : State) : Host.Outcome State Fault Refusal :=
  .next (finish .compress (compressRun s))

end Sys2Proof.Machine
end

