-- ==== Sys2Proof/Machine/Parser.lean ====
section
/-!
DEFINITION. The dictionary parser and its tokens (spec/41_dictionary_parser.md).
-/

namespace Sys2Proof.Machine

/-- The strip loop of BACKTRACK (R60): "while len(PATH) > 1 and last(PATH) = 1". -/
def stripRight : Nat → Bits → Bits
  | 0, path => path
  | fuel + 1, path =>
    if 1 < path.length ∧ path.getLast? = some true then stripRight fuel path.dropLast else path

/-- BACKTRACK (R60). -/
def backtrack (path : Bits) : Bits :=
  if path = [] then [] else (stripRight path.length path).dropLast ++ [true]

/-- `INV[key] := s`: insert or replace (R8, R59). -/
def invSet (key : Bits) (v : Byte) : List (Bits × Byte) → List (Bits × Byte)
  | [] => [(key, v)]
  | p :: inv => if p.1 = key then (key, v) :: inv else p :: invSet key v inv

/-- `INV[key]`, none where `key ∉ dom(INV)`. -/
def invGet (key : Bits) : List (Bits × Byte) → Option Byte
  | [] => none
  | p :: inv => if p.1 = key then some p.2 else invGet key inv

/-- The key a leaf is recorded under (R59). -/
def leafKey (path : Bits) : Bits := if path = [] then [true] else path

/-- TOKEN_INTERNAL (R58): descend to the left child. -/
def tokenInternal (s : State) : Except Raised State :=
  if s.cfg.pathMax ≤ s.eng.path.length then .error (.pathOverflow, s)
  else .ok (s.withEng { s.eng with path := s.eng.path ++ [false], dpos := s.eng.dpos + 1 })

/-- TOKEN_LEAF (R59): record a leaf, then move to the next unexplored node. -/
def tokenLeaf (sym : Byte) (s : State) : Except Raised State :=
  if s.dictionaryLen ≤ s.eng.dpos + 1 then .error (.invalidDictionary, s)
  else
    .ok (s.withEng { s.eng with
      inv := invSet (leafKey s.eng.path) sym s.eng.inv
      entries := s.eng.entries + 1
      path := backtrack s.eng.path
      dpos := s.eng.dpos + 2 })

/-- TOKEN_INVALID (R61): whatever the byte and whatever has been parsed before. -/
def tokenInvalid (_mark : Byte) (s : State) : Except Raised State :=
  .error (.invalidDictionary, s)

/-- The end of one token: the parser goes on, or the command ends with the error (R88). -/
def finishToken (r : Except Raised State) : State :=
  match r with
  | .ok s => s
  | .error (e, s) => errorComplete .decompress e s

/-- TOKEN_INTERNAL. -/
def execTokenInternal (s : State) : Host.Outcome State Fault Refusal :=
  .next (finishToken (tokenInternal s))

/-- TOKEN_LEAF. -/
def execTokenLeaf (sym : Byte) (s : State) : Host.Outcome State Fault Refusal :=
  .next (finishToken (tokenLeaf sym s))

/-- TOKEN_INVALID. -/
def execTokenInvalid (mark : Byte) (s : State) : Host.Outcome State Fault Refusal :=
  .next (finishToken (tokenInvalid mark s))

/-- What a token does to the parser. A command word is no token; the token decoder never gives one. -/
def runToken (i : Instr) (s : State) : Except Raised State :=
  match i with
  | .tokenInternal => tokenInternal s
  | .tokenLeaf sym => tokenLeaf sym s
  | .tokenInvalid mark => tokenInvalid mark s
  | .compress => .error (.invalidDictionary, s)
  | .decompress => .error (.invalidDictionary, s)
  | .badCommand _ _ => .error (.invalidDictionary, s)

/-- One turn of the parse loop (R57): fetch the token at DPOS, decode it, run it. -/
def parseToken (s : State) : Except Raised State :=
  let bytes := fetchToken s
  match decodeToken bytes.1 with
  | .ok (i, _) => runToken i bytes.2
  | .error _ => .error (.invalidDictionary, bytes.2)

/-- The start of PARSE (R57). -/
def parseInit (s : State) : State :=
  { s with
    stage := .parse
    eng := { s.eng with inv := [], path := [], entries := 0, dpos := 0 } }

/-- The loop of PARSE (R57): while DPOS < D. Every token advances DPOS, so D turns suffice. -/
def parseLoop : Nat → State → Except Raised State
  | 0, s => .ok s
  | fuel + 1, s =>
    if s.eng.dpos < s.dictionaryLen then
      match parseToken s with
      | .error r => .error r
      | .ok t => parseLoop fuel t
    else .ok s

/-- The end of PARSE (R62). -/
def parseEnd (s : State) : Except Raised State :=
  if s.eng.entries = 0 then .error (.emptyDictionary, s) else .ok s

end Sys2Proof.Machine
end

