-- ==== Sys2Proof/Machine/Decompress.lean ====
section
/-!
DEFINITION. DECOMPRESS (spec/43_codec_commands.md R80): PARSE, then UNPACK and DECODE_MATCH
(spec/42_bit_packer.md R68, R69).
-/

namespace Sys2Proof.Machine

/-- UNPACK (R68): the bits of the first `p` bytes of IBUF. -/
def unpack (p : Nat) (s : State) : Bits × State :=
  let payload := memReadN .ibuf 0 p s
  (payload.1.flatMap bits8, payload.2)

/-- One bit of DECODE_MATCH (R69). DESIGN CHOICE (log 18): on OUT_OVERFLOW BUF stays as before the bit; R88
leaves it unspecified. -/
def matchBit (bit : Bool) (s : State) : Except Raised State :=
  let buf := s.eng.buf ++ [bit]
  match invGet buf s.eng.inv with
  | none => .ok (s.withEng { s.eng with buf := buf })
  | some v =>
    match emit v s with
    | .error r => .error r
    | .ok t => .ok (t.withEng { t.eng with buf := [] })

/-- The loop of DECODE_MATCH. The bits left in BUF at the end are discarded (R71): no later rule reads
them. DESIGN CHOICE (log 18): BUF still holds them. -/
def matchLoop : Bits → State → Except Raised State
  | [], s => .ok s
  | bit :: bits, s =>
    match matchBit bit s with
    | .error r => .error r
    | .ok t => matchLoop bits t

/-- DECODE_MATCH over UNPACK of the first `p` bytes of IBUF (R69). -/
def decodeMatch (p : Nat) (s : State) : Except Raised State :=
  let bits := unpack p (s.withEng { s.eng with buf := [], opos := 0 })
  matchLoop bits.1 bits.2

/-- The part of R80 after the parse loop. -/
def decompressTail (s : State) : Except Raised State :=
  match parseEnd s with
  | .error r => .error r
  | .ok s1 =>
    match decodeMatch s1.inputLen s1 with
    | .error r => .error r
    | .ok s2 => .ok { s2 with outLen := BitVec.ofNat 32 s2.eng.opos }

/-- The pseudocode of R80, run by the completion step. -/
def decompressRun (s : State) : Except Raised State :=
  if s.cfg.ibufSize < s.inputLen ∨ s.cfg.dbufSize < s.dictionaryLen then .error (.lengthRange, s)
  else
    match parseLoop s.dictionaryLen (parseInit s) with
    | .error r => .error r
    | .ok t => decompressTail t

/-- DECOMPRESS (R80): the completion step. -/
def execDecompress (s : State) : Host.Outcome State Fault Refusal :=
  .next (finish .decompress (decompressRun s))

end Sys2Proof.Machine
end

