-- ==== Sys2Proof/Machine/Dispatch.lean ====
section
/-!
DEFINITION. The dispatch: one arm per instruction.
-/

namespace Sys2Proof.Machine

def exec (i : Instr) (s : State) : Host.Outcome State Fault Refusal :=
  match i with
  | .compress => Sys2Proof.Machine.execCompress s
  | .decompress => Sys2Proof.Machine.execDecompress s
  | .badCommand opcode rsv => Sys2Proof.Machine.execBadCommand opcode rsv s
  | .tokenInternal => Sys2Proof.Machine.execTokenInternal s
  | .tokenLeaf sym => Sys2Proof.Machine.execTokenLeaf sym s
  | .tokenInvalid mark => Sys2Proof.Machine.execTokenInvalid mark s

end Sys2Proof.Machine
end

