-- ==== Sys2Proof/Machine/Engine.lean ====
section
/-!
DEFINITION. The engine's turn (spec/43_codec_commands.md R76) and the reset input
(spec/70_reset_and_hazards.md R96, R97).
-/

namespace Sys2Proof.Machine

/-- The parser's fetch, decode and run of the token at DPOS. The token decoder rejects nothing that
`fetchToken` gives. -/
def engineToken (s : State) : Host.Outcome State Fault Refusal :=
  let bytes := fetchToken s
  match decodeToken bytes.1 with
  | .ok (i, _) => exec i bytes.2
  | .error _ => .next (errorComplete .decompress .invalidDictionary bytes.2)

/-- What the engine does while BUSY. Before the command is computed this is the completion step of
R76: the command in CMD is decoded and run. Inside PARSE it is the token at DPOS, and past the last
token the rest of the command (log 3). -/
def engineRun (s : State) : Host.Outcome State Fault Refusal :=
  match s.stage with
  | .command => exec (decodeCommand s.cmd) s
  | .parse =>
    if s.eng.dpos < s.dictionaryLen then engineToken s
    else .next (finish .decompress (decompressTail s))

/-- The engine's turn. While IDLE, and while the reset input is asserted, no engine step is enabled
(R76, R97) and nothing changes. -/
def engineTurn (s : State) : Host.Outcome State Fault Refusal :=
  match s.resetIn, s.phase with
  | false, .busy => engineRun s
  | false, .idle => .next s
  | true, _ => .next s

/-- The reset input asserted (R96, R97): registers and PHASE at their reset values, every buffer byte
unspecified, a running command abandoned. The parameters, the host and the schedule are not the
block's to reset. -/
def assertReset (s : State) : State :=
  { State.reset with
    cfg := s.cfg
    resetIn := true
    prog := s.prog
    vars := s.vars
    schedule := s.schedule
    draws := s.draws }

/-- The reset input released. -/
def releaseReset (s : State) : State := { s with resetIn := false }

end Sys2Proof.Machine
end

