-- ==== Sys2Proof/Machine/HostProgram.lean ====
section
/-!
DEFINITION. The notation of host programs (spec/30_encoding.md R45, R46): each statement as the list
of bus accesses it stands for. `p` is the block's parameters, for BASE; offsets are relative to it. A
COPY or RBUF of a known number of bytes is its expansion here; one whose count a read binds is the
statement `Stmt.copy` or `Stmt.rbuf`, which the host's turn expands.
-/

namespace Sys2Proof.Machine

/-- `W32 off, v`. -/
def w32 (p : Params) (off : Nat) (v : Operand) : Stmt := .access ⟨p.base + off, .w32, .write v⟩

/-- `R32 off -> name`. -/
def r32 (p : Params) (off : Nat) (x : Var) : Stmt := .access ⟨p.base + off, .w32, .read x⟩

/-- `W8 off, v`. -/
def w8 (p : Params) (off : Nat) (v : Operand) : Stmt := .access ⟨p.base + off, .w8, .write v⟩

/-- `R8 off -> name`. -/
def r8 (p : Params) (off : Nat) (x : Var) : Stmt := .access ⟨p.base + off, .w8, .read x⟩

/-- `WBUF buf, b0 b1 ...`, from byte `i` on. -/
def wbufFrom (p : Params) (b : Buf) : Nat → List Byte → List Stmt
  | _, [] => []
  | i, v :: vs => w8 p (b.offset + i) (.imm (v.zeroExtend 32)) :: wbufFrom p b (i + 1) vs

/-- `WBUF buf, b0 b1 ... b(n−1)`. -/
def wbuf (p : Params) (b : Buf) (bytes : List Byte) : List Stmt := wbufFrom p b 0 bytes

/-- The expansion of `RBUF buf, n -> name`: byte i is bound to `name[i]`. -/
def rbuf (p : Params) (b : Buf) (n name : Nat) : List Stmt :=
  (List.range n).map fun i => r8 p (b.offset + i) (name, i)

/-- The expansion of `COPY src, dst, n`, with the temporary name `t`. -/
def copy (p : Params) (src dst : Buf) (n : Nat) (t : Var) : List Stmt :=
  (List.range n).flatMap fun i => [r8 p (src.offset + i) t, w8 p (dst.offset + i) (.var t)]

/-- `POLL`, with the name `st`. -/
def pollStatus (st : Var) : List Stmt := [.poll st]

/-- `RUN code`. -/
def runCode (p : Params) (code : Word) (st : Var) : List Stmt :=
  w32 p Reg.cmd.offset (.imm code) :: pollStatus st

/-- `COMPRESS`, `RUN 0x00000001`. -/
def compressStmts (p : Params) (st : Var) : List Stmt := runCode p 0x00000001 st

/-- `DECOMPRESS`, `RUN 0x00000002`. -/
def decompressStmts (p : Params) (st : Var) : List Stmt := runCode p 0x00000002 st

end Sys2Proof.Machine
end

