-- ==== Sys2Proof/Machine/Bus.lean ====
section
/-!
DEFINITION. Host bus accesses (spec/20_memory.md section 2) and the host's turn
(spec/30_encoding.md R45, R46).
-/

namespace Sys2Proof.Machine

/-- What lies at an offset below 0x800000 (R27). -/
inductive Region where
  /-- The register block and its reserved offsets, 0x000000 to 0x0FFFFF. -/
  | registers
  /-- Byte `i` of a buffer's window. -/
  | window (b : Buf) (i : Nat)
  /-- The reserved hole 0x300000 to 0x3FFFFF. -/
  | reserved
  deriving DecidableEq, Repr

/-- The address map (R27). -/
def regionOf (off : Nat) : Region :=
  if off < 0x100000 then .registers
  else if off < 0x200000 then .window .ibuf (off - 0x100000)
  else if off < 0x300000 then .window .dbuf (off - 0x200000)
  else if off < 0x400000 then .reserved
  else .window .obuf (off - 0x400000)

/-- The offset of a physical address, none where the block does not decode it (R26, R27). -/
def decodeAddr (p : Params) (addr : Nat) : Option Nat :=
  if p.base ≤ addr ∧ addr < p.base + 0x800000 then some (addr - p.base) else none

/-- The accesses R29 permits: 32-bit at multiples of 4, and 8-bit in a window (log 12). -/
def permitted (w : Width) (off : Nat) : Bool :=
  match w with
  | .w32 => decide (off % 4 = 0)
  | .w8 =>
    match regionOf off with
    | .registers => false
    | .window _ _ => true
    | .reserved => false
  | .w16 => false
  | .w64 => false

/-- A host read of one window byte: 0 past the buffer (R30), unspecified while BUSY (R100), else the
byte (R28, R31). -/
def hostReadByte (b : Buf) (i : Nat) (s : State) : Byte × State :=
  match s.phase with
  | .busy => if i < b.size s.cfg then drawByte s else (0, s)
  | .idle => memRead b i s

/-- A host write of one window byte: ignored while BUSY (R99) and past the buffer (R30). -/
def hostWriteByte (b : Buf) (i : Nat) (v : Byte) (s : State) : State :=
  match s.phase with
  | .busy => s
  | .idle => memWrite b i v s

/-- The value of a 32-bit window read, little-endian (R28). -/
def hostReadWord (b : Buf) (i : Nat) (s : State) : Word × State :=
  let r0 := hostReadByte b i s
  let r1 := hostReadByte b (i + 1) r0.2
  let r2 := hostReadByte b (i + 2) r1.2
  let r3 := hostReadByte b (i + 3) r2.2
  (wordOfBytes r0.1 r1.1 r2.1 r3.1, r3.2)

/-- A 32-bit window write, little-endian (R28). -/
def hostWriteWord (b : Buf) (i : Nat) (w : Word) (s : State) : State :=
  hostWriteByte b (i + 3) (byteOfWord w 3)
    (hostWriteByte b (i + 2) (byteOfWord w 2)
      (hostWriteByte b (i + 1) (byteOfWord w 1)
        (hostWriteByte b i (byteOfWord w 0) s)))

/-- A read at a register offset: the register, or 0 where reserved (R18). -/
def readRegisterAt (off : Nat) (s : State) : Word :=
  match Reg.ofOffset off with
  | some r => regRead r s
  | none => 0

/-- The data of a permitted read. During reset it is unspecified (R97; log 10); an 8-bit result is
zero-extended. -/
def busRead (w : Width) (off : Nat) (s : State) : Word × State :=
  if s.resetIn then
    match w with
    | .w8 => ((Config.freeByte s.draws).zeroExtend 32, s.tick)
    | .w16 => (Config.freeWord s.draws, s.tick)
    | .w32 => (Config.freeWord s.draws, s.tick)
    | .w64 => (Config.freeWord s.draws, s.tick)
  else
    match regionOf off with
    | .registers => (readRegisterAt off s, s)
    | .reserved => (0, s)
    | .window b i =>
      match w with
      | .w8 =>
        let r := hostReadByte b i s
        (r.1.zeroExtend 32, r.2)
      | .w16 => hostReadWord b i s
      | .w32 => hostReadWord b i s
      | .w64 => hostReadWord b i s

/-- A write to CMD while IDLE: a legal word starts its command (R75), an illegal one runs
BAD_COMMAND at once (R82). -/
def writeCommand (v : Word) (s : State) : Host.Outcome State Fault Refusal :=
  match decodeCommand v with
  | .compress => .next (startCommand v s)
  | .decompress => .next (startCommand v s)
  | .badCommand opcode rsv => exec (.badCommand opcode rsv) s
  | .tokenInternal => .next s
  | .tokenLeaf _ => .next s
  | .tokenInvalid _ => .next s

/-- A write at a register offset (R12 to R18). Every register ignores writes while BUSY (R99), and the
read-only registers and reserved offsets ignore them always. -/
def writeRegisterAt (off : Nat) (v : Word) (s : State) : Host.Outcome State Fault Refusal :=
  match s.phase with
  | .busy => .next s
  | .idle =>
    match Reg.ofOffset off with
    | some .cmd => writeCommand v s
    | some .inLen => .next { s with inLen := v }
    | some .dictLen => .next { s with dictLen := v }
    | some .status => .next s
    | some .outLen => .next s
    | some .cfgIbufSize => .next s
    | some .cfgDbufSize => .next s
    | some .cfgObufSize => .next s
    | some .cfgPathMax => .next s
    | none => .next s

/-- The effect of a permitted write. During reset there is none (R97). -/
def busWrite (w : Width) (off : Nat) (v : Word) (s : State) : Host.Outcome State Fault Refusal :=
  if s.resetIn then .next s
  else
    match regionOf off with
    | .registers => writeRegisterAt off v s
    | .reserved => .next s
    | .window b i =>
      match w with
      | .w8 => .next (hostWriteByte b i (byteOfWord v 0) s)
      | .w16 => .next (hostWriteWord b i v s)
      | .w32 => .next (hostWriteWord b i v s)
      | .w64 => .next (hostWriteWord b i v s)

/-- One bus access of the host (R28 to R30, R45). -/
def busAccess (a : Access) (s : State) : Host.Outcome State Fault Refusal :=
  match decodeAddr s.cfg a.addr with
  | none => .refused .platformUndecoded
  | some off =>
    match permitted a.width off with
    | false => .refused .unsupportedAccess
    | true =>
      match a.dir with
      | .read x =>
        let r := busRead a.width off s
        .next (bindVar x r.1 r.2)
      | .write v =>
        match operandValue v s with
        | none => .refused .unboundName
        | some w => busWrite a.width off w s

/-- One read of STATUS by POLL (R46): the statement is done when the value read has DONE = 1. -/
def pollOnce (x : Var) (rest : List Stmt) (s : State) : State :=
  let r := busRead .w32 Reg.status.offset s
  let t := bindVar x r.1 r.2
  { t with prog := if statusDone r.1 then rest else .poll x :: rest }

/-- A pseudo-statement gives way to its expansion for the count as it stands (R46; log 9). The turn
makes no access. -/
def expandStmt (n : Operand) (expansion : Nat → List Stmt) (rest : List Stmt) (s : State) :
    Host.Outcome State Fault Refusal :=
  match operandValue n s with
  | none => .refused .unboundName
  | some v => .next { s with prog := expansion v.toNat ++ rest }

/-- The host's turn: the next statement of its program (R45). With no statement left it does
nothing. -/
def hostTurn (s : State) : Host.Outcome State Fault Refusal :=
  match s.prog with
  | [] => .next s
  | .access a :: rest => busAccess a { s with prog := rest }
  | .poll x :: rest => .next (pollOnce x rest s)
  | .rbuf b n name :: rest => expandStmt n (fun k => rbuf s.cfg b k name) rest s
  | .copy src dst n t :: rest => expandStmt n (fun k => copy s.cfg src dst k t) rest s

/-- Whose turn it is, and the turns after it. When the schedule is used up the engine moves while it
has a step enabled, and else the host: the weak fairness of R76 (log 2). -/
def nextTurn (s : State) : Turn × List Turn :=
  match s.schedule with
  | t :: ts => (t, ts)
  | [] => (if s.resetIn = false ∧ s.phase = .busy then .engine else .host, [])

/-- One turn of the machine. -/
def takeTurn (t : Turn) (s : State) : Host.Outcome State Fault Refusal :=
  match t with
  | .host => hostTurn s
  | .engine => engineTurn s
  | .assertReset => .next (assertReset s)
  | .releaseReset => .next (releaseReset s)

/-- The state with a token's two bytes at DPOS and the parser about to fetch it: DECOMPRESS is running
and inside PARSE, and it is the engine's turn. DPOS stays where it is unless the bytes would not fit
in DBUF, and the dictionary is made long enough to hold them. -/
def placeToken (mark sym : Byte) (s : State) : State :=
  let d := if s.eng.dpos + 2 ≤ s.cfg.dbufSize then s.eng.dpos else 0
  { s with
    cmd := 0x00000002
    status := Status.started
    phase := .busy
    stage := .parse
    dictLen :=
      if d + 2 ≤ s.dictionaryLen ∧ s.dictionaryLen ≤ s.cfg.dbufSize then s.dictLen
      else BitVec.ofNat 32 (d + 2)
    mem := Memory.write (Buf.dbuf.offset + (d + 1)) sym
      (Memory.write (Buf.dbuf.offset + d) mark s.mem)
    eng := { s.eng with dpos := d }
    resetIn := false
    schedule := .engine :: s.schedule }

/-- The state in which the next step runs a command word: a legal word stands in CMD of a BUSY block
at the engine's turn (R75, R76); an illegal one is the host's next write to CMD of an IDLE block
(R82). -/
def placeCommand (w : Word) (s : State) : State :=
  match decodeCommand w with
  | .badCommand _ _ =>
    { s with
      status := if s.phase = .busy then State.reset.status else s.status
      phase := .idle
      stage := .command
      resetIn := false
      prog := .access ⟨s.cfg.base + Reg.cmd.offset, .w32, .write (.imm w)⟩ :: s.prog
      schedule := .host :: s.schedule }
  | .compress =>
    { startCommand w s with resetIn := false, schedule := .engine :: s.schedule }
  | .decompress =>
    { startCommand w s with resetIn := false, schedule := .engine :: s.schedule }
  | .tokenInternal => s
  | .tokenLeaf _ => s
  | .tokenInvalid _ => s

end Sys2Proof.Machine
end

