-- ==== Sys2Proof/Machine/Step.lean ====
section
/-!
DEFINITION. One step of the machine: the turn of the agent the schedule names (spec/20_memory.md R33:
every run is the interleaving of the host's accesses with the engine's completion steps).
-/

namespace Sys2Proof.Machine

/-- One step. -/
def step (s : State) : Host.Outcome State Fault Refusal :=
  let turn := nextTurn s
  takeTurn turn.1 { s with schedule := turn.2 }

/-- The state in which the very next step runs the opcode-table word `w` of `nbits` bits: at most two
bytes are a dictionary token at DPOS, up to 32 bits a command word. -/
def State.withFetchWord (s : State) (nbits w : Nat) : State :=
  let v := w % 2 ^ nbits
  if nbits ≤ 16 then placeToken (BitVec.ofNat 8 v) (BitVec.ofNat 8 (v / 256)) s
  else if nbits ≤ 32 then placeCommand (BitVec.ofNat 32 v) s
  else s

end Sys2Proof.Machine
end

