-- ==== Sys2Proof/Safety.lean ====
section
/-!
DEFINITION. What counts as a safe state, and the terms the claims use: the invariants of the machine,
what a buffer holds, the payload format (spec/30_encoding.md R44), greedy matching
(spec/42_bit_packer.md R69) and the walk of a token list (spec/41_dictionary_parser.md R57).
-/

namespace Sys2Proof.Machine

/-! What the buffers hold. -/

/-- The first bytes of a buffer are stored and are the given ones. -/
abbrev State.holds (s : State) (b : Buf) (bytes : List Byte) : Prop :=
  ∀ k, k < bytes.length → s.byteAt b k = bytes[k]?

/-- IN_LEN and the start of IBUF are the given input or payload (R98 step 2: every byte written). -/
abbrev State.inputIs (s : State) (bytes : List Byte) : Prop :=
  s.inputLen = bytes.length ∧ s.holds .ibuf bytes

/-- DICT_LEN and the start of DBUF are the given dictionary (R98 step 2). -/
abbrev State.dictionaryIs (s : State) (bytes : List Byte) : Prop :=
  s.dictionaryLen = bytes.length ∧ s.holds .dbuf bytes

/-- The address map of R27 and the capacities of R26: the first offset of a buffer's window, the
window's span, and the buffer's size. -/
abbrev windowOf (p : Params) (b : Buf) (base span size : Nat) : Prop :=
  match b with
  | .ibuf => base = 0x100000 ∧ span = 0x100000 ∧ size = p.ibufSize
  | .dbuf => base = 0x200000 ∧ span = 0x100000 ∧ size = p.dbufSize
  | .obuf => base = 0x400000 ∧ span = 0x400000 ∧ size = p.obufSize

/-- The byte a host read of an IDLE block finds at a window index: a stored byte, or 0 at or past the
buffer's size (R28, R30). -/
abbrev State.windowByte (s : State) (b : Buf) (size i : Nat) (v : Byte) : Prop :=
  (i < size ∧ s.byteAt b i = some v) ∨ (size ≤ i ∧ v = 0)

/-- A host read of the byte gives an unspecified value: while BUSY, or where nothing has written it
(R31, R100). -/
def State.unspecified (s : State) (b : Buf) (i : Nat) : Bool :=
  decide (i < b.size s.cfg ∧ (s.phase = .busy ∨ s.byteAt b i = none))

/-- The number of unspecified bytes among `n` from index `i`. -/
def State.unspecifiedCount (s : State) (b : Buf) (i n : Nat) : Nat :=
  (List.range n).countP fun k => s.unspecified b (i + k)

/-! The formats. -/

/-- `CODE[x0] ++ CODE[x1] ++ ...` (R44). -/
def codesOf (code : Vector (Option Bits) 256) (bytes : List Byte) : Bits :=
  bytes.flatMap fun x => (code[x.toNat]'x.isLt).getD []

/-- `pad = (8 − L mod 8) mod 8` (R44). -/
def padLen (len : Nat) : Nat := (8 - len % 8) % 8

/-- `⌈L/8⌉` (R9). -/
def bytesFor (len : Nat) : Nat := (len + 7) / 8

/-- The payload of a bit sequence: zero-padded, cut into bytes of 8 bits (R44). -/
def packBits (bits : Bits) : List Byte :=
  (List.range (bytesFor bits.length)).map fun k =>
    byte8 (((bits ++ zeros (padLen bits.length)).drop (8 * k)).take 8)

/-- The symbols greedy matching emits, from a buffer and the bits still to come (R69). -/
def greedy (inv : List (Bits × Byte)) : Bits → Bits → List Byte
  | _, [] => []
  | buf, bit :: bits =>
    match invGet (buf ++ [bit]) inv with
    | some v => v :: greedy inv [] bits
    | none => greedy inv (buf ++ [bit]) bits

/-- A token of a dictionary without invalid bytes. -/
abbrev isMarkToken (i : Instr) : Prop :=
  match i with
  | .tokenInternal => True
  | .tokenLeaf _ => True
  | .tokenInvalid _ => False
  | .compress => False
  | .decompress => False
  | .badCommand _ _ => False

/-- The symbol of a LEAF token. -/
def leafSym (i : Instr) : Option Byte :=
  match i with
  | .tokenLeaf sym => some sym
  | .tokenInternal => none
  | .tokenInvalid _ => none
  | .compress => none
  | .decompress => none
  | .badCommand _ _ => none

/-- PATH and INV after a list of tokens (R58 to R60), PATH_MAX left aside. -/
def walkTokens : List Instr → Bits × List (Bits × Byte) → Bits × List (Bits × Byte)
  | [], w => w
  | .tokenInternal :: toks, w => walkTokens toks (w.1 ++ [false], w.2)
  | .tokenLeaf sym :: toks, w => walkTokens toks (backtrack w.1, invSet (leafKey w.1) sym w.2)
  | .tokenInvalid _ :: toks, w => walkTokens toks w
  | .compress :: toks, w => walkTokens toks w
  | .decompress :: toks, w => walkTokens toks w
  | .badCommand _ _ :: toks, w => walkTokens toks w

/-- PATH never holds PATH_MAX bits where an INTERNAL token comes (R58), along the walk of a list of
tokens from a path. -/
def walkFits (pathMax : Nat) : List Instr → Bits → Bool
  | [], _ => true
  | .tokenInternal :: toks, path => decide (path.length < pathMax) && walkFits pathMax toks (path ++ [false])
  | .tokenLeaf _ :: toks, path => walkFits pathMax toks (backtrack path)
  | .tokenInvalid _ :: toks, path => walkFits pathMax toks path
  | .compress :: toks, path => walkFits pathMax toks path
  | .decompress :: toks, path => walkFits pathMax toks path
  | .badCommand _ _ :: toks, path => walkFits pathMax toks path

/-- The number of distinct byte values of an input. -/
def distinct (bytes : List Byte) : Nat := bytes.dedup.length

/-! The error completion as a relation (R88). -/

/-- What R88 leaves of the buffers: after OUT_OVERFLOW every byte of OBUF is unspecified, and for
COMPRESS every byte of DBUF, and every other byte is as before; after any other error every byte is
as before. -/
def errorMemory (c : Command) (e : ErrCode) (s t : State) : Prop :=
  (e ≠ .outOverflow → ∀ a, Memory.read a t.mem = Memory.read a s.mem) ∧
  (e = .outOverflow →
    (∀ i, i < s.cfg.obufSize → t.byteAt .obuf i = none) ∧
    (c = .compress → ∀ i, i < s.cfg.dbufSize → t.byteAt .dbuf i = none) ∧
    ∀ a, (a < Buf.obuf.offset ∨ Buf.obuf.offset + s.cfg.obufSize ≤ a) →
      (c = .compress → a < Buf.dbuf.offset ∨ Buf.dbuf.offset + s.cfg.dbufSize ≤ a) →
      Memory.read a t.mem = Memory.read a s.mem)

/-- `t` is what R88 leaves of `s` when command `c` ends with error `e`. Internal working state and the
draw counter are not spoken of (R24). -/
def errorCompleted (c : Command) (e : ErrCode) (s t : State) : Prop :=
  t.outLen = 0 ∧
  t.dictLen = (match c with
    | .compress => 0
    | .decompress => s.dictLen) ∧
  t.phase = .idle ∧ t.status = Status.failed e ∧
  t.cmd = s.cmd ∧ t.inLen = s.inLen ∧ t.cfg = s.cfg ∧
  t.resetIn = s.resetIn ∧ t.prog = s.prog ∧ t.vars = s.vars ∧ t.schedule = s.schedule ∧
  errorMemory c e s t

/-! The turns of the agents. -/

/-- It is the host's turn and its next statement is the given access, at an offset from BASE. -/
abbrev hostAccess (s : State) (ts : List Turn) (rest : List Stmt) (w : Width) (off : Nat) (d : Dir) :
    Prop :=
  nextTurn s = (.host, ts) ∧ s.prog = .access ⟨s.cfg.base + off, w, d⟩ :: rest

/-- The state after a statement that changed nothing else. -/
def afterStatement (s : State) (ts : List Turn) (rest : List Stmt) : State :=
  { s with schedule := ts, prog := rest }

/-- It is the engine's turn, a command is running, and the reset input is released. -/
abbrev engineRunning (s : State) (ts : List Turn) (st : Stage) : Prop :=
  nextTurn s = (.engine, ts) ∧ s.resetIn = false ∧ s.phase = .busy ∧ s.stage = st

/-- The handles of a node's children (R20). -/
def Node.children : Node → List Nat
  | .leaf _ _ => []
  | .internal _ l r => [l, r]

/-- The node a path leads to from a handle: 0 to the left child, 1 to the right one (R43, R53). -/
def nodeAt (nodes : List Node) : Nat → Bits → Option Node
  | h, [] => nodes[h]?
  | h, bit :: path =>
    match nodes[h]? with
    | some (.internal _ l r) => nodeAt nodes (if bit then r else l) path
    | some (.leaf _ _) => none
    | none => none

/-- A Leaf (R20). -/
def Node.isLeaf : Node → Bool
  | .leaf _ _ => true
  | .internal _ _ _ => false

/-! The invariants. -/

/-- An offset that is a byte of one of the buffers (R27). -/
abbrev inBuffer (p : Params) (a : Nat) : Prop :=
  (Buf.ibuf.offset ≤ a ∧ a < Buf.ibuf.offset + p.ibufSize) ∨
  (Buf.dbuf.offset ≤ a ∧ a < Buf.dbuf.offset + p.dbufSize) ∨
  (Buf.obuf.offset ≤ a ∧ a < Buf.obuf.offset + p.obufSize)

/-- The memory is in canonical form and lists bytes of the buffers only. -/
abbrev State.memLegal (s : State) : Prop :=
  Memory.wf s.mem ∧ ∀ c ∈ s.mem, inBuffer s.cfg c.1

/-- The legal states of STATUS (R13): DONE = ERR = 0 while BUSY, ERR only with DONE, ERRCODE 0 exactly
when ERR = 0. -/
abbrev State.statusLegal (s : State) : Prop :=
  (s.phase = .busy → s.status = Status.started) ∧
  (s.status.err = true → s.status.done = true) ∧
  (s.status.err = true ↔ s.status.code ≠ .none)

/-- A running command is one of the two legal ones (R75), with the block out of reset (R97); inside
PARSE it is a DECOMPRESS whose lengths were in range (R80). -/
abbrev State.phaseLegal (s : State) : Prop :=
  (s.phase = .busy →
    s.resetIn = false ∧ (s.cmd = 0x00000001 ∨ s.cmd = 0x00000002)) ∧
  (s.stage = .parse →
    s.phase = .busy ∧ s.cmd = 0x00000002 ∧ s.inputLen ≤ s.cfg.ibufSize ∧
    s.dictionaryLen ≤ s.cfg.dbufSize)

/-- OUT_LEN never exceeds OBUF_SIZE (R16, R87). -/
abbrev State.outLegal (s : State) : Prop := s.outLen.toNat ≤ s.cfg.obufSize

/-- R22: PATH holds at most PATH_MAX bits; INV is a finite map from nonempty bit sequences, none longer
than PATH_MAX (R72). -/
abbrev State.parserLegal (s : State) : Prop :=
  s.eng.path.length ≤ s.cfg.pathMax ∧
  (∀ p ∈ s.eng.inv, p.1 ≠ [] ∧ p.1.length ≤ s.cfg.pathMax) ∧
  (s.eng.inv.map Prod.fst).Nodup

/-- The invariant of the machine. -/
abbrev State.Inv (s : State) : Prop :=
  s.cfg.ok ∧ s.memLegal ∧ s.statusLegal ∧ s.phaseLegal ∧ s.outLegal ∧ s.parserLegal

/-- A node of the arena with handle `h`: children are earlier nodes, and an Internal node's frequency is
the sum of theirs (R20). -/
abbrev nodeLegal (nodes : List Node) (h : Nat) (nd : Node) : Prop :=
  match nd with
  | .leaf _ _ => True
  | .internal f l r => l < h ∧ r < h ∧ f = nodeFreq nodes l + nodeFreq nodes r

/-- R20, R21, R52: at most 511 nodes, WORK at most 256 long, the arena's nodes legal, every code of 1 to
255 bits. -/
abbrev State.treeLegal (s : State) : Prop :=
  s.eng.node.length ≤ 511 ∧ s.eng.work.length ≤ 256 ∧
  (∀ h, (hh : h < s.eng.node.length) → nodeLegal s.eng.node h s.eng.node[h]) ∧
  (∀ x, (hx : x < 256) → ∀ c, s.eng.code[x] = some c → 1 ≤ c.length ∧ c.length ≤ 255)

end Sys2Proof.Machine
end

