-- ==== Sys2Proof/Certificates/Slice0/Obligations.lean ====
section
/-!
DEFINITION. The statements about the machine, for the provers. Each is listed in OBLIGATIONS.json with
the rules of spec/ it rests on. Statements about unspecified values hold for every value of the draw
counter `draws` and whatever the free values of Config are.
-/

open Sys2Proof Sys2Proof.Machine

/-! Encodings (spec/30_encoding.md). -/

/-- Decoding the encoding of a well-formed instruction gives it back, for every instruction and every
operand. -/
def Obligations.DecodeOfEncodeIsIdentity : Prop :=
  ∀ i : Instr, i.wf = true → decode (encode i) = some i

/-- R37: a command word is legal exactly when RSV = 0 and OPCODE is 0x01 or 0x02; COMPRESS is the word
1, DECOMPRESS the word 2; every word decodes to a well-formed command that encodes to it. -/
def Obligations.CommandWordFormat : Prop :=
  ∀ w : Word,
    (decodeCommand w).wf = true ∧ encode (decodeCommand w) = .command w ∧
    (decodeCommand w = .compress ↔ w = 0x00000001) ∧
    (decodeCommand w = .decompress ↔ w = 0x00000002) ∧
    ((decodeCommand w = .compress ∨ decodeCommand w = .decompress) ↔
      (w.toNat / 256 = 0 ∧ (w.toNat % 256 = 1 ∨ w.toNat % 256 = 2)))

/-- The token decoder reads exactly the bytes of a well-formed token and leaves the rest; it rejects
only the empty sequence and a lone LEAF mark (R40 to R42). -/
def Obligations.TokenDecodingReadsWholeTokens : Prop :=
  ∀ bytes : List Byte,
    (∀ i rest, decodeToken bytes = .ok (i, rest) ↔
      (i.wf = true ∧ tokenBytes i ≠ [] ∧ bytes = tokenBytes i ++ rest)) ∧
    (decodeToken bytes = .error .noByte ↔ bytes = []) ∧
    (decodeToken bytes = .error .leafWithoutSymbol ↔ bytes = [0x31])

/-- Words written out from the encoding tables decode to what they stand for. -/
def Obligations.WrittenWordsDecode : Prop :=
  decodeCommand 0b00000000000000000000000000000001#32 = .compress ∧
  decodeCommand 0b00000000000000000000000000000010#32 = .decompress ∧
  decodeCommand 0b00000000000000000000000100000001#32 = .badCommand 0x01 0x000001 ∧
  decodeCommand 0b00000000000000000000000011111111#32 = .badCommand 0xFF 0x000000 ∧
  decodeToken [0b00110000#8, 0b00110001#8] = .ok (.tokenInternal, [0b00110001#8]) ∧
  decodeToken [0b00110001#8, 0b00110000#8] = .ok (.tokenLeaf 0x30, []) ∧
  decodeToken [0b01111000#8] = .ok (.tokenInvalid 0x78, [])

/-! Reset (spec/70_reset_and_hazards.md). -/

/-- R96: asserting the reset input puts every register at its reset value, CFG registers at the
parameters, PHASE at IDLE, and leaves every buffer byte unspecified: not stored, in the model (log 4). The
reset input stays asserted (log 10). -/
def Obligations.ResetSetsRegistersAndForgetsBuffers : Prop :=
  ∀ s ts, s.schedule = .assertReset :: ts →
    ∃ t, step s = .next t ∧
      regRead .cmd t = 0 ∧ regRead .status t = 0 ∧ regRead .inLen t = 0 ∧ regRead .dictLen t = 0 ∧
      regRead .outLen t = 0 ∧
      regRead .cfgIbufSize t = BitVec.ofNat 32 s.cfg.ibufSize ∧
      regRead .cfgDbufSize t = BitVec.ofNat 32 s.cfg.dbufSize ∧
      regRead .cfgObufSize t = BitVec.ofNat 32 s.cfg.obufSize ∧
      regRead .cfgPathMax t = BitVec.ofNat 32 s.cfg.pathMax ∧
      t.phase = .idle ∧ (∀ b i, t.byteAt b i = none) ∧
      t.cfg = s.cfg ∧ t.resetIn = true ∧ t.schedule = ts ∧ t.prog = s.prog ∧ t.vars = s.vars

/-- R97: a reset while BUSY abandons the command; while the input is asserted the engine does nothing,
a host write has no effect, and a host read changes nothing and binds a free value; the release of the
input changes nothing else. The draws are the model's form of "unspecified", and the release is a turn
of its own (log 10). -/
def Obligations.ResetAbandonsCommandAndBlocksAccesses : Prop :=
  (∀ s ts, s.schedule = .assertReset :: ts → s.phase = .busy →
    ∃ t, step s = .next t ∧ t.phase = .idle ∧ t.stage = .command ∧ t.mem = [] ∧
      statusWord t.phase t.status = 0) ∧
  (∀ s ts, s.resetIn = true → nextTurn s = (.engine, ts) →
    step s = .next { s with schedule := ts }) ∧
  (∀ s ts rest w off v, s.resetIn = true → off < 0x800000 → permitted w off = true →
    hostAccess s ts rest w off (.write (.imm v)) → step s = .next (afterStatement s ts rest)) ∧
  (∀ s ts rest off x, s.resetIn = true → off < 0x800000 → off % 4 = 0 →
    hostAccess s ts rest .w32 off (.read x) →
    step s = .next (bindVar x (Config.freeWord s.draws) (afterStatement s ts rest).tick)) ∧
  (∀ s ts rest off x, s.resetIn = true → permitted .w8 off = true → off < 0x800000 →
    hostAccess s ts rest .w8 off (.read x) →
    step s = .next (bindVar x ((Config.freeByte s.draws).zeroExtend 32)
      (afterStatement s ts rest).tick)) ∧
  (∀ s ts, s.schedule = .releaseReset :: ts →
    step s = .next { s with resetIn := false, schedule := ts })

/-- The machine right after reset meets the invariants, with the values the model chose where the spec
gives none: the reference parameters (log 1) and the empty internal working state (log 8). -/
def Obligations.ResetStateIsLegal : Prop :=
  State.reset.Inv ∧ State.reset.treeLegal

/-! Registers and the bus (spec/10_state.md, spec/20_memory.md). -/

/-- The STATUS word: BUSY bit 0, DONE bit 1, ERR bit 2, ERRCODE bits [11:8], reserved bits 0 (R13), and
the numbers of the error codes in ERRCODE (R87). -/
def Obligations.StatusWordFields : Prop :=
  (∀ (ph : Phase) (st : Status),
    let w := statusWord ph st
    (w.getLsbD 0 = true ↔ ph = .busy) ∧ w.getLsbD 1 = st.done ∧ w.getLsbD 2 = st.err ∧
    (w.extractLsb' 8 4).toNat = st.code.num ∧ w.extractLsb' 3 5 = 0 ∧ w.extractLsb' 12 20 = 0) ∧
  ErrCode.none.num = 0 ∧ ErrCode.emptyInput.num = 1 ∧ ErrCode.emptyDictionary.num = 2 ∧
  ErrCode.invalidDictionary.num = 3 ∧ ErrCode.badCommand.num = 4 ∧ ErrCode.lengthRange.num = 5 ∧
  ErrCode.outOverflow.num = 6 ∧ ErrCode.pathOverflow.num = 7

/-- Every register reads its value in every phase, with no other effect, and a reserved register offset
reads 0 (R12 to R18, R100). -/
def Obligations.RegisterReads : Prop :=
  ∀ s ts rest off x, s.resetIn = false → off < 0x100000 → off % 4 = 0 →
    hostAccess s ts rest .w32 off (.read x) →
    step s = .next (bindVar x
      (if off = 0x000 then s.cmd
       else if off = 0x004 then statusWord s.phase s.status
       else if off = 0x008 then s.inLen
       else if off = 0x00C then s.dictLen
       else if off = 0x010 then s.outLen
       else if off = 0x014 then BitVec.ofNat 32 s.cfg.ibufSize
       else if off = 0x018 then BitVec.ofNat 32 s.cfg.dbufSize
       else if off = 0x01C then BitVec.ofNat 32 s.cfg.obufSize
       else if off = 0x020 then BitVec.ofNat 32 s.cfg.pathMax
       else 0) (afterStatement s ts rest))

/-- R17: the CFG registers read the parameters at all times, whole in their 32 bits; host writes to them
are ignored; and no step ever changes a parameter. -/
def Obligations.CfgRegistersReadParameters : Prop :=
  (∀ s, s.cfg.ok →
    (regRead .cfgIbufSize s).toNat = s.cfg.ibufSize ∧
    (regRead .cfgDbufSize s).toNat = s.cfg.dbufSize ∧
    (regRead .cfgObufSize s).toNat = s.cfg.obufSize ∧
    (regRead .cfgPathMax s).toNat = s.cfg.pathMax) ∧
  (∀ s ts rest r x, s.resetIn = false →
    (r = Reg.cfgIbufSize ∨ r = .cfgDbufSize ∨ r = .cfgObufSize ∨ r = .cfgPathMax) →
    hostAccess s ts rest .w32 r.offset (.read x) →
    step s = .next (bindVar x (regRead r s) (afterStatement s ts rest))) ∧
  (∀ s ts rest r v,
    (r = Reg.cfgIbufSize ∨ r = .cfgDbufSize ∨ r = .cfgObufSize ∨ r = .cfgPathMax) →
    hostAccess s ts rest .w32 r.offset (.write (.imm v)) →
    step s = .next (afterStatement s ts rest)) ∧
  (∀ s t, step s = .next t → t.cfg = s.cfg)

/-- IN_LEN and DICT_LEN take any 32-bit value a host writes while IDLE and change nothing else
(R14, R15). -/
def Obligations.LengthRegisterWrites : Prop :=
  ∀ s ts rest v, s.resetIn = false → s.phase = .idle →
    (hostAccess s ts rest .w32 0x008 (.write (.imm v)) →
      step s = .next { afterStatement s ts rest with inLen := v }) ∧
    (hostAccess s ts rest .w32 0x00C (.write (.imm v)) →
      step s = .next { afterStatement s ts rest with dictLen := v })

/-- R28, 8-bit, at the windows of R27: a write while IDLE stores the byte and changes no other address;
a read of a stored byte returns it and changes nothing. -/
def Obligations.WindowByteAccesses : Prop :=
  ∀ s ts rest b base span size i, windowOf s.cfg b base span size → s.cfg.ok →
    s.resetIn = false → s.phase = .idle → i < size →
    (∀ v, hostAccess s ts rest .w8 (base + i) (.write (.imm v)) →
      ∃ t, step s = .next t ∧ t.byteAt b i = some (v.extractLsb' 0 8) ∧
        (∀ a, a ≠ base + i → Memory.read a t.mem = Memory.read a s.mem) ∧
        t = (afterStatement s ts rest).withMem t.mem) ∧
    (∀ x v, hostAccess s ts rest .w8 (base + i) (.read x) → s.byteAt b i = some v →
      step s = .next (bindVar x (v.zeroExtend 32) (afterStatement s ts rest)))

/-- R28, 32-bit, at the windows of R27: four bytes little-endian; a byte at or past the buffer's size
reads 0 and its write is ignored. -/
def Obligations.WindowWordAccesses : Prop :=
  ∀ s ts rest b base span size i, windowOf s.cfg b base span size → s.cfg.ok →
    s.resetIn = false → s.phase = .idle → i % 4 = 0 → i + 3 < span →
    (∀ v : Word, hostAccess s ts rest .w32 (base + i) (.write (.imm v)) →
      ∃ t, step s = .next t ∧
        (∀ k, k < 4 → i + k < size → t.byteAt b (i + k) = some (v.extractLsb' (8 * k) 8)) ∧
        (∀ a, (∀ k, k < 4 → i + k < size → a ≠ base + (i + k)) →
          Memory.read a t.mem = Memory.read a s.mem) ∧
        t = (afterStatement s ts rest).withMem t.mem) ∧
    (∀ x v0 v1 v2 v3, hostAccess s ts rest .w32 (base + i) (.read x) →
      s.windowByte b size i v0 → s.windowByte b size (i + 1) v1 →
      s.windowByte b size (i + 2) v2 → s.windowByte b size (i + 3) v3 →
      ∃ w : Word, w.toNat = v0.toNat + 2 ^ 8 * v1.toNat + 2 ^ 16 * v2.toNat + 2 ^ 24 * v3.toNat ∧
        step s = .next (bindVar x w (afterStatement s ts rest)))

/-- R29: 16-bit and 64-bit accesses, misaligned 32-bit accesses and 8-bit register accesses are refused
by the model; register and window accesses of a permitted width and alignment never are. -/
def Obligations.UnsupportedAccessesAreRefused : Prop :=
  ∀ s ts rest w off d, off < 0x800000 → hostAccess s ts rest w off d →
    ((w = .w16 ∨ w = .w64 ∨ (w = .w32 ∧ off % 4 ≠ 0) ∨ (w = .w8 ∧ off < 0x100000)) →
      step s = .refused .unsupportedAccess) ∧
    (((w = .w32 ∧ off % 4 = 0) ∨
        (w = .w8 ∧ ((0x100000 ≤ off ∧ off < 0x300000) ∨ 0x400000 ≤ off))) →
      ((∃ x, d = .read x) ∨ ∃ v, d = .write (.imm v)) → ∃ t, step s = .next t)

/-- R30 and R18: a permitted access to a reserved offset, or to a byte at or past the buffer's size,
reads 0 and its write is ignored, in every phase. That a byte past the size reads 0 also while BUSY is
the model's reading of R30 beside R100 (log 5). -/
def Obligations.ReservedOffsetsReadZeroAndIgnoreWrites : Prop :=
  ∀ s ts rest w off, s.resetIn = false → off < 0x800000 →
    ((w = .w32 ∧ off % 4 = 0 ∧
        ((0x000024 ≤ off ∧ off < 0x100000) ∨ (0x300000 ≤ off ∧ off < 0x400000))) ∨
      ∃ (b : Buf) (base span size i : Nat), windowOf s.cfg b base span size ∧
        off = base + i ∧ i < span ∧ size ≤ i ∧ (w = .w8 ∨ (w = .w32 ∧ off % 4 = 0))) →
    (∀ x, hostAccess s ts rest w off (.read x) →
      step s = .next (bindVar x 0 (afterStatement s ts rest))) ∧
    (∀ v, hostAccess s ts rest w off (.write (.imm v)) →
      step s = .next (afterStatement s ts rest))

/-- A host read of a buffer byte that nothing has written, or of any buffer byte while BUSY, gives a
fresh free value for that byte, in an 8-bit and in a 32-bit read; the other bytes of a 32-bit read are
as stored, or 0 at or past the size; nothing else changes but the draw counter, the model's own (R31,
R100; logs 4, 5). -/
def Obligations.UnspecifiedBytesAreFreshDraws : Prop :=
  ∀ s ts rest b base span size i x, windowOf s.cfg b base span size → s.cfg.ok →
    s.resetIn = false →
    (i < size → (s.phase = .busy ∨ s.byteAt b i = none) →
      hostAccess s ts rest .w8 (base + i) (.read x) →
      step s = .next (bindVar x ((Config.freeByte s.draws).zeroExtend 32)
        (afterStatement s ts rest).tick)) ∧
    (i % 4 = 0 → i + 3 < span → hostAccess s ts rest .w32 (base + i) (.read x) →
      ∃ w : Word,
        step s = .next (bindVar x w { afterStatement s ts rest with
          draws := s.draws + s.unspecifiedCount b i 4 }) ∧
        ∀ k, k < 4 →
          (i + k < size → (s.phase = .busy ∨ s.byteAt b (i + k) = none) →
            w.extractLsb' (8 * k) 8 = Config.freeByte (s.draws + s.unspecifiedCount b i k)) ∧
          (size ≤ i + k → w.extractLsb' (8 * k) 8 = 0) ∧
          (∀ v, i + k < size → s.phase = .idle → s.byteAt b (i + k) = some v →
            w.extractLsb' (8 * k) 8 = v))

/-- An access outside the 2^23 bytes at BASE is refused (R26, R27; log 11), and so is an 8-bit access
to the reserved hole 0x300000 to 0x3FFFFF, the model's reading of R29 (log 12). -/
def Obligations.UndecodedAddressesAreRefused : Prop :=
  (∀ s ts rest a, nextTurn s = (.host, ts) → s.prog = .access a :: rest →
    (a.addr < s.cfg.base ∨ s.cfg.base + 0x800000 ≤ a.addr) →
    step s = .refused .platformUndecoded) ∧
  (∀ s ts rest off d, 0x300000 ≤ off → off < 0x400000 → hostAccess s ts rest .w8 off d →
    step s = .refused .unsupportedAccess)

/-- R99: while BUSY a host write to CMD, IN_LEN, DICT_LEN or any buffer byte is ignored; writes to
read-only registers and reserved offsets are ignored in every phase. -/
def Obligations.IgnoredWrites : Prop :=
  (∀ s ts rest w off v, s.phase = .busy → off < 0x800000 → permitted w off = true →
    hostAccess s ts rest w off (.write (.imm v)) → step s = .next (afterStatement s ts rest)) ∧
  (∀ s ts rest off v, off % 4 = 0 →
    ((off = 0x004 ∨ (0x010 ≤ off ∧ off < 0x100000)) ∨ (0x300000 ≤ off ∧ off < 0x400000)) →
    hostAccess s ts rest .w32 off (.write (.imm v)) → step s = .next (afterStatement s ts rest))

/-! Starting and ending a command (spec/43_codec_commands.md). -/

/-- R75: a host write of a legal word to CMD while IDLE stores it, makes PHASE BUSY and STATUS 1, and
changes nothing else; and from every BUSY state with these operands, any step of the host keeps the
block BUSY with the same operands, so no later write changes them. -/
def Obligations.LegalCommandWriteStartsCommand : Prop :=
  ∀ s ts rest w, s.resetIn = false → s.phase = .idle →
    (w = 0x00000001 ∨ w = 0x00000002) → hostAccess s ts rest .w32 0x000 (.write (.imm w)) →
    ∃ t, step s = .next t ∧
      t = { afterStatement s ts rest with
        cmd := w, phase := .busy, stage := .command, status := Status.started } ∧
      regRead .status t = 0x00000001 ∧
      (∀ ts' rest' w' off v, off < 0x800000 → permitted w' off = true →
        hostAccess t ts' rest' w' off (.write (.imm v)) →
        step t = .next (afterStatement t ts' rest')) ∧
      (∀ u v ts', u.phase = .busy → u.cmd = w → u.inLen = s.inLen → u.dictLen = s.dictLen →
        u.mem = s.mem → nextTurn u = (.host, ts') → step u = .next v →
        v.phase = .busy ∧ v.cmd = w ∧ v.inLen = s.inLen ∧ v.dictLen = s.dictLen ∧ v.mem = s.mem)

/-- R82, R39: a host write of any other word to CMD while IDLE stores it and completes at once with
ERRCODE 4; PHASE stays IDLE and nothing else changes. -/
def Obligations.IllegalCommandWriteCompletesAtOnce : Prop :=
  ∀ s ts rest w, s.resetIn = false → s.phase = .idle →
    w ≠ 0x00000001 → w ≠ 0x00000002 → hostAccess s ts rest .w32 0x000 (.write (.imm w)) →
    ∃ t, step s = .next t ∧
      t = { afterStatement s ts rest with cmd := w, status := Status.failed .badCommand } ∧
      regRead .status t = 0x00000406 ∧
      step s = exec (.badCommand (cmdOpcode w) (cmdRsv w)) (afterStatement s ts rest)

/-- BAD_COMMAND completes in every IDLE state, for every OPCODE and RSV that is no legal command: the
word is stored, STATUS reads 0x406, nothing else changes (R82). -/
def Obligations.BadCommandResult : Prop :=
  ∀ (s : State) (opcode : BitVec 8) (rsv : BitVec 24), s.phase = .idle →
    (Instr.badCommand opcode rsv).wf = true →
    exec (.badCommand opcode rsv) s =
      .next { s with cmd := rsv ++ opcode, status := { done := true, err := true, code := .badCommand } }

/-- A step at the engine's turn, before the command is computed, runs the command decoded from CMD
(R76). -/
def Obligations.EngineStepRunsCommandInCmd : Prop :=
  ∀ s ts, engineRunning s ts .command →
    step s = exec (decodeCommand s.cmd) { s with schedule := ts }

/-- A step at the engine's turn inside PARSE runs the token whose bytes stand at DPOS, for every
well-formed token; a LEAF mark that is the last dictionary byte ends the command with
INVALID_DICTIONARY (R57 to R61). -/
def Obligations.EngineStepRunsTokenAtDpos : Prop :=
  (∀ s ts i, engineRunning s ts .parse → i.wf = true → tokenBytes i ≠ [] →
    s.eng.dpos + (tokenBytes i).length ≤ s.dictionaryLen → s.dictionaryLen ≤ s.cfg.dbufSize →
    (∀ k, k < (tokenBytes i).length → s.byteAt .dbuf (s.eng.dpos + k) = (tokenBytes i)[k]?) →
    step s = exec i { s with schedule := ts }) ∧
  (∀ s ts, engineRunning s ts .parse → s.eng.dpos + 1 = s.dictionaryLen →
    s.dictionaryLen ≤ s.cfg.dbufSize → s.byteAt .dbuf s.eng.dpos = some 0x31 →
    ∃ t, step s = .next t ∧
      errorCompleted .decompress .invalidDictionary { s with schedule := ts } t)

/-- The completion step always completes: whatever the registers, the buffers and the free values, a
running legal command ends in one step with PHASE IDLE and DONE = 1 (R76). -/
def Obligations.LegalCommandAlwaysCompletes : Prop :=
  ∀ s ts, engineRunning s ts .command → (s.cmd = 0x00000001 ∨ s.cmd = 0x00000002) →
    ∃ t, step s = .next t ∧ t.phase = .idle ∧ t.stage = .command ∧ t.status.done = true ∧
      statusDone (regRead .status t) = true

/-- POLL terminates: with no turn scheduled, a host that polls a running legal command finishes the
statement in two steps, having read DONE = 1 (R46, R77). -/
def Obligations.PollTerminates : Prop :=
  ∀ s x rest, s.schedule = [] → s.resetIn = false → s.phase = .busy → s.stage = .command →
    (s.cmd = 0x00000001 ∨ s.cmd = 0x00000002) → s.prog = .poll x :: rest →
    ∃ t u w, step s = .next t ∧ step t = .next u ∧ u.prog = rest ∧
      lookupVar x u.vars = some w ∧ statusDone w = true

/-- PHASE moves from IDLE to BUSY only by a host write of a legal word to CMD, and from BUSY to IDLE
only by the engine or the reset input (R11, R83). -/
def Obligations.PhaseChangesOnlyByCommandAndCompletion : Prop :=
  ∀ s t, step s = .next t →
    (s.phase = .idle → t.phase = .busy →
      (nextTurn s).1 = .host ∧
      (∃ a rest v, s.prog = .access a :: rest ∧ a.addr = s.cfg.base ∧ a.width = .w32 ∧
        a.dir = .write v) ∧
      (t.cmd = 0x00000001 ∨ t.cmd = 0x00000002) ∧ t.status = Status.started) ∧
    (s.phase = .busy → t.phase = .idle →
      (nextTurn s).1 = .engine ∨ (nextTurn s).1 = .assertReset)

/-- No host-visible state changes between the start step and the completion step (R76): a step that
leaves the block BUSY changes no register and no buffer byte. -/
def Obligations.NothingVisibleChangesWhileBusy : Prop :=
  ∀ s t, step s = .next t → s.phase = .busy → t.phase = .busy →
    (∀ r, regRead r t = regRead r s) ∧ (∀ a, Memory.read a t.mem = Memory.read a s.mem)

/-! Errors (spec/60_exceptions.md). -/

/-- COMPRESS checks LENGTH_RANGE, then EMPTY_INPUT (R47, R78, R88, R89). -/
def Obligations.CompressLengthErrors : Prop :=
  ∀ s : State,
    (s.cfg.ibufSize < s.inputLen →
      ∃ t, exec .compress s = .next t ∧ errorCompleted .compress .lengthRange s t) ∧
    (s.inputLen = 0 →
      ∃ t, exec .compress s = .next t ∧ errorCompleted .compress .emptyInput s t)

/-- DECOMPRESS checks LENGTH_RANGE first, whatever the dictionary holds (R80, R88, R89). -/
def Obligations.DecompressLengthError : Prop :=
  ∀ s : State, (s.cfg.ibufSize < s.inputLen ∨ s.cfg.dbufSize < s.dictionaryLen) →
    ∃ t, exec .decompress s = .next t ∧ errorCompleted .decompress .lengthRange s t

/-- DECOMPRESS of a dictionary of INTERNAL tokens only, or of none, ends with EMPTY_DICTIONARY
(R62). -/
def Obligations.DictionaryWithoutLeavesIsEmpty : Prop :=
  ∀ (s : State) (n : Nat), s.inputLen ≤ s.cfg.ibufSize → n ≤ s.cfg.dbufSize →
    n ≤ s.cfg.pathMax → s.dictionaryIs (List.replicate n 0x30) →
    ∃ t, exec .decompress s = .next t ∧ errorCompleted .decompress .emptyDictionary s t

/-- The first structural byte that is no mark, and a LEAF mark with no symbol byte, end DECOMPRESS with
INVALID_DICTIONARY, whatever legal tokens within PATH_MAX stand before and whatever bytes after (R42,
R61, R89). -/
def Obligations.InvalidDictionaryIsReported : Prop :=
  ∀ (s : State) (toks : List Instr), (∀ i ∈ toks, isMarkToken i) →
    walkFits s.cfg.pathMax toks [] = true →
    s.inputLen ≤ s.cfg.ibufSize → s.dictionaryLen ≤ s.cfg.dbufSize →
    (∀ mark rest, illegalMark mark →
      s.dictionaryIs (toks.flatMap tokenBytes ++ mark :: rest) →
      ∃ t, exec .decompress s = .next t ∧
        errorCompleted .decompress .invalidDictionary s t) ∧
    (s.dictionaryIs (toks.flatMap tokenBytes ++ [0x31]) →
      ∃ t, exec .decompress s = .next t ∧
        errorCompleted .decompress .invalidDictionary s t)

/-- An INTERNAL token that comes with PATH_MAX bits in PATH ends DECOMPRESS with PATH_OVERFLOW, whatever
legal tokens, LEAF tokens too, stand before and whatever bytes after; PATH_MAX + 1 INTERNAL tokens are
such a dictionary (R58, R89). -/
def Obligations.TooDeepDictionaryOverflowsPath : Prop :=
  ∀ (s : State) (rest : List Byte), s.inputLen ≤ s.cfg.ibufSize →
    s.dictionaryLen ≤ s.cfg.dbufSize →
    (∀ toks : List Instr, (∀ i ∈ toks, isMarkToken i) → walkFits s.cfg.pathMax toks [] = true →
      (walkTokens toks ([], [])).1.length = s.cfg.pathMax →
      s.dictionaryIs (toks.flatMap tokenBytes ++ 0x30 :: rest) →
      ∃ t, exec .decompress s = .next t ∧ errorCompleted .decompress .pathOverflow s t) ∧
    (s.dictionaryIs (List.replicate (s.cfg.pathMax + 1) 0x30 ++ rest) →
      ∃ t, exec .decompress s = .next t ∧ errorCompleted .decompress .pathOverflow s t)

/-! The tokens (spec/41_dictionary_parser.md). -/

/-- R58: TOKEN_INTERNAL appends 0 to PATH and advances DPOS by 1, and changes nothing else; with PATH_MAX
bits in PATH it raises PATH_OVERFLOW. -/
def Obligations.TokenInternalResult : Prop :=
  ∀ s : State,
    (s.eng.path.length < s.cfg.pathMax →
      exec .tokenInternal s = .next { s with eng := { s.eng with
        path := s.eng.path ++ [false], dpos := s.eng.dpos + 1 } }) ∧
    (s.eng.path.length = s.cfg.pathMax →
      ∃ t, exec .tokenInternal s = .next t ∧ errorCompleted .decompress .pathOverflow s t)

/-- R59: TOKEN_LEAF records the symbol under PATH, or under [1] at the root, replacing an earlier entry
and keeping every other; counts the entry, backtracks and advances DPOS by 2; nothing else changes. As
the last dictionary byte it raises INVALID_DICTIONARY. -/
def Obligations.TokenLeafResult : Prop :=
  ∀ (s : State) (sym : Byte),
    (s.eng.dpos + 1 < s.dictionaryLen →
      ∃ inv, exec (.tokenLeaf sym) s = .next { s with eng := { s.eng with
          inv := inv, entries := s.eng.entries + 1, path := backtrack s.eng.path,
          dpos := s.eng.dpos + 2 } } ∧
        ∀ key, invGet key inv =
          if key = (if s.eng.path = [] then [true] else s.eng.path) then some sym
          else invGet key s.eng.inv) ∧
    (s.eng.dpos + 1 = s.dictionaryLen →
      ∃ t, exec (.tokenLeaf sym) s = .next t ∧
        errorCompleted .decompress .invalidDictionary s t)

/-- R61: TOKEN_INVALID ends the command with INVALID_DICTIONARY at once, whatever the byte and whatever
has been parsed. -/
def Obligations.TokenInvalidResult : Prop :=
  ∀ (s : State) (mark : Byte),
    ∃ t, exec (.tokenInvalid mark) s = .next t ∧
      errorCompleted .decompress .invalidDictionary s t

/-- R60: BACKTRACK leaves the empty path empty, turns the last 0 into 1 and drops the 1s after it, and
leaves [1] of a path of 1s only. -/
def Obligations.BacktrackMovesToNextNode : Prop :=
  backtrack [] = [] ∧
  (∀ (p : Bits) (k : Nat),
    backtrack (p ++ [false] ++ List.replicate k true) = p ++ [true]) ∧
  (∀ k : Nat, backtrack (List.replicate (k + 1) true) = [true])

/-! COMPRESS (spec/40_tree_and_codebook.md, spec/42_bit_packer.md, spec/43_codec_commands.md). -/

/-- R47: FREQ[s] is the number of occurrences of s, and the counts add up to N, in the working state
COMPRESS leaves (log 18). -/
def Obligations.FreqBuildCounts : Prop :=
  ∀ (s t : State) (bytes : List Byte), s.cfg.ok → s.inputIs bytes → 1 ≤ bytes.length →
    bytes.length ≤ s.cfg.ibufSize → exec .compress s = .next t →
    (∀ x : Byte, t.eng.freq[x.toNat]'x.isLt = bytes.count x) ∧
    t.eng.freq.toList.sum = bytes.length

/-- R48: one Leaf per symbol that occurs, with its frequency, in ascending byte order. -/
def Obligations.LeavesAreAscending : Prop :=
  ∀ freq : Vector Nat 256,
    ∃ syms : List Byte, leafNodes freq = syms.map (fun x => Node.leaf x (freq[x.toNat]'x.isLt)) ∧
      syms.Pairwise (fun x y => x.toNat < y.toNat) ∧
      ∀ x : Byte, x ∈ syms ↔ 0 < freq[x.toNat]'x.isLt

/-- R49: SELECT_MIN removes and returns the earliest handle of least frequency, keeping the order of the
rest. -/
def Obligations.SelectMinTakesEarliestLeast : Prop :=
  ∀ (f : Nat → Nat) (work : List Nat), work ≠ [] →
    ∃ before h after, work = before ++ h :: after ∧
      selectMin f work = some (h, before ++ after) ∧
      (∀ k ∈ before, f h < f k) ∧ (∀ k ∈ after, f h ≤ f k)

/-- R50: while WORK has two or more handles, one merge makes an Internal node of the first and second
selected, first on the left, with their summed frequency, and appends its handle to WORK; with one
handle left nothing is merged. TREE_BUILD merges the leaves until one handle is left. -/
def Obligations.MergeJoinsTheTwoLeast : Prop :=
  (∀ (fuel : Nat) (nodes : List Node) (work : List Nat), 2 ≤ work.length →
    ∃ a work1 b work2, selectMin (nodeFreq nodes) work = some (a, work1) ∧
      selectMin (nodeFreq nodes) work1 = some (b, work2) ∧
      mergeLoop (fuel + 1) nodes work =
        mergeLoop fuel (nodes ++ [.internal (nodeFreq nodes a + nodeFreq nodes b) a b])
          (work2 ++ [nodes.length])) ∧
  (∀ (fuel : Nat) (nodes : List Node) (h : Nat), mergeLoop fuel nodes [h] = (nodes, [h])) ∧
  (∀ freq : Vector Nat 256,
    buildTree freq =
      mergeLoop (leafNodes freq).length (leafNodes freq) (List.range (leafNodes freq).length)) ∧
  (∀ freq : Vector Nat 256, leafNodes freq ≠ [] →
    ∃ root, (buildTree freq).2 = [root])

/-- R51: with n distinct symbols the tree has n Leaves and 2n − 1 nodes, at most 511; the root's
frequency is N; every other node is a child of exactly one Internal node, whose frequency is its
children's sum. NODE and WORK are what TREE_BUILD's merges build from FREQ (R48 to R50). The working state COMPRESS leaves is read (log 18). -/
def Obligations.TreeShape : Prop :=
  ∀ (s t : State) (bytes : List Byte), s.cfg.ok → s.inputIs bytes → 1 ≤ bytes.length →
    bytes.length ≤ s.cfg.ibufSize → exec .compress s = .next t →
    t.eng.node.length = 2 * distinct bytes - 1 ∧ t.eng.node.length ≤ 511 ∧
    (t.eng.node.filter Node.isLeaf).length = distinct bytes ∧
    t.eng.node = (buildTree t.eng.freq).1 ∧ t.eng.work = (buildTree t.eng.freq).2 ∧
    t.eng.work = [t.eng.root] ∧ t.eng.root < t.eng.node.length ∧
    nodeFreq t.eng.node t.eng.root = bytes.length ∧
    (∀ h, (hh : h < t.eng.node.length) → nodeLegal t.eng.node h t.eng.node[h]) ∧
    (∀ h, h < t.eng.node.length → h ≠ t.eng.root →
      (t.eng.node.flatMap Node.children).count h = 1)

/-- Every symbol of the input, and no other, has a code; no code is a prefix of another; every code has
1 to 255 bits, and with n ≥ 2 distinct symbols at most n − 1; the only symbol of an input of one
distinct value has the code [1]. With n ≥ 2 the code of a symbol is the path from ROOT to its Leaf, 0
for left and 1 for right, and every such path is a code (R43, R52, R53). The working state COMPRESS leaves is read (log 18). -/
def Obligations.CodebookIsPrefixFree : Prop :=
  ∀ (s t : State) (bytes : List Byte), s.cfg.ok → s.inputIs bytes → 1 ≤ bytes.length →
    bytes.length ≤ s.cfg.ibufSize → exec .compress s = .next t →
    (∀ x : Byte, (t.eng.code[x.toNat]'x.isLt ≠ none) ↔ x ∈ bytes) ∧
    (∀ (x : Byte) (c : Bits), t.eng.code[x.toNat]'x.isLt = some c →
      1 ≤ c.length ∧ c.length ≤ 255 ∧ (2 ≤ distinct bytes → c.length ≤ distinct bytes - 1) ∧
      (distinct bytes = 1 → c = [true])) ∧
    (2 ≤ distinct bytes → ∀ (x : Byte) (c : Bits),
      t.eng.code[x.toNat]'x.isLt = some c ↔
        nodeAt t.eng.node t.eng.root c = some (.leaf x (bytes.count x))) ∧
    (∀ (x y : Byte) (c d : Bits), t.eng.code[x.toNat]'x.isLt = some c →
      t.eng.code[y.toNat]'y.isLt = some d → c <+: d → x = y)

/-- R55: with two or more distinct symbols the codebook is complete (the Kraft sum is 1), and exactly one
code, of at least one bit, is made of zeros only. The working state COMPRESS leaves is read (log 18). -/
def Obligations.CodebookIsComplete : Prop :=
  ∀ (s t : State) (bytes : List Byte), s.cfg.ok → s.inputIs bytes → 2 ≤ distinct bytes →
    bytes.length ≤ s.cfg.ibufSize → exec .compress s = .next t →
    ((List.finRange 256).map fun x => match t.eng.code[x] with
      | some c => 2 ^ (255 - c.length)
      | none => 0).sum = 2 ^ 255 ∧
    ∃ (s0 : Byte) (d0 : Nat), 1 ≤ d0 ∧ t.eng.code[s0.toNat]'s0.isLt = some (zeros d0) ∧
      ∀ (y : Byte) (d : Nat), t.eng.code[y.toNat]'y.isLt = some (zeros d) → y = s0

/-- R54: the dictionary is a list of LEAF and INTERNAL tokens: one LEAF per distinct input symbol, one
INTERNAL less, 3n − 1 bytes, which fit in DBUF. The working state COMPRESS leaves is read (log 18). -/
def Obligations.DictionaryShape : Prop :=
  ∀ (s t : State) (bytes : List Byte), s.cfg.ok → s.inputIs bytes → 1 ≤ bytes.length →
    bytes.length ≤ s.cfg.ibufSize → exec .compress s = .next t →
    t.eng.dict.length = 3 * distinct bytes - 1 ∧ t.eng.dict.length ≤ 767 ∧
    t.eng.dict.length ≤ s.cfg.dbufSize ∧
    ∃ toks : List Instr, t.eng.dict = toks.flatMap tokenBytes ∧ (∀ i ∈ toks, isMarkToken i) ∧
      (toks.filterMap leafSym).Nodup ∧ (∀ x : Byte, x ∈ toks.filterMap leafSym ↔ x ∈ bytes) ∧
      (toks.filterMap leafSym).length = distinct bytes ∧
      toks.count .tokenInternal = distinct bytes - 1

/-- The result of COMPRESS on 1 to IBUF_SIZE written bytes (R44, R67, R78, R79): if the payload fits,
success with the dictionary in DBUF and the payload of R44 in OBUF; if not, OUT_OVERFLOW. CODE and DICT
are read from the working state COMPRESS leaves (log 18). -/
def Obligations.CompressResult : Prop :=
  ∀ (s : State) (bytes : List Byte), s.cfg.ok → s.inputIs bytes → 1 ≤ bytes.length →
    bytes.length ≤ s.cfg.ibufSize →
    ∃ t, exec .compress s = .next t ∧
      (bytesFor (codesOf t.eng.code bytes).length ≤ s.cfg.obufSize →
        t.phase = .idle ∧ t.status = { done := true, err := false, code := .none } ∧
        t.dictLen.toNat = 3 * distinct bytes - 1 ∧ t.eng.dict.length = 3 * distinct bytes - 1 ∧
        t.holds .dbuf t.eng.dict ∧
        t.outLen.toNat = bytesFor (codesOf t.eng.code bytes).length ∧ 1 ≤ t.outLen.toNat ∧
        t.holds .obuf (packBits (codesOf t.eng.code bytes))) ∧
      (s.cfg.obufSize < bytesFor (codesOf t.eng.code bytes).length →
        errorCompleted .compress .outOverflow s t)

/-- COMPRESS of 1 to IBUF_SIZE written bytes completes with success wherever OBUF can hold 255 bits for
every byte (R78, R79). The codes that give OUT_LEN and the payload are read from the working state
COMPRESS leaves, the model's choice (log 18). -/
def Obligations.CompressCompletes : Prop :=
  ∀ (s : State) (bytes : List Byte), s.cfg.ok → s.inputIs bytes → 1 ≤ bytes.length →
    bytes.length ≤ s.cfg.ibufSize → bytesFor (255 * bytes.length) ≤ s.cfg.obufSize →
    ∃ t, exec .compress s = .next t ∧ t.phase = .idle ∧
      t.status = { done := true, err := false, code := .none } ∧
      t.dictLen.toNat = 3 * distinct bytes - 1 ∧
      t.outLen.toNat = bytesFor (codesOf t.eng.code bytes).length ∧
      t.holds .obuf (packBits (codesOf t.eng.code bytes))

/-- What COMPRESS leaves unchanged (R78, R86): every register but STATUS, DICT_LEN and OUT_LEN, and every
byte of memory but the dictionary and the payload it stores; on an error no byte is stored, but for the
unspecified bytes of OUT_OVERFLOW. -/
def Obligations.CompressFrame : Prop :=
  ∀ s t : State, s.cfg.ok → exec .compress s = .next t →
    t.cfg = s.cfg ∧ t.cmd = s.cmd ∧ t.inLen = s.inLen ∧ t.resetIn = s.resetIn ∧
    t.prog = s.prog ∧ t.vars = s.vars ∧ t.schedule = s.schedule ∧
    (t.status.err = false → ∀ a,
      ¬ (Buf.dbuf.offset ≤ a ∧ a < Buf.dbuf.offset + t.dictLen.toNat) →
      ¬ (Buf.obuf.offset ≤ a ∧ a < Buf.obuf.offset + t.outLen.toNat) →
      Memory.read a t.mem = Memory.read a s.mem) ∧
    (t.status.err = true → errorMemory .compress t.status.code s t)

/-- R56: COMPRESS of the same input, under the same parameters, gives the same outcome, the same
dictionary and the same payload, whatever else the two states hold. -/
def Obligations.CompressIsDeterministic : Prop :=
  ∀ (s1 s2 t1 t2 : State) (bytes : List Byte), s1.cfg.ok → s1.cfg = s2.cfg →
    s1.inputIs bytes → s2.inputIs bytes →
    exec .compress s1 = .next t1 → exec .compress s2 = .next t2 →
    t1.status = t2.status ∧ t1.dictLen = t2.dictLen ∧ t1.outLen = t2.outLen ∧
    (∀ i, i < t1.dictLen.toNat → t1.byteAt .dbuf i = t2.byteAt .dbuf i) ∧
    (∀ i, i < t1.outLen.toNat → t1.byteAt .obuf i = t2.byteAt .obuf i)

/-- R70: UNPACK of the bytes PACK writes for a bit sequence is that sequence and its zero padding. Bits
and bytes are most significant first, in `bits8`, in `byte8` and in UNPACK of written payload bytes
(R7, R68). -/
def Obligations.UnpackInvertsPack : Prop :=
  (∀ bits : Bits, (packBits bits).flatMap bits8 = bits ++ zeros (padLen bits.length)) ∧
  (∀ v : Byte, byte8 (bits8 v) = v) ∧
  (∀ (v : Byte) (i : Nat), i < 8 → (bits8 v)[i]? = some (v.getLsbD (7 - i))) ∧
  (∀ (bits : Bits) (i : Nat), bits.length = 8 → i < 8 →
    bits[i]? = some ((byte8 bits).getLsbD (7 - i))) ∧
  (∀ (s : State) (payload : List Byte), payload.length ≤ s.cfg.ibufSize → s.holds .ibuf payload →
    (unpack payload.length s).1.length = 8 * payload.length ∧
    ∀ k i, k < payload.length → i < 8 →
      (unpack payload.length s).1[8 * k + i]? = payload[k]?.map (fun v => v.getLsbD (7 - i)))

/-! DECOMPRESS. -/

/-- The result of DECOMPRESS on a written dictionary of LEAF and INTERNAL tokens with at least one LEAF,
whose PATH stays within PATH_MAX, and a written payload (R57, R69, R80, R81): the symbols greedy
matching gives, or OUT_OVERFLOW when they do not fit; at most 8 symbols a payload byte. -/
def Obligations.DecompressResult : Prop :=
  ∀ (s : State) (toks : List Instr) (payload : List Byte), s.cfg.ok →
    (∀ i ∈ toks, isMarkToken i) → toks.filterMap leafSym ≠ [] →
    walkFits s.cfg.pathMax toks [] = true →
    s.dictionaryIs (toks.flatMap tokenBytes) → s.dictionaryLen ≤ s.cfg.dbufSize →
    s.inputIs payload → payload.length ≤ s.cfg.ibufSize →
    let out := greedy (walkTokens toks ([], [])).2 [] (payload.flatMap bits8)
    out.length ≤ 8 * payload.length ∧
    ∃ t, exec .decompress s = .next t ∧
      (out.length ≤ s.cfg.obufSize →
        t.phase = .idle ∧ t.status = { done := true, err := false, code := .none } ∧
        t.outLen.toNat = out.length ∧ t.holds .obuf out ∧ t.dictLen = s.dictLen) ∧
      (s.cfg.obufSize < out.length → errorCompleted .decompress .outOverflow s t)

/-- DECOMPRESS completes with success under the same premises wherever OBUF holds 8 symbols for every
payload byte (R81); an empty payload succeeds with OUT_LEN = 0 (R80). -/
def Obligations.DecompressCompletes : Prop :=
  ∀ (s : State) (toks : List Instr) (payload : List Byte), s.cfg.ok →
    (∀ i ∈ toks, isMarkToken i) → toks.filterMap leafSym ≠ [] →
    walkFits s.cfg.pathMax toks [] = true →
    s.dictionaryIs (toks.flatMap tokenBytes) → s.dictionaryLen ≤ s.cfg.dbufSize →
    s.inputIs payload → payload.length ≤ s.cfg.ibufSize → 8 * payload.length ≤ s.cfg.obufSize →
    ∃ t, exec .decompress s = .next t ∧ t.phase = .idle ∧
      t.status = { done := true, err := false, code := .none } ∧
      (payload = [] → t.outLen = 0) ∧
      t.holds .obuf (greedy (walkTokens toks ([], [])).2 [] (payload.flatMap bits8))

/-- What DECOMPRESS leaves unchanged (R80, R86): every register but STATUS and OUT_LEN, and every byte of
memory but the output it stores; on an error no byte is stored, but for the unspecified OBUF bytes of
OUT_OVERFLOW. -/
def Obligations.DecompressFrame : Prop :=
  ∀ s t : State, s.cfg.ok → exec .decompress s = .next t →
    t.cfg = s.cfg ∧ t.cmd = s.cmd ∧ t.inLen = s.inLen ∧ t.dictLen = s.dictLen ∧
    t.resetIn = s.resetIn ∧ t.prog = s.prog ∧ t.vars = s.vars ∧ t.schedule = s.schedule ∧
    (t.status.err = false → ∀ a,
      ¬ (Buf.obuf.offset ≤ a ∧ a < Buf.obuf.offset + t.outLen.toNat) →
      Memory.read a t.mem = Memory.read a s.mem) ∧
    (t.status.err = true → errorMemory .decompress t.status.code s t)

/-- No instruction writes IBUF or IN_LEN; only COMPRESS writes DBUF and DICT_LEN; only BAD_COMMAND
writes CMD (R12, R14, R15, R26). -/
def Obligations.EngineNeverWritesItsInputs : Prop :=
  ∀ (i : Instr) (s t : State), s.cfg.ok → exec i s = .next t →
    t.inLen = s.inLen ∧ (∀ k, k < s.cfg.ibufSize → t.byteAt .ibuf k = s.byteAt .ibuf k) ∧
    (i ≠ .compress →
      t.dictLen = s.dictLen ∧ ∀ k, k < s.cfg.dbufSize → t.byteAt .dbuf k = s.byteAt .dbuf k) ∧
    ((∀ opcode rsv, i ≠ .badCommand opcode rsv) → t.cmd = s.cmd)

/-- R72: once a match test has failed with at least K bits in BUF, K the length of the longest key, no
further symbol is emitted. -/
def Obligations.LongBufferNeverMatches : Prop :=
  ∀ (inv : List (Bits × Byte)) (buf bits : Bits), (∀ p ∈ inv, p.1.length ≤ buf.length) →
    greedy inv buf bits = []

/-- Greedy matching over a prefix-free INV decodes a concatenation of its keys, and then what follows
from an empty buffer (R73). -/
def Obligations.GreedyDecodesConcatenation : Prop :=
  ∀ (inv : List (Bits × Byte)) (codes : List (Bits × Byte)) (tail : Bits),
    (∀ p ∈ inv, p.1 ≠ []) →
    (∀ p ∈ inv, ∀ q ∈ inv, p.1 <+: q.1 → p.1 = q.1) →
    (∀ c ∈ codes, invGet c.1 inv = some c.2) →
    greedy inv [] (codes.flatMap Prod.fst ++ tail) =
      codes.map Prod.snd ++ greedy inv [] tail

/-! The laws of the two commands together. -/

/-- R63, R64: PARSE of the dictionary a successful COMPRESS wrote ends without error, and INV is the
inverse of CODE, which is read from the working state COMPRESS leaves (log 18). -/
def Obligations.DictionaryDescribesCodebook : Prop :=
  ∀ (s t : State) (bytes : List Byte), s.cfg.ok → s.inputIs bytes → 1 ≤ bytes.length →
    bytes.length ≤ s.cfg.ibufSize → exec .compress s = .next t → t.status.err = false →
    ∃ u, parseLoop t.dictionaryLen (parseInit t) = .ok u ∧ parseEnd u = .ok u ∧
      ∀ (key : Bits) (x : Byte),
        invGet key u.eng.inv = some x ↔ t.eng.code[x.toNat]'x.isLt = some key

/-- R84, the exact round-trip law: DECOMPRESS of what COMPRESS wrote gives the input back, followed, for
two or more distinct symbols, by ⌊pad/d0⌋ copies of the symbol whose code is d0 zeros; and
OUT_OVERFLOW exactly when that does not fit. The codes that give pad, s0 and d0 are read from the
working state COMPRESS leaves, the model's choice (log 18). -/
def Obligations.RoundTripLaw : Prop :=
  ∀ (s t u : State) (bytes payload dict : List Byte), s.cfg.ok → s.inputIs bytes →
    1 ≤ bytes.length → bytes.length ≤ s.cfg.ibufSize →
    exec .compress s = .next t → t.status.err = false →
    t.holds .obuf payload → t.outLen.toNat = payload.length →
    t.holds .dbuf dict → t.dictLen.toNat = dict.length →
    u.cfg = s.cfg → u.inputIs payload → u.dictionaryIs dict →
    payload.length ≤ s.cfg.ibufSize →
    ∃ (extra : List Byte) (v : State), exec .decompress u = .next v ∧
      (distinct bytes = 1 → extra = []) ∧
      (2 ≤ distinct bytes → ∃ (s0 : Byte) (d0 : Nat), 1 ≤ d0 ∧
        t.eng.code[s0.toNat]'s0.isLt = some (zeros d0) ∧
        extra = List.replicate (padLen (codesOf t.eng.code bytes).length / d0) s0) ∧
      ((bytes ++ extra).length ≤ s.cfg.obufSize →
        v.phase = .idle ∧ v.status = { done := true, err := false, code := .none } ∧
        v.outLen.toNat = (bytes ++ extra).length ∧ v.holds .obuf (bytes ++ extra)) ∧
      (s.cfg.obufSize < (bytes ++ extra).length →
        errorCompleted .decompress .outOverflow u v)

/-! Invariants. -/

/-- Every step keeps the invariant: memory in canonical form and inside the buffers, STATUS in a legal
combination (R13), a running command legal (R75), OUT_LEN within OBUF (R16), PATH and INV within
PATH_MAX (R22). -/
def Obligations.StepKeepsInvariant : Prop :=
  ∀ s t : State, s.Inv → step s = .next t → t.Inv

/-- Every step keeps the bounds and the shape of the tree and the codebook (R20, R21, R52). -/
def Obligations.StepKeepsTreeAndCodeBounds : Prop :=
  ∀ s t : State, s.treeLegal → step s = .next t → t.treeLegal

/-! Host programs (spec/30_encoding.md section 4). -/

/-- Statements of a host program (R45, R46): a write whose data is a bound name writes the value bound to
it; a name no read has bound stops the program, the model's choice (log 9); a read by POLL that finds
DONE = 0 leaves the statement to run again, and one that finds DONE = 1 ends it; RBUF and COPY give way
to their accesses, also when a name gives the count, at a turn that makes no access, the model's choice
(log 9). -/
def Obligations.HostStatementsRun : Prop :=
  (∀ s ts rest addr w y v, nextTurn s = (.host, ts) →
    s.prog = .access ⟨addr, w, .write (.var y)⟩ :: rest → lookupVar y s.vars = some v →
    step s = step { s with prog := .access ⟨addr, w, .write (.imm v)⟩ :: rest }) ∧
  (∀ s ts rest off w y, off < 0x800000 → permitted w off = true →
    hostAccess s ts rest w off (.write (.var y)) → lookupVar y s.vars = none →
    step s = .refused .unboundName) ∧
  (∀ s ts rest x, nextTurn s = (.host, ts) → s.prog = .poll x :: rest → s.resetIn = false →
    (s.status.done = false →
      step s = .next (bindVar x (statusWord s.phase s.status) { s with schedule := ts })) ∧
    (s.status.done = true →
      step s = .next (bindVar x (statusWord s.phase s.status) (afterStatement s ts rest)))) ∧
  (∀ s ts rest b base span size n name, nextTurn s = (.host, ts) →
    s.prog = .rbuf b n name :: rest → windowOf s.cfg b base span size →
    (∀ v : Word, operandValue n s = some v →
      step s = .next { s with
        schedule := ts
        prog := ((List.range v.toNat).map fun i =>
          .access ⟨s.cfg.base + (base + i), .w8, .read (name, i)⟩) ++ rest }) ∧
    (operandValue n s = none → step s = .refused .unboundName)) ∧
  (∀ s ts rest src dst base span size base' span' size' n y, nextTurn s = (.host, ts) →
    s.prog = .copy src dst n y :: rest → windowOf s.cfg src base span size →
    windowOf s.cfg dst base' span' size' →
    (∀ v : Word, operandValue n s = some v →
      step s = .next { s with
        schedule := ts
        prog := ((List.range v.toNat).flatMap fun i =>
          [.access ⟨s.cfg.base + (base + i), .w8, .read y⟩,
            .access ⟨s.cfg.base + (base' + i), .w8, .write (.var y)⟩]) ++ rest }) ∧
    (operandValue n s = none → step s = .refused .unboundName))
end

