-- ==== Sys2Proof/Laws/State.lean ====
section
/-!
SUPPORT. One lemma per field per update of State, each true by rfl, so that no proof unfolds a record
update.
-/

namespace Sys2Proof.Machine

@[simp] theorem State.tick_cfg (s : State) : (s.tick).cfg = s.cfg := rfl
@[simp] theorem State.tick_cmd (s : State) : (s.tick).cmd = s.cmd := rfl
@[simp] theorem State.tick_status (s : State) : (s.tick).status = s.status := rfl
@[simp] theorem State.tick_inLen (s : State) : (s.tick).inLen = s.inLen := rfl
@[simp] theorem State.tick_dictLen (s : State) : (s.tick).dictLen = s.dictLen := rfl
@[simp] theorem State.tick_outLen (s : State) : (s.tick).outLen = s.outLen := rfl
@[simp] theorem State.tick_phase (s : State) : (s.tick).phase = s.phase := rfl
@[simp] theorem State.tick_stage (s : State) : (s.tick).stage = s.stage := rfl
@[simp] theorem State.tick_mem (s : State) : (s.tick).mem = s.mem := rfl
@[simp] theorem State.tick_eng (s : State) : (s.tick).eng = s.eng := rfl
@[simp] theorem State.tick_resetIn (s : State) : (s.tick).resetIn = s.resetIn := rfl
@[simp] theorem State.tick_prog (s : State) : (s.tick).prog = s.prog := rfl
@[simp] theorem State.tick_vars (s : State) : (s.tick).vars = s.vars := rfl
@[simp] theorem State.tick_schedule (s : State) : (s.tick).schedule = s.schedule := rfl
@[simp] theorem State.tick_draws (s : State) : (s.tick).draws = s.draws + 1 := rfl

@[simp] theorem State.withEng_cfg (s : State) (e : Engine) : (s.withEng e).cfg = s.cfg := rfl
@[simp] theorem State.withEng_cmd (s : State) (e : Engine) : (s.withEng e).cmd = s.cmd := rfl
@[simp] theorem State.withEng_status (s : State) (e : Engine) : (s.withEng e).status = s.status := rfl
@[simp] theorem State.withEng_inLen (s : State) (e : Engine) : (s.withEng e).inLen = s.inLen := rfl
@[simp] theorem State.withEng_dictLen (s : State) (e : Engine) : (s.withEng e).dictLen = s.dictLen := rfl
@[simp] theorem State.withEng_outLen (s : State) (e : Engine) : (s.withEng e).outLen = s.outLen := rfl
@[simp] theorem State.withEng_phase (s : State) (e : Engine) : (s.withEng e).phase = s.phase := rfl
@[simp] theorem State.withEng_stage (s : State) (e : Engine) : (s.withEng e).stage = s.stage := rfl
@[simp] theorem State.withEng_mem (s : State) (e : Engine) : (s.withEng e).mem = s.mem := rfl
@[simp] theorem State.withEng_eng (s : State) (e : Engine) : (s.withEng e).eng = e := rfl
@[simp] theorem State.withEng_resetIn (s : State) (e : Engine) : (s.withEng e).resetIn = s.resetIn := rfl
@[simp] theorem State.withEng_prog (s : State) (e : Engine) : (s.withEng e).prog = s.prog := rfl
@[simp] theorem State.withEng_vars (s : State) (e : Engine) : (s.withEng e).vars = s.vars := rfl
@[simp] theorem State.withEng_schedule (s : State) (e : Engine) : (s.withEng e).schedule = s.schedule := rfl
@[simp] theorem State.withEng_draws (s : State) (e : Engine) : (s.withEng e).draws = s.draws := rfl

@[simp] theorem State.withMem_cfg (s : State) (m : Memory) : (s.withMem m).cfg = s.cfg := rfl
@[simp] theorem State.withMem_cmd (s : State) (m : Memory) : (s.withMem m).cmd = s.cmd := rfl
@[simp] theorem State.withMem_status (s : State) (m : Memory) : (s.withMem m).status = s.status := rfl
@[simp] theorem State.withMem_inLen (s : State) (m : Memory) : (s.withMem m).inLen = s.inLen := rfl
@[simp] theorem State.withMem_dictLen (s : State) (m : Memory) : (s.withMem m).dictLen = s.dictLen := rfl
@[simp] theorem State.withMem_outLen (s : State) (m : Memory) : (s.withMem m).outLen = s.outLen := rfl
@[simp] theorem State.withMem_phase (s : State) (m : Memory) : (s.withMem m).phase = s.phase := rfl
@[simp] theorem State.withMem_stage (s : State) (m : Memory) : (s.withMem m).stage = s.stage := rfl
@[simp] theorem State.withMem_mem (s : State) (m : Memory) : (s.withMem m).mem = m := rfl
@[simp] theorem State.withMem_eng (s : State) (m : Memory) : (s.withMem m).eng = s.eng := rfl
@[simp] theorem State.withMem_resetIn (s : State) (m : Memory) : (s.withMem m).resetIn = s.resetIn := rfl
@[simp] theorem State.withMem_prog (s : State) (m : Memory) : (s.withMem m).prog = s.prog := rfl
@[simp] theorem State.withMem_vars (s : State) (m : Memory) : (s.withMem m).vars = s.vars := rfl
@[simp] theorem State.withMem_schedule (s : State) (m : Memory) : (s.withMem m).schedule = s.schedule := rfl
@[simp] theorem State.withMem_draws (s : State) (m : Memory) : (s.withMem m).draws = s.draws := rfl

@[simp] theorem bindVar_cfg (s : State) (x : Var) (w : Word) : (bindVar x w s).cfg = s.cfg := rfl
@[simp] theorem bindVar_cmd (s : State) (x : Var) (w : Word) : (bindVar x w s).cmd = s.cmd := rfl
@[simp] theorem bindVar_status (s : State) (x : Var) (w : Word) : (bindVar x w s).status = s.status := rfl
@[simp] theorem bindVar_inLen (s : State) (x : Var) (w : Word) : (bindVar x w s).inLen = s.inLen := rfl
@[simp] theorem bindVar_dictLen (s : State) (x : Var) (w : Word) : (bindVar x w s).dictLen = s.dictLen := rfl
@[simp] theorem bindVar_outLen (s : State) (x : Var) (w : Word) : (bindVar x w s).outLen = s.outLen := rfl
@[simp] theorem bindVar_phase (s : State) (x : Var) (w : Word) : (bindVar x w s).phase = s.phase := rfl
@[simp] theorem bindVar_stage (s : State) (x : Var) (w : Word) : (bindVar x w s).stage = s.stage := rfl
@[simp] theorem bindVar_mem (s : State) (x : Var) (w : Word) : (bindVar x w s).mem = s.mem := rfl
@[simp] theorem bindVar_eng (s : State) (x : Var) (w : Word) : (bindVar x w s).eng = s.eng := rfl
@[simp] theorem bindVar_resetIn (s : State) (x : Var) (w : Word) : (bindVar x w s).resetIn = s.resetIn := rfl
@[simp] theorem bindVar_prog (s : State) (x : Var) (w : Word) : (bindVar x w s).prog = s.prog := rfl
@[simp] theorem bindVar_vars (s : State) (x : Var) (w : Word) : (bindVar x w s).vars = (x, w) :: s.vars := rfl
@[simp] theorem bindVar_schedule (s : State) (x : Var) (w : Word) : (bindVar x w s).schedule = s.schedule := rfl
@[simp] theorem bindVar_draws (s : State) (x : Var) (w : Word) : (bindVar x w s).draws = s.draws := rfl

@[simp] theorem startCommand_cfg (s : State) (w : Word) : (startCommand w s).cfg = s.cfg := rfl
@[simp] theorem startCommand_cmd (s : State) (w : Word) : (startCommand w s).cmd = w := rfl
@[simp] theorem startCommand_status (s : State) (w : Word) : (startCommand w s).status = Status.started := rfl
@[simp] theorem startCommand_inLen (s : State) (w : Word) : (startCommand w s).inLen = s.inLen := rfl
@[simp] theorem startCommand_dictLen (s : State) (w : Word) : (startCommand w s).dictLen = s.dictLen := rfl
@[simp] theorem startCommand_outLen (s : State) (w : Word) : (startCommand w s).outLen = s.outLen := rfl
@[simp] theorem startCommand_phase (s : State) (w : Word) : (startCommand w s).phase = .busy := rfl
@[simp] theorem startCommand_stage (s : State) (w : Word) : (startCommand w s).stage = .command := rfl
@[simp] theorem startCommand_mem (s : State) (w : Word) : (startCommand w s).mem = s.mem := rfl
@[simp] theorem startCommand_eng (s : State) (w : Word) : (startCommand w s).eng = s.eng := rfl
@[simp] theorem startCommand_resetIn (s : State) (w : Word) : (startCommand w s).resetIn = s.resetIn := rfl
@[simp] theorem startCommand_prog (s : State) (w : Word) : (startCommand w s).prog = s.prog := rfl
@[simp] theorem startCommand_vars (s : State) (w : Word) : (startCommand w s).vars = s.vars := rfl
@[simp] theorem startCommand_schedule (s : State) (w : Word) : (startCommand w s).schedule = s.schedule := rfl
@[simp] theorem startCommand_draws (s : State) (w : Word) : (startCommand w s).draws = s.draws := rfl

@[simp] theorem completeCommand_cfg (s : State) : (completeCommand s).cfg = s.cfg := rfl
@[simp] theorem completeCommand_cmd (s : State) : (completeCommand s).cmd = s.cmd := rfl
@[simp] theorem completeCommand_status (s : State) : (completeCommand s).status = Status.succeeded := rfl
@[simp] theorem completeCommand_inLen (s : State) : (completeCommand s).inLen = s.inLen := rfl
@[simp] theorem completeCommand_dictLen (s : State) : (completeCommand s).dictLen = s.dictLen := rfl
@[simp] theorem completeCommand_outLen (s : State) : (completeCommand s).outLen = s.outLen := rfl
@[simp] theorem completeCommand_phase (s : State) : (completeCommand s).phase = .idle := rfl
@[simp] theorem completeCommand_stage (s : State) : (completeCommand s).stage = .command := rfl
@[simp] theorem completeCommand_mem (s : State) : (completeCommand s).mem = s.mem := rfl
@[simp] theorem completeCommand_eng (s : State) : (completeCommand s).eng = s.eng := rfl
@[simp] theorem completeCommand_resetIn (s : State) : (completeCommand s).resetIn = s.resetIn := rfl
@[simp] theorem completeCommand_prog (s : State) : (completeCommand s).prog = s.prog := rfl
@[simp] theorem completeCommand_vars (s : State) : (completeCommand s).vars = s.vars := rfl
@[simp] theorem completeCommand_schedule (s : State) : (completeCommand s).schedule = s.schedule := rfl
@[simp] theorem completeCommand_draws (s : State) : (completeCommand s).draws = s.draws := rfl

@[simp] theorem afterStatement_cfg (s : State) (ts : List Turn) (rest : List Stmt) : (afterStatement s ts rest).cfg = s.cfg := rfl
@[simp] theorem afterStatement_cmd (s : State) (ts : List Turn) (rest : List Stmt) : (afterStatement s ts rest).cmd = s.cmd := rfl
@[simp] theorem afterStatement_status (s : State) (ts : List Turn) (rest : List Stmt) : (afterStatement s ts rest).status = s.status := rfl
@[simp] theorem afterStatement_inLen (s : State) (ts : List Turn) (rest : List Stmt) : (afterStatement s ts rest).inLen = s.inLen := rfl
@[simp] theorem afterStatement_dictLen (s : State) (ts : List Turn) (rest : List Stmt) : (afterStatement s ts rest).dictLen = s.dictLen := rfl
@[simp] theorem afterStatement_outLen (s : State) (ts : List Turn) (rest : List Stmt) : (afterStatement s ts rest).outLen = s.outLen := rfl
@[simp] theorem afterStatement_phase (s : State) (ts : List Turn) (rest : List Stmt) : (afterStatement s ts rest).phase = s.phase := rfl
@[simp] theorem afterStatement_stage (s : State) (ts : List Turn) (rest : List Stmt) : (afterStatement s ts rest).stage = s.stage := rfl
@[simp] theorem afterStatement_mem (s : State) (ts : List Turn) (rest : List Stmt) : (afterStatement s ts rest).mem = s.mem := rfl
@[simp] theorem afterStatement_eng (s : State) (ts : List Turn) (rest : List Stmt) : (afterStatement s ts rest).eng = s.eng := rfl
@[simp] theorem afterStatement_resetIn (s : State) (ts : List Turn) (rest : List Stmt) : (afterStatement s ts rest).resetIn = s.resetIn := rfl
@[simp] theorem afterStatement_prog (s : State) (ts : List Turn) (rest : List Stmt) : (afterStatement s ts rest).prog = rest := rfl
@[simp] theorem afterStatement_vars (s : State) (ts : List Turn) (rest : List Stmt) : (afterStatement s ts rest).vars = s.vars := rfl
@[simp] theorem afterStatement_schedule (s : State) (ts : List Turn) (rest : List Stmt) : (afterStatement s ts rest).schedule = ts := rfl
@[simp] theorem afterStatement_draws (s : State) (ts : List Turn) (rest : List Stmt) : (afterStatement s ts rest).draws = s.draws := rfl

@[simp] theorem parseInit_cfg (s : State) : (parseInit s).cfg = s.cfg := rfl
@[simp] theorem parseInit_cmd (s : State) : (parseInit s).cmd = s.cmd := rfl
@[simp] theorem parseInit_status (s : State) : (parseInit s).status = s.status := rfl
@[simp] theorem parseInit_inLen (s : State) : (parseInit s).inLen = s.inLen := rfl
@[simp] theorem parseInit_dictLen (s : State) : (parseInit s).dictLen = s.dictLen := rfl
@[simp] theorem parseInit_outLen (s : State) : (parseInit s).outLen = s.outLen := rfl
@[simp] theorem parseInit_phase (s : State) : (parseInit s).phase = s.phase := rfl
@[simp] theorem parseInit_stage (s : State) : (parseInit s).stage = .parse := rfl
@[simp] theorem parseInit_mem (s : State) : (parseInit s).mem = s.mem := rfl
@[simp] theorem parseInit_eng (s : State) : (parseInit s).eng = { s.eng with inv := [], path := [], entries := 0, dpos := 0 } := rfl
@[simp] theorem parseInit_resetIn (s : State) : (parseInit s).resetIn = s.resetIn := rfl
@[simp] theorem parseInit_prog (s : State) : (parseInit s).prog = s.prog := rfl
@[simp] theorem parseInit_vars (s : State) : (parseInit s).vars = s.vars := rfl
@[simp] theorem parseInit_schedule (s : State) : (parseInit s).schedule = s.schedule := rfl
@[simp] theorem parseInit_draws (s : State) : (parseInit s).draws = s.draws := rfl

@[simp] theorem compressLengths_cfg (s : State) : (compressLengths s).cfg = s.cfg := rfl
@[simp] theorem compressLengths_cmd (s : State) : (compressLengths s).cmd = s.cmd := rfl
@[simp] theorem compressLengths_status (s : State) : (compressLengths s).status = s.status := rfl
@[simp] theorem compressLengths_inLen (s : State) : (compressLengths s).inLen = s.inLen := rfl
@[simp] theorem compressLengths_dictLen (s : State) : (compressLengths s).dictLen = BitVec.ofNat 32 s.eng.dict.length := rfl
@[simp] theorem compressLengths_outLen (s : State) : (compressLengths s).outLen = BitVec.ofNat 32 s.eng.opos := rfl
@[simp] theorem compressLengths_phase (s : State) : (compressLengths s).phase = s.phase := rfl
@[simp] theorem compressLengths_stage (s : State) : (compressLengths s).stage = s.stage := rfl
@[simp] theorem compressLengths_mem (s : State) : (compressLengths s).mem = s.mem := rfl
@[simp] theorem compressLengths_eng (s : State) : (compressLengths s).eng = s.eng := rfl
@[simp] theorem compressLengths_resetIn (s : State) : (compressLengths s).resetIn = s.resetIn := rfl
@[simp] theorem compressLengths_prog (s : State) : (compressLengths s).prog = s.prog := rfl
@[simp] theorem compressLengths_vars (s : State) : (compressLengths s).vars = s.vars := rfl
@[simp] theorem compressLengths_schedule (s : State) : (compressLengths s).schedule = s.schedule := rfl
@[simp] theorem compressLengths_draws (s : State) : (compressLengths s).draws = s.draws := rfl

end Sys2Proof.Machine
end

