-- ==== Sys2Proof/Laws/Memory.lean ====
section
/-!
SUPPORT. The laws of the memory list: read after write, canonical form, forgetting a window; and the
same for the bytes of the buffers.
-/

namespace Sys2Proof.Machine

theorem Memory.read_write_same (a : Nat) (v : Byte) (m : Memory) :
    Memory.read a (Memory.write a v m) = some v := by
  induction m with
  | nil => simp [Memory.write, Memory.read]
  | cons c m ih =>
    unfold Memory.write
    split
    · simp [Memory.read]
    · split
      · simp [Memory.read]
      · simp [Memory.read, *]

theorem Memory.read_write_other {a b : Nat} (h : b ≠ a) (v : Byte) (m : Memory) :
    Memory.read b (Memory.write a v m) = Memory.read b m := by
  induction m with
  | nil => simp [Memory.write, Memory.read, Ne.symm h]
  | cons c m ih =>
    unfold Memory.write
    split
    · simp [Memory.read, Ne.symm h]
    · split
      · next hc => simp [Memory.read, Ne.symm h, hc]
      · simp [Memory.read, ih]

/-- What a write leaves at every address. -/
theorem Memory.read_write (a b : Nat) (v : Byte) (m : Memory) :
    Memory.read b (Memory.write a v m) = if b = a then some v else Memory.read b m := by
  split
  · next h => rw [h, Memory.read_write_same]
  · next h => exact Memory.read_write_other h v m

theorem Memory.mem_write {a : Nat} {v : Byte} {m : Memory} {c : Host.Cell}
    (h : c ∈ Memory.write a v m) : c = (a, v) ∨ c ∈ m := by
  induction m with
  | nil => simpa [Memory.write] using h
  | cons d m ih =>
    unfold Memory.write at h
    split at h
    · simpa using h
    · split at h
      · simp only [List.mem_cons] at h ⊢
        tauto
      · simp only [List.mem_cons] at h ⊢
        rcases h with h | h
        · exact .inr (.inl h)
        · exact (ih h).imp id .inr

theorem Memory.wf_write {m : Memory} (hm : Memory.wf m) (a : Nat) (v : Byte) :
    Memory.wf (Memory.write a v m) := by
  induction m with
  | nil => simp [Memory.write]
  | cons c m ih =>
    have hc := List.pairwise_cons.mp hm
    unfold Memory.write
    split
    · next hlt =>
      refine List.pairwise_cons.mpr ⟨fun d hd => ?_, hm⟩
      rcases List.mem_cons.mp hd with rfl | hd
      · exact hlt
      · exact lt_trans hlt (hc.1 d hd)
    · split
      · next heq =>
        exact List.pairwise_cons.mpr ⟨fun d hd => by simpa [← heq] using hc.1 d hd, hc.2⟩
      · next hlt hne =>
        refine List.pairwise_cons.mpr ⟨fun d hd => ?_, ih hc.2⟩
        rcases Memory.mem_write hd with rfl | hd
        · simp only
          omega
        · exact hc.1 d hd

theorem Memory.wf_forget {m : Memory} (hm : Memory.wf m) (lo n : Nat) :
    Memory.wf (Memory.forget lo n m) := List.Pairwise.filter _ hm

theorem Memory.mem_forget {lo n : Nat} {m : Memory} {c : Host.Cell} :
    c ∈ Memory.forget lo n m ↔ c ∈ m ∧ (c.1 < lo ∨ lo + n ≤ c.1) := by
  simp [Memory.forget]

/-- What forgetting a window leaves at every address. -/
theorem Memory.read_forget (lo n a : Nat) (m : Memory) :
    Memory.read a (Memory.forget lo n m) =
      if lo ≤ a ∧ a < lo + n then none else Memory.read a m := by
  induction m with
  | nil => simp [Memory.forget, Memory.read]
  | cons c m ih =>
    unfold Memory.forget at ih ⊢
    rw [List.filter_cons]
    by_cases hc : c.1 < lo ∨ lo + n ≤ c.1
    · simp only [hc, decide_true, if_true, Memory.read, ih]
      by_cases ha : c.1 = a
      · have : ¬ (lo ≤ a ∧ a < lo + n) := by omega
        simp [ha, this]
      · simp [ha]
    · simp only [hc, decide_false, Bool.false_eq_true, if_false, ih, Memory.read]
      by_cases ha : c.1 = a
      · have : lo ≤ a ∧ a < lo + n := by omega
        simp [this]
      · simp [ha]

/-! Bytes of the buffers. -/

/-- A buffer byte's address determines the buffer and the index. -/
theorem Buf.offset_inj {p : Params} (hp : p.ok) {b c : Buf} {i j : Nat} (hi : i < b.size p)
    (hj : j < c.size p) (h : b.offset + i = c.offset + j) : b = c ∧ i = j := by
  obtain ⟨-, hI, hD, hO, -⟩ := hp
  have : b = c := by
    cases b <;> cases c <;> simp only [Buf.offset, Buf.size] at hi hj h <;>
      first
      | rfl
      | (exfalso; omega)
  exact ⟨this, by subst this; omega⟩

/-- The address map of R27 in the model's terms. -/
theorem windowOf_eq {p : Params} {b : Buf} {base span size : Nat} (h : windowOf p b base span size) :
    base = b.offset ∧ span = b.span ∧ size = b.size p := by
  cases b <;> exact h

theorem Buf.size_le_span {p : Params} (hp : p.ok) (b : Buf) : b.size p ≤ b.span := by
  obtain ⟨-, hI, hD, hO, -⟩ := hp
  cases b <;> simp only [Buf.size, Buf.span] <;> omega

theorem inBuffer_of_lt {p : Params} {b : Buf} {i : Nat} (hi : i < b.size p) :
    inBuffer p (b.offset + i) := by
  cases b <;> simp only [inBuffer, Buf.offset, Buf.size] at * <;> omega

/-- What `memWrite` can do. -/
theorem memWrite_eq (b : Buf) (i : Nat) (v : Byte) (s : State) :
    memWrite b i v s =
      s.withMem (if i < b.size s.cfg then Memory.write (b.offset + i) v s.mem else s.mem) := by
  unfold memWrite
  split <;> rfl

/-- Every byte of memory after `memWrite`. -/
theorem read_memWrite (b : Buf) (i : Nat) (v : Byte) (s : State) (a : Nat) :
    Memory.read a (memWrite b i v s).mem =
      if i < b.size s.cfg ∧ a = b.offset + i then some v else Memory.read a s.mem := by
  rw [memWrite_eq]
  by_cases h : i < b.size s.cfg <;> simp [h, Memory.read_write]

theorem byteAt_memWrite_same {b : Buf} {i : Nat} {s : State} (h : i < b.size s.cfg) (v : Byte) :
    (memWrite b i v s).byteAt b i = some v := by
  simp [State.byteAt, read_memWrite, h]

theorem byteAt_memWrite_other {b c : Buf} {i j : Nat} {s : State} (hp : s.cfg.ok)
    (hj : j < c.size s.cfg) (h : ¬ (b = c ∧ i = j)) (v : Byte) :
    (memWrite b i v s).byteAt c j = s.byteAt c j := by
  unfold State.byteAt
  rw [read_memWrite, if_neg]
  rintro ⟨hi, ha⟩
  exact h (Buf.offset_inj hp hi hj ha.symm)

/-- `memWrite` keeps the memory legal. -/
theorem memLegal_memWrite {s : State} (h : s.memLegal) (b : Buf) (i : Nat) (v : Byte) :
    (memWrite b i v s).memLegal := by
  rw [memWrite_eq]
  by_cases hi : i < b.size s.cfg
  · simp only [hi, if_true]
    refine ⟨Memory.wf_write h.1 _ _, fun c hc => ?_⟩
    rcases Memory.mem_write hc with rfl | hc
    · exact inBuffer_of_lt hi
    · exact h.2 c hc
  · simp only [hi, if_false]
    exact h

/-- `forgetBuf` keeps the memory legal. -/
theorem memLegal_forgetBuf {s : State} (h : s.memLegal) (b : Buf) : (forgetBuf b s).memLegal :=
  ⟨Memory.wf_forget h.1 _ _, fun c hc => h.2 c (Memory.mem_forget.mp hc).1⟩

/-- Every byte of memory after `forgetBuf`. -/
theorem read_forgetBuf (b : Buf) (s : State) (a : Nat) :
    Memory.read a (forgetBuf b s).mem =
      if b.offset ≤ a ∧ a < b.offset + b.size s.cfg then none else Memory.read a s.mem :=
  Memory.read_forget ..

theorem read_forget_obuf (s : State) (a : Nat) :
    Memory.read a (forgetBuf .obuf s).mem =
      if Buf.obuf.offset ≤ a ∧ a < Buf.obuf.offset + s.cfg.obufSize then none
      else Memory.read a s.mem :=
  read_forgetBuf .obuf s a

theorem read_forget_dbuf (s : State) (a : Nat) :
    Memory.read a (forgetBuf .dbuf s).mem =
      if Buf.dbuf.offset ≤ a ∧ a < Buf.dbuf.offset + s.cfg.dbufSize then none
      else Memory.read a s.mem :=
  read_forgetBuf .dbuf s a

@[simp] theorem forgetBuf_cfg (b : Buf) (s : State) : (forgetBuf b s).cfg = s.cfg := rfl

/-! Lists of bytes. -/

/-- What `memWriteN` can do: only the memory changes. -/
theorem memWriteN_eq (b : Buf) (i : Nat) (vs : List Byte) (s : State) :
    memWriteN b i vs s = s.withMem (memWriteN b i vs s).mem := by
  induction vs generalizing i s with
  | nil => rfl
  | cons v vs ih =>
    rw [memWriteN, ih, memWrite_eq]
    rfl

theorem memLegal_memWriteN {s : State} (h : s.memLegal) (b : Buf) (i : Nat) (vs : List Byte) :
    (memWriteN b i vs s).memLegal := by
  induction vs generalizing i s with
  | nil => exact h
  | cons v vs ih => exact ih (memLegal_memWrite h b i v) (i + 1)

/-- Every byte of memory after a list of bytes that fits is stored. -/
theorem read_memWriteN {b : Buf} {i : Nat} {vs : List Byte} {s : State}
    (hfit : i + vs.length ≤ b.size s.cfg) (a : Nat) :
    Memory.read a (memWriteN b i vs s).mem =
      if b.offset + i ≤ a ∧ a < b.offset + i + vs.length then vs[a - (b.offset + i)]?
      else Memory.read a s.mem := by
  induction vs generalizing i s with
  | nil =>
    rw [if_neg (by simp)]
    rfl
  | cons v vs ih =>
    simp only [List.length_cons] at hfit
    have hcfg : (memWrite b i v s).cfg = s.cfg := by rw [memWrite_eq]; rfl
    rw [memWriteN, ih (by rw [hcfg]; omega), read_memWrite]
    simp only [List.length_cons]
    by_cases h0 : a = b.offset + i
    · subst h0
      have h1 : i < b.size s.cfg := by omega
      simp [h1]
    · by_cases h1 : b.offset + i ≤ a ∧ a < b.offset + i + (vs.length + 1)
      · have h2 : b.offset + (i + 1) ≤ a ∧ a < b.offset + (i + 1) + vs.length := by omega
        have h3 : a - (b.offset + i) = (a - (b.offset + (i + 1))) + 1 := by omega
        simp [h1, h2, h3]
      · have h2 : ¬ (b.offset + (i + 1) ≤ a ∧ a < b.offset + (i + 1) + vs.length) := by omega
        simp [h1, h2, h0]

/-- A list of bytes that fits, stored from the start of a buffer, is held there. -/
theorem holds_memWriteN {b : Buf} {vs : List Byte} {s : State} (hfit : vs.length ≤ b.size s.cfg) :
    (memWriteN b 0 vs s).holds b vs := by
  intro k hk
  unfold State.byteAt
  rw [read_memWriteN (by omega), if_pos (by omega)]
  simp

end Sys2Proof.Machine
end

