-- ==== Sys2Proof/Laws/Reads.lean ====
section
/-!
SUPPORT. What reading a buffer can do: a stored byte is returned and nothing changes; otherwise only
the draw counter moves.
-/

namespace Sys2Proof.Machine

/-- A state that differs from another in its draw counter only. -/
def sameButDraws (s t : State) : Prop := ∃ n, t = { s with draws := n }

theorem sameButDraws.refl (s : State) : sameButDraws s s := ⟨s.draws, rfl⟩

theorem sameButDraws.trans {s t u : State} (h : sameButDraws s t) (k : sameButDraws t u) :
    sameButDraws s u := by
  obtain ⟨n, rfl⟩ := h
  obtain ⟨m, rfl⟩ := k
  exact ⟨m, rfl⟩

theorem sameButDraws_tick (s : State) : sameButDraws s s.tick := ⟨s.draws + 1, rfl⟩

/-- A read of a stored byte. -/
theorem memRead_stored {b : Buf} {i : Nat} {s : State} {v : Byte} (hi : i < b.size s.cfg)
    (hv : s.byteAt b i = some v) : memRead b i s = (v, s) := by
  simp [memRead, hi, hv]

/-- A read at or past the buffer's size (R28, R30). -/
theorem memRead_past {b : Buf} {i : Nat} {s : State} (hi : b.size s.cfg ≤ i) :
    memRead b i s = (0, s) := by
  simp [memRead, Nat.not_lt.mpr hi]

/-- A read of a byte nothing has written (R31). -/
theorem memRead_unwritten {b : Buf} {i : Nat} {s : State} (hi : i < b.size s.cfg)
    (hv : s.byteAt b i = none) : memRead b i s = (Config.freeByte s.draws, s.tick) := by
  simp [memRead, hi, hv, drawByte]

/-- Reading changes the draw counter only. -/
theorem memRead_frame (b : Buf) (i : Nat) (s : State) : sameButDraws s (memRead b i s).2 := by
  unfold memRead
  split
  · split
    · exact .refl s
    · exact sameButDraws_tick s
  · exact .refl s

theorem memReadN_frame (b : Buf) (i n : Nat) (s : State) :
    sameButDraws s (memReadN b i n s).2 := by
  induction n generalizing i s with
  | zero => exact .refl s
  | succ n ih => exact (memRead_frame b i s).trans (ih (i + 1) _)

theorem memReadN_length (b : Buf) (i n : Nat) (s : State) :
    (memReadN b i n s).1.length = n := by
  induction n generalizing i s with
  | zero => rfl
  | succ n ih => simp [memReadN, ih]

/-- A read of stored bytes returns them and changes nothing. -/
theorem memReadN_stored {b : Buf} {i : Nat} {s : State} {bytes : List Byte}
    (hfit : i + bytes.length ≤ b.size s.cfg)
    (hv : ∀ k, k < bytes.length → s.byteAt b (i + k) = bytes[k]?) :
    memReadN b i bytes.length s = (bytes, s) := by
  induction bytes generalizing i with
  | nil => rfl
  | cons v vs ih =>
    simp only [List.length_cons] at hfit hv
    have h0 : memRead b i s = (v, s) :=
      memRead_stored (by omega) (by simpa using hv 0 (by omega))
    have h1 : memReadN b (i + 1) vs.length s = (vs, s) := by
      refine ih (by omega) fun k hk => ?_
      have := hv (k + 1) (by omega)
      simpa [Nat.add_assoc, Nat.add_comm 1 k] using this
    simp [memReadN, h0, h1]

/-- The input of a command whose bytes have all been written (R98). -/
theorem memReadN_input {s : State} {bytes : List Byte} (h : s.inputIs bytes)
    (hfit : bytes.length ≤ s.cfg.ibufSize) :
    memReadN .ibuf 0 s.inputLen s = (bytes, s) := by
  rw [h.1]
  exact memReadN_stored (by simpa [Buf.size] using hfit) (fun k hk => by simpa using h.2 k hk)

end Sys2Proof.Machine
end

