-- ==== Sys2Proof/Laws/Emit.lean ====
section
/-!
SUPPORT. What emitting output can do (EMIT of spec/42_bit_packer.md R66): the relation `Emitted` says
once what a part of PACK or DECODE_MATCH changes, and the parts compose.
-/

namespace Sys2Proof.Machine

/-- The parts of the internal working state that no output phase writes. -/
def sameTables (s t : Engine) : Prop :=
  t.freq = s.freq ∧ t.node = s.node ∧ t.work = s.work ∧ t.root = s.root ∧ t.code = s.code ∧
  t.dict = s.dict ∧ t.inv = s.inv ∧ t.path = s.path ∧ t.entries = s.entries ∧ t.dpos = s.dpos

theorem sameTables.refl (s : Engine) : sameTables s s := by simp [sameTables]

theorem sameTables.trans {s t u : Engine} (h : sameTables s t) (k : sameTables t u) :
    sameTables s u := by
  simp only [sameTables] at *
  simp [h, k]

/-- `t` is `s` after the bytes `out` have been emitted: they stand in OBUF from OPOS on, OPOS has
advanced over them, no other byte of memory has changed, and beside that only bit buffers and the draw
counter may have. -/
structure Emitted (s : State) (out : List Byte) (t : State) : Prop where
  frame : t = { s with eng := t.eng, mem := t.mem, draws := t.draws }
  tables : sameTables s.eng t.eng
  opos : t.eng.opos = s.eng.opos + out.length
  fits : s.eng.opos ≤ s.cfg.obufSize → s.eng.opos + out.length ≤ s.cfg.obufSize
  read : ∀ a, Memory.read a t.mem =
    if Buf.obuf.offset + s.eng.opos ≤ a ∧ a < Buf.obuf.offset + s.eng.opos + out.length then
      out[a - (Buf.obuf.offset + s.eng.opos)]?
    else Memory.read a s.mem
  legal : s.memLegal → t.memLegal

theorem Emitted.cfg {s t : State} {out : List Byte} (h : Emitted s out t) : t.cfg = s.cfg := by
  rw [h.frame]

/-- Nothing emitted: only bit buffers and the draw counter differ. -/
theorem Emitted.nil {s t : State} (hf : t = { s with eng := t.eng, draws := t.draws })
    (ht : sameTables s.eng t.eng) (ho : t.eng.opos = s.eng.opos) : Emitted s [] t := by
  have hm : t.mem = s.mem := by rw [hf]
  have hc : t.cfg = s.cfg := by rw [hf]
  refine ⟨?_, ht, by simpa using ho, by simp, ?_, ?_⟩
  · rw [hm]
    exact hf
  · intro a
    rw [if_neg (by simp), hm]
  · intro h
    unfold State.memLegal
    rw [hm, hc]
    exact h

theorem Emitted.refl (s : State) : Emitted s [] s := .nil rfl (.refl _) rfl

theorem Emitted.trans {s t u : State} {o p : List Byte} (h : Emitted s o t) (k : Emitted t p u) :
    Emitted s (o ++ p) u := by
  have hcfg := h.cfg
  refine ⟨?_, h.tables.trans k.tables, ?_, ?_, ?_, fun hl => k.legal (h.legal hl)⟩
  · rw [k.frame, h.frame]
  · rw [k.opos, h.opos, List.length_append, Nat.add_assoc]
  · intro hs
    have h1 := h.fits hs
    have h2 := k.fits (by rw [h.opos, hcfg]; exact h1)
    rw [h.opos, hcfg] at h2
    rw [List.length_append]
    omega
  · intro a
    rw [k.read, h.read, h.opos, List.length_append]
    by_cases h1 : Buf.obuf.offset + s.eng.opos ≤ a ∧
        a < Buf.obuf.offset + s.eng.opos + (o.length + p.length)
    · rw [if_pos h1]
      by_cases h2 : a < Buf.obuf.offset + s.eng.opos + o.length
      · rw [if_neg (by omega), if_pos (by omega), List.getElem?_append_left (by omega)]
      · rw [if_pos (by omega), List.getElem?_append_right (by omega)]
        congr 1
        omega
    · rw [if_neg h1, if_neg (by omega), if_neg (by omega)]

/-- A change of bit buffers after an emission. -/
theorem Emitted.withEng {s t : State} {out : List Byte} (h : Emitted s out t) {e : Engine}
    (ht : sameTables t.eng e) (ho : e.opos = t.eng.opos) : Emitted s out (t.withEng e) := by
  have := h.trans (Emitted.nil (t := t.withEng e) rfl ht ho)
  rwa [List.append_nil] at this

/-- What EMIT can do: it stores the byte at OPOS, or OBUF is full and nothing has changed. -/
theorem emit_cases (v : Byte) (s : State) :
    (s.eng.opos < s.cfg.obufSize ∧ ∃ t, emit v s = .ok t ∧ Emitted s [v] t ∧
      t.eng.pbuf = s.eng.pbuf ∧ t.eng.buf = s.eng.buf) ∨
    (s.cfg.obufSize ≤ s.eng.opos ∧ emit v s = .error (.outOverflow, s)) := by
  by_cases hs : s.eng.opos < s.cfg.obufSize
  · left
    refine ⟨hs, _, by unfold emit; rw [if_neg (Nat.not_le.mpr hs)], ?_, ?_, ?_⟩
    · refine ⟨?_, ?_, ?_, ?_, ?_, ?_⟩
      · rw [memWrite_eq]
        rfl
      · rw [memWrite_eq]
        exact .refl _
      · rfl
      · intro _
        simpa using hs
      · intro a
        have hr := read_memWrite .obuf s.eng.opos v s a
        simp only [State.withEng_mem]
        rw [hr]
        simp only [Buf.size, hs, true_and, List.length_cons, List.length_nil]
        by_cases ha : a = Buf.obuf.offset + s.eng.opos
        · rw [if_pos ha, if_pos (by omega), ha]
          simp
        · rw [if_neg ha, if_neg (by omega)]
      · exact fun hl => memLegal_memWrite hl .obuf s.eng.opos v
    · rw [memWrite_eq]
      rfl
    · rw [memWrite_eq]
      rfl
  · right
    exact ⟨Nat.not_lt.mp hs, by unfold emit; rw [if_pos (Nat.not_lt.mp hs)]⟩

/-- How a part of a command that only emits can end: it goes on, having emitted some bytes, or OBUF is
full, having emitted some bytes. -/
def EmitsOnly (s : State) (r : Except Raised State) : Prop :=
  (∃ out t, r = .ok t ∧ Emitted s out t) ∨
  (∃ out t, r = .error (.outOverflow, t) ∧ Emitted s out t ∧ s.cfg.obufSize ≤ t.eng.opos)

theorem EmitsOnly.after {s t : State} {out : List Byte} {r : Except Raised State}
    (h : Emitted s out t) (k : EmitsOnly t r) : EmitsOnly s r := by
  rcases k with ⟨p, u, hr, hu⟩ | ⟨p, u, hr, hu, hf⟩
  · exact .inl ⟨_, u, hr, h.trans hu⟩
  · exact .inr ⟨_, u, hr, h.trans hu, by rwa [h.cfg] at hf⟩

theorem drain_emits (fuel : Nat) (s : State) : EmitsOnly s (drain fuel s) := by
  induction fuel generalizing s with
  | zero => exact .inl ⟨[], s, rfl, .refl s⟩
  | succ fuel ih =>
    unfold drain
    split
    · rcases emit_cases (byte8 (s.eng.pbuf.take 8)) s with ⟨-, t, he, ht, -, -⟩ | ⟨hf, he⟩
      · rw [he]
        exact .after (ht.withEng (e := { t.eng with pbuf := t.eng.pbuf.drop 8 }) (.refl t.eng) rfl)
          (ih _)
      · rw [he]
        exact .inr ⟨[], s, rfl, .refl s, hf⟩
    · exact .inl ⟨[], s, rfl, .refl s⟩

theorem lookupCode_frame (x : Byte) (s : State) : sameButDraws s (lookupCode x s).2 := by
  unfold lookupCode
  split
  · exact .refl s
  · exact sameButDraws_tick s

theorem Emitted.ofDraws {s t : State} (h : sameButDraws s t) : Emitted s [] t := by
  obtain ⟨n, rfl⟩ := h
  exact .nil rfl (.refl _) rfl

theorem packSymbol_emits (x : Byte) (s : State) : EmitsOnly s (packSymbol x s) := by
  unfold packSymbol
  exact .after
    ((Emitted.ofDraws (lookupCode_frame x s)).withEng
      (e := { (lookupCode x s).2.eng with
        pbuf := (lookupCode x s).2.eng.pbuf ++ (lookupCode x s).1 })
      (.refl (lookupCode x s).2.eng) rfl) (drain_emits _ _)

theorem packLoop_emits (n i : Nat) (s : State) : EmitsOnly s (packLoop n i s) := by
  induction n generalizing i s with
  | zero => exact .inl ⟨[], s, rfl, .refl s⟩
  | succ n ih =>
    unfold packLoop
    have h0 := Emitted.ofDraws (memRead_frame .ibuf i s)
    rcases packSymbol_emits (memRead .ibuf i s).1 (memRead .ibuf i s).2 with
      ⟨p, u, hr, hu⟩ | ⟨p, u, hr, hu, hf⟩
    · simp only [hr]
      exact .after (h0.trans hu) (ih _ _)
    · simp only [hr]
      exact .inr ⟨_, u, rfl, h0.trans hu, by rwa [h0.cfg] at hf⟩

theorem packFlush_emits (s : State) : EmitsOnly s (packFlush s) := by
  unfold packFlush
  split
  · exact .inl ⟨[], s, rfl, .refl s⟩
  · rcases emit_cases (byte8 (s.eng.pbuf ++ zeros (8 - s.eng.pbuf.length))) s with
      ⟨-, t, he, ht, -, -⟩ | ⟨hf, he⟩
    · rw [he]
      exact .inl ⟨_, _, rfl, ht.withEng (.refl _) rfl⟩
    · rw [he]
      exact .inr ⟨[], s, rfl, .refl s, hf⟩

/-- What PACK can do, from its empty bit buffer and OPOS = 0. -/
theorem pack_emits (n : Nat) (s : State) :
    EmitsOnly (s.withEng { s.eng with pbuf := [], opos := 0 }) (pack n s) := by
  unfold pack
  rcases packLoop_emits n 0 (s.withEng { s.eng with pbuf := [], opos := 0 }) with
    ⟨p, u, hr, hu⟩ | ⟨p, u, hr, hu, hf⟩
  · simp only [hr]
    exact .after hu (packFlush_emits u)
  · simp only [hr]
    exact .inr ⟨p, u, rfl, hu, hf⟩

theorem matchBit_emits (bit : Bool) (s : State) : EmitsOnly s (matchBit bit s) := by
  unfold matchBit
  simp only
  split
  · exact .inl ⟨[], _, rfl, (Emitted.refl s).withEng (.refl _) rfl⟩
  · next v _ =>
    rcases emit_cases v s with ⟨-, t, he, ht, -, -⟩ | ⟨hf, he⟩
    · rw [he]
      exact .inl ⟨_, _, rfl, ht.withEng (.refl _) rfl⟩
    · rw [he]
      exact .inr ⟨[], s, rfl, .refl s, hf⟩

theorem matchLoop_emits (bits : Bits) (s : State) : EmitsOnly s (matchLoop bits s) := by
  induction bits generalizing s with
  | nil => exact .inl ⟨[], s, rfl, .refl s⟩
  | cons bit bits ih =>
    unfold matchLoop
    rcases matchBit_emits bit s with ⟨p, u, hr, hu⟩ | ⟨p, u, hr, hu, hf⟩
    · simp only [hr]
      exact .after hu (ih u)
    · simp only [hr]
      exact .inr ⟨p, u, rfl, hu, hf⟩

/-- What DECODE_MATCH can do, from its empty bit buffer and OPOS = 0. -/
theorem decodeMatch_emits (p : Nat) (s : State) :
    EmitsOnly (s.withEng { s.eng with buf := [], opos := 0 }) (decodeMatch p s) := by
  unfold decodeMatch unpack
  exact .after (.ofDraws (memReadN_frame .ibuf 0 p _)) (matchLoop_emits _ _)

end Sys2Proof.Machine
end

