-- ==== Sys2Proof/Laws/Errors.lean ====
section
/-!
SUPPORT. What the error completion of spec/60_exceptions.md R88 leaves, and what the end of a command
can be.
-/

namespace Sys2Proof.Machine

/-- The registers and the environment after an error completion, whatever the error. -/
theorem errorComplete_frame (c : Command) (e : ErrCode) (s : State) :
    errorComplete c e s = { s with
      outLen := 0
      dictLen := match c with
        | .compress => 0
        | .decompress => s.dictLen
      phase := .idle
      stage := .command
      status := Status.failed e
      mem := (errorBuffers c e s).mem } := by
  cases c <;> by_cases h : e = .outOverflow <;> simp [errorComplete, errorBuffers, h, forgetBuf]

/-- The buffers after an error completion. -/
theorem errorComplete_memory (c : Command) (e : ErrCode) (s : State) :
    errorMemory c e s (errorComplete c e s) := by
  rw [errorComplete_frame]
  refine ⟨fun he a => by simp [errorBuffers, he], fun he => ⟨?_, ?_, ?_⟩⟩
  · intro i hi
    cases c <;> simp only [errorBuffers, he, if_true, State.byteAt]
    · rw [read_forget_dbuf, read_forget_obuf]
      split
      · rfl
      · exact if_pos ⟨by omega, by omega⟩
    · rw [read_forget_obuf]
      exact if_pos ⟨by omega, by omega⟩
  · intro hc i hi
    subst hc
    simp only [errorBuffers, he, if_true, State.byteAt]
    rw [read_forget_dbuf]
    exact if_pos ⟨by omega, by simp only [forgetBuf_cfg]; omega⟩
  · intro a ho hd
    cases c <;> simp only [errorBuffers, he, if_true]
    · have hd := hd rfl
      rw [read_forget_dbuf, read_forget_obuf, if_neg (by simp only [forgetBuf_cfg]; omega),
        if_neg (by omega)]
    · rw [read_forget_obuf, if_neg (by omega)]

/-- R88 from the state the error was raised in. -/
theorem errorComplete_completed (c : Command) (e : ErrCode) (s : State) :
    errorCompleted c e s (errorComplete c e s) := by
  have hm := errorComplete_memory c e s
  rw [errorComplete_frame] at hm ⊢
  exact ⟨rfl, rfl, rfl, rfl, rfl, rfl, rfl, rfl, rfl, rfl, rfl, hm⟩

/-- An error raised in a state that differs from the command's first in working state, draw counter and,
for OUT_OVERFLOW, in bytes that R88 leaves unspecified. -/
theorem errorCompleted_of_raised {c : Command} {e : ErrCode} {s t u : State}
    (hf : t = { s with eng := t.eng, mem := t.mem, draws := t.draws, stage := t.stage })
    (hm : ∀ a, Memory.read a t.mem ≠ Memory.read a s.mem →
      e = .outOverflow ∧
      ((Buf.obuf.offset ≤ a ∧ a < Buf.obuf.offset + s.cfg.obufSize) ∨
        (c = .compress ∧ Buf.dbuf.offset ≤ a ∧ a < Buf.dbuf.offset + s.cfg.dbufSize)))
    (hu : errorCompleted c e t u) : errorCompleted c e s u := by
  have hcfg : t.cfg = s.cfg := by rw [hf]
  obtain ⟨h1, h2, h3, h4, h5, h6, h7, h8, h9, h10, h11, h12, h13⟩ := hu
  refine ⟨h1, ?_, h3, h4, ?_, ?_, ?_, ?_, ?_, ?_, ?_, ?_, ?_⟩
  · rw [h2]
    cases c
    · rfl
    · rw [hf]
  all_goals try (first | rw [h5, hf] | rw [h6, hf] | rw [h7, hf] | rw [h8, hf] | rw [h9, hf] | rw [h10, hf] | rw [h11, hf])
  · intro he a
    rw [h12 he a]
    by_contra hne
    exact he (hm a hne).1
  · intro he
    obtain ⟨k1, k2, k3⟩ := h13 he
    rw [hcfg] at k1 k2 k3
    refine ⟨k1, k2, fun a ho hd => ?_⟩
    rw [k3 a ho hd]
    by_contra hne
    rcases (hm a hne).2 with h | ⟨hc, h⟩
    · omega
    · have := hd hc
      omega

/-- No instruction stops: `exec` always answers a next state. -/
theorem exec_next (i : Instr) (s : State) : ∃ t, exec i s = .next t := by
  cases i with
  | compress => exact ⟨_, rfl⟩
  | decompress => exact ⟨_, rfl⟩
  | badCommand opcode rsv =>
    simp only [exec, execBadCommand]
    split <;> exact ⟨_, rfl⟩
  | tokenInternal => exact ⟨_, rfl⟩
  | tokenLeaf sym => exact ⟨_, rfl⟩
  | tokenInvalid mark => exact ⟨_, rfl⟩

/-- A command always ends with PHASE IDLE and DONE = 1. -/
theorem finish_done (c : Command) (r : Except Raised State) :
    (finish c r).phase = .idle ∧ (finish c r).stage = .command ∧
      (finish c r).status.done = true := by
  cases r with
  | ok s => exact ⟨rfl, rfl, rfl⟩
  | error p =>
    simp only [finish, errorComplete_frame]
    exact ⟨trivial, trivial, rfl⟩

end Sys2Proof.Machine
end

