-- ==== Sys2Proof/Laws/Bus.lean ====
section
/-!
SUPPORT. What the turns of the agents and one bus access can do, at an offset from BASE.
-/

namespace Sys2Proof.Machine

/-! Turns. -/

/-- A step at the host's turn with an access at hand is that access. -/
theorem step_access {s : State} {ts : List Turn} {rest : List Stmt} {a : Access}
    (ht : nextTurn s = (.host, ts)) (hp : s.prog = .access a :: rest) :
    step s = busAccess a (afterStatement s ts rest) := by
  simp [step, ht, takeTurn, hostTurn, hp, afterStatement]

/-- A step at the engine's turn of a running command is the engine's. -/
theorem step_engine {s : State} {ts : List Turn} {st : Stage} (h : engineRunning s ts st) :
    step s = engineRun { s with schedule := ts } := by
  obtain ⟨ht, hr, hp, -⟩ := h
  simp [step, ht, takeTurn, engineTurn, hr, hp]

/-- A step at the engine's turn with no engine step enabled changes nothing. -/
theorem step_engine_waits {s : State} {ts : List Turn} (ht : nextTurn s = (.engine, ts))
    (h : s.resetIn = true ∨ s.phase = .idle) : step s = .next { s with schedule := ts } := by
  rcases h with h | h
  · simp [step, ht, takeTurn, engineTurn, h]
  · cases hr : s.resetIn <;> simp [step, ht, takeTurn, engineTurn, h, hr]

theorem step_assertReset {s : State} {ts : List Turn} (ht : nextTurn s = (.assertReset, ts)) :
    step s = .next (assertReset { s with schedule := ts }) := by
  simp [step, ht, takeTurn]

theorem step_releaseReset {s : State} {ts : List Turn} (ht : nextTurn s = (.releaseReset, ts)) :
    step s = .next (releaseReset { s with schedule := ts }) := by
  simp [step, ht, takeTurn]

/-! Host statements other than one access. -/

/-- A step at the host's turn with POLL at hand is one read of STATUS. -/
theorem step_poll {s : State} {ts : List Turn} {rest : List Stmt} {x : Var}
    (ht : nextTurn s = (.host, ts)) (hp : s.prog = .poll x :: rest) :
    step s = .next (pollOnce x rest { s with schedule := ts }) := by
  simp [step, ht, takeTurn, hostTurn, hp]

/-- A step at the host's turn with RBUF at hand expands it. -/
theorem step_rbuf {s : State} {ts : List Turn} {rest : List Stmt} {b : Buf} {n : Operand}
    {name : Nat} (ht : nextTurn s = (.host, ts)) (hp : s.prog = .rbuf b n name :: rest) :
    step s = expandStmt n (fun k => rbuf s.cfg b k name) rest { s with schedule := ts } := by
  simp [step, ht, takeTurn, hostTurn, hp]

/-- A step at the host's turn with COPY at hand expands it. -/
theorem step_copy {s : State} {ts : List Turn} {rest : List Stmt} {src dst : Buf} {n : Operand}
    {t : Var} (ht : nextTurn s = (.host, ts)) (hp : s.prog = .copy src dst n t :: rest) :
    step s = expandStmt n (fun k => copy s.cfg src dst k t) rest { s with schedule := ts } := by
  simp [step, ht, takeTurn, hostTurn, hp]

/-- What an expansion can do: only the program changes, or the count has no value. -/
theorem expandStmt_cases (n : Operand) (expansion : Nat → List Stmt) (rest : List Stmt) (s : State) :
    (∃ v, operandValue n s = some v ∧
      expandStmt n expansion rest s = .next { s with prog := expansion v.toNat ++ rest }) ∨
    (operandValue n s = none ∧ expandStmt n expansion rest s = .refused .unboundName) := by
  unfold expandStmt
  cases operandValue n s with
  | none => exact .inr ⟨rfl, rfl⟩
  | some v => exact .inl ⟨v, rfl, rfl⟩

/-! Addresses. -/

theorem decodeAddr_base {p : Params} {off : Nat} (h : off < 0x800000) :
    decodeAddr p (p.base + off) = some off := by
  unfold decodeAddr
  rw [if_pos ⟨by omega, by omega⟩]
  simp

theorem decodeAddr_outside {p : Params} {addr : Nat}
    (h : addr < p.base ∨ p.base + 0x800000 ≤ addr) : decodeAddr p addr = none := by
  unfold decodeAddr
  rw [if_neg (by omega)]

theorem regionOf_registers {off : Nat} (h : off < 0x100000) : regionOf off = .registers := by
  simp [regionOf, h]

theorem regionOf_reserved {off : Nat} (h : 0x300000 ≤ off) (k : off < 0x400000) :
    regionOf off = .reserved := by
  unfold regionOf
  rw [if_neg (by omega), if_neg (by omega), if_neg (by omega), if_pos k]

theorem regionOf_window {b : Buf} {i : Nat} (h : i < b.span) :
    regionOf (b.offset + i) = .window b i := by
  cases b
  · have h' : i < 0x100000 := h
    show regionOf (0x100000 + i) = _
    unfold regionOf
    rw [if_neg (by omega), if_pos (by omega)]
    simp
  · have h' : i < 0x100000 := h
    show regionOf (0x200000 + i) = _
    unfold regionOf
    rw [if_neg (by omega), if_neg (by omega), if_pos (by omega)]
    simp
  · have h' : i < 0x400000 := h
    show regionOf (0x400000 + i) = _
    unfold regionOf
    rw [if_neg (by omega), if_neg (by omega), if_neg (by omega), if_neg (by omega)]
    simp

theorem Buf.offset_add_lt {b : Buf} {i : Nat} (h : i < b.span) : b.offset + i < 0x800000 := by
  cases b <;> simp only [Buf.offset, Buf.span] at * <;> omega

theorem Buf.offset_mod (b : Buf) : b.offset % 4 = 0 := by cases b <;> rfl

theorem permitted_window_byte {b : Buf} {i : Nat} (h : i < b.span) :
    permitted .w8 (b.offset + i) = true := by
  simp [permitted, regionOf_window h]

theorem permitted_word {off : Nat} (h : off % 4 = 0) : permitted .w32 off = true := by
  simp [permitted, h]

/-! Accesses. -/

/-- A permitted read at an offset. -/
theorem step_read {s : State} {ts : List Turn} {rest : List Stmt} {w : Width} {off : Nat} {x : Var}
    (h : hostAccess s ts rest w off (.read x)) (ho : off < 0x800000)
    (hp : permitted w off = true) :
    step s = .next (bindVar x (busRead w off (afterStatement s ts rest)).1
      (busRead w off (afterStatement s ts rest)).2) := by
  rw [step_access h.1 h.2]
  simp [busAccess, decodeAddr_base ho, hp]

/-- A permitted write at an offset. -/
theorem step_write {s : State} {ts : List Turn} {rest : List Stmt} {w : Width} {off : Nat}
    {v : Word} (h : hostAccess s ts rest w off (.write (.imm v))) (ho : off < 0x800000)
    (hp : permitted w off = true) :
    step s = busWrite w off v (afterStatement s ts rest) := by
  rw [step_access h.1 h.2]
  simp [busAccess, decodeAddr_base ho, hp, operandValue]

/-- An access that is not permitted. -/
theorem step_unsupported {s : State} {ts : List Turn} {rest : List Stmt} {w : Width} {off : Nat}
    {d : Dir} (h : hostAccess s ts rest w off d) (ho : off < 0x800000)
    (hp : permitted w off = false) : step s = .refused .unsupportedAccess := by
  rw [step_access h.1 h.2]
  simp [busAccess, decodeAddr_base ho, hp]

/-- While BUSY a permitted write has no effect (R99). -/
theorem busWrite_busy {s : State} (hb : s.phase = .busy) (w : Width) (off : Nat) (v : Word) :
    busWrite w off v s = .next s := by
  unfold busWrite
  split
  · rfl
  · split
    · simp [writeRegisterAt, hb]
    · rfl
    · split <;> simp [hostWriteByte, hostWriteWord, hb]

/-- During reset a permitted write has no effect (R97). -/
theorem busWrite_reset {s : State} (hr : s.resetIn = true) (w : Width) (off : Nat) (v : Word) :
    busWrite w off v s = .next s := by
  simp [busWrite, hr]

/-- What `hostReadByte` does to the state: the draw counter only. -/
theorem hostReadByte_frame (b : Buf) (i : Nat) (s : State) :
    sameButDraws s (hostReadByte b i s).2 := by
  unfold hostReadByte
  split
  · split
    · exact sameButDraws_tick s
    · exact .refl s
  · exact memRead_frame b i s

/-- A host read changes the draw counter only. -/
theorem busRead_frame (w : Width) (off : Nat) (s : State) : sameButDraws s (busRead w off s).2 := by
  have hw : ∀ b i, sameButDraws s (hostReadWord b i s).2 := fun b i =>
    (((hostReadByte_frame b i s).trans (hostReadByte_frame b (i + 1) _)).trans
      (hostReadByte_frame b (i + 2) _)).trans (hostReadByte_frame b (i + 3) _)
  unfold busRead
  split
  · cases w <;> exact sameButDraws_tick s
  · split
    · exact .refl s
    · exact .refl s
    · cases w
      · exact hostReadByte_frame _ _ s
      · exact hw _ _
      · exact hw _ _
      · exact hw _ _

end Sys2Proof.Machine
end

