-- ==== Sys2Proof/Laws/Commands.lean ====
section
/-!
SUPPORT. What the two commands and the parser can do: one inversion lemma each.
-/

namespace Sys2Proof.Machine

/-! The parser. -/

/-- A state the parser can leave: only working state and the draw counter differ. -/
def sameButWorking (s t : State) : Prop := ∃ e n, t = { s with eng := e, draws := n }

theorem sameButWorking.refl (s : State) : sameButWorking s s := ⟨s.eng, s.draws, rfl⟩

theorem sameButWorking.trans {s t u : State} (h : sameButWorking s t) (k : sameButWorking t u) :
    sameButWorking s u := by
  obtain ⟨e, n, rfl⟩ := h
  obtain ⟨f, m, rfl⟩ := k
  exact ⟨f, m, rfl⟩

theorem sameButDraws.working {s t : State} (h : sameButDraws s t) : sameButWorking s t := by
  obtain ⟨n, rfl⟩ := h
  exact ⟨s.eng, n, rfl⟩

theorem sameButWorking_withEng (s : State) (e : Engine) : sameButWorking s (s.withEng e) :=
  ⟨e, s.draws, rfl⟩

theorem fetchToken_frame (s : State) : sameButDraws s (fetchToken s).2 := by
  have h1 := memRead_frame .dbuf s.eng.dpos s
  unfold fetchToken
  simp only
  split
  · split
    · exact h1.trans (memRead_frame .dbuf (s.eng.dpos + 1) _)
    · exact h1
  · exact h1

theorem stripRight_length (fuel : Nat) (path : Bits) : (stripRight fuel path).length ≤ path.length := by
  induction fuel generalizing path with
  | zero => exact Nat.le_refl _
  | succ fuel ih =>
    unfold stripRight
    split
    · exact (ih _).trans (by simp)
    · exact Nat.le_refl _

/-- BACKTRACK never makes PATH longer. -/
theorem backtrack_length (path : Bits) : (backtrack path).length ≤ path.length := by
  unfold backtrack
  split
  · simp
  · rename_i h
    have hs := stripRight_length path.length path
    have hp := List.length_pos_iff.mpr h
    simp only [List.length_append, List.length_dropLast, List.length_cons, List.length_nil]
    omega

/-- How a part of the parser can end: it goes on, or it raises an error of the parser. -/
def ParsesOnly (s : State) (r : Except Raised State) : Prop :=
  (∃ t, r = .ok t ∧ sameButWorking s t) ∨
  (∃ e t, r = .error (e, t) ∧ sameButWorking s t ∧
    (e = .invalidDictionary ∨ e = .pathOverflow ∨ e = .emptyDictionary))

theorem ParsesOnly.after {s t : State} {r : Except Raised State} (h : sameButWorking s t)
    (k : ParsesOnly t r) : ParsesOnly s r := by
  rcases k with ⟨u, hr, hu⟩ | ⟨e, u, hr, hu, he⟩
  · exact .inl ⟨u, hr, h.trans hu⟩
  · exact .inr ⟨e, u, hr, h.trans hu, he⟩

theorem tokenInternal_parses (s : State) : ParsesOnly s (tokenInternal s) := by
  unfold tokenInternal
  split
  · exact .inr ⟨_, s, rfl, .refl s, .inr (.inl rfl)⟩
  · exact .inl ⟨_, rfl, sameButWorking_withEng s _⟩

theorem tokenLeaf_parses (sym : Byte) (s : State) : ParsesOnly s (tokenLeaf sym s) := by
  unfold tokenLeaf
  split
  · exact .inr ⟨_, s, rfl, .refl s, .inl rfl⟩
  · exact .inl ⟨_, rfl, sameButWorking_withEng s _⟩

theorem invalid_parses (s : State) : ParsesOnly s (.error (.invalidDictionary, s)) :=
  .inr ⟨_, s, rfl, .refl s, .inl rfl⟩

theorem runToken_parses (i : Instr) (s : State) : ParsesOnly s (runToken i s) := by
  cases i with
  | compress => exact invalid_parses s
  | decompress => exact invalid_parses s
  | badCommand opcode rsv => exact invalid_parses s
  | tokenInternal => exact tokenInternal_parses s
  | tokenLeaf sym => exact tokenLeaf_parses sym s
  | tokenInvalid mark => exact invalid_parses s

theorem parseToken_parses (s : State) : ParsesOnly s (parseToken s) := by
  unfold parseToken
  simp only
  split
  · exact .after (fetchToken_frame s).working (runToken_parses _ _)
  · exact .after (fetchToken_frame s).working (invalid_parses _)

theorem parseLoop_parses (fuel : Nat) (s : State) : ParsesOnly s (parseLoop fuel s) := by
  induction fuel generalizing s with
  | zero => exact .inl ⟨s, rfl, .refl s⟩
  | succ fuel ih =>
    unfold parseLoop
    split
    · rcases parseToken_parses s with ⟨t, hr, ht⟩ | ⟨e, t, hr, ht, he⟩
      · simp only [hr]
        exact .after ht (ih t)
      · simp only [hr]
        exact .inr ⟨e, t, rfl, ht, he⟩
    · exact .inl ⟨s, rfl, .refl s⟩

/-- A walk with few enough INTERNAL tokens stays within PATH_MAX: a LEAF never makes PATH longer. -/
theorem walkFits_of_short {pathMax : Nat} (toks : List Instr) (path : Bits)
    (h : path.length + toks.count .tokenInternal ≤ pathMax) : walkFits pathMax toks path = true := by
  induction toks generalizing path with
  | nil => rfl
  | cons i toks ih =>
    cases i with
    | tokenInternal =>
      simp only [List.count_cons_self] at h
      have hnext : (path ++ [false]).length + toks.count .tokenInternal ≤ pathMax := by
        simp only [List.length_append, List.length_cons, List.length_nil]
        omega
      simp only [walkFits, ih _ hnext, Bool.and_true, decide_eq_true_eq]
      omega
    | tokenLeaf sym =>
      have hc : (Instr.tokenLeaf sym :: toks).count .tokenInternal = toks.count .tokenInternal :=
        List.count_cons_of_ne (by simp)
      have hb := backtrack_length path
      exact ih _ (by omega)
    | tokenInvalid mark => exact ih _ (by rwa [List.count_cons_of_ne (by simp)] at h)
    | compress => exact ih _ (by rwa [List.count_cons_of_ne (by simp)] at h)
    | decompress => exact ih _ (by rwa [List.count_cons_of_ne (by simp)] at h)
    | badCommand opcode rsv => exact ih _ (by rwa [List.count_cons_of_ne (by simp)] at h)

/-! COMPRESS. -/

/-- The state of COMPRESS once GENERATE is done: the input read and counted, tree, CODE and DICT built. -/
def compressTables (s : State) : State :=
  let input := memReadN .ibuf 0 s.inputLen s
  generate (treeBuild (input.2.withEng { input.2.eng with freq := freqTable input.1 }))

theorem compressTables_frame (s : State) : sameButWorking s (compressTables s) := by
  obtain ⟨n, h⟩ := memReadN_frame .ibuf 0 s.inputLen s
  unfold compressTables
  simp only [h]
  exact ⟨_, _, rfl⟩

/-- The state PACK starts from: the dictionary stored, the bit buffer empty, OPOS = 0. -/
def packStart (s : State) : State :=
  let t := memWriteN .dbuf 0 s.eng.dict s
  t.withEng { t.eng with pbuf := [], opos := 0 }

@[simp] theorem packStart_cfg (s : State) : (packStart s).cfg = s.cfg := by
  unfold packStart
  rw [memWriteN_eq]
  rfl

/-- How the pseudocode of COMPRESS can end. -/
theorem compressRun_cases (s : State) :
    (s.cfg.ibufSize < s.inputLen ∧ compressRun s = .error (.lengthRange, s)) ∨
    (s.inputLen ≤ s.cfg.ibufSize ∧ s.inputLen = 0 ∧ compressRun s = .error (.emptyInput, s)) ∨
    (s.inputLen ≤ s.cfg.ibufSize ∧ s.inputLen ≠ 0 ∧
      ((∃ out t, compressRun s = .ok (compressLengths t) ∧
          Emitted (packStart (compressTables s)) out t) ∨
        (∃ out t, compressRun s = .error (.outOverflow, t) ∧
          Emitted (packStart (compressTables s)) out t ∧ s.cfg.obufSize ≤ t.eng.opos))) := by
  by_cases h1 : s.cfg.ibufSize < s.inputLen
  · exact .inl ⟨h1, by unfold compressRun; rw [if_pos h1]⟩
  · by_cases h2 : s.inputLen = 0
    · refine .inr (.inl ⟨by omega, h2, ?_⟩)
      unfold compressRun
      rw [if_neg h1]
      simp [freqBuild, h2]
    · refine .inr (.inr ⟨by omega, h2, ?_⟩)
      have hrun : compressRun s =
          match pack (compressTables s).inputLen
            (memWriteN .dbuf 0 (compressTables s).eng.dict (compressTables s)) with
          | .error r => .error r
          | .ok t => .ok (compressLengths t) := by
        unfold compressRun freqBuild
        rw [if_neg h1, if_neg h2]
        rfl
      obtain ⟨e, n, hT⟩ := compressTables_frame s
      have hcfg : (packStart (compressTables s)).cfg = s.cfg := by
        rw [packStart_cfg, hT]
      rcases pack_emits (compressTables s).inputLen
          (memWriteN .dbuf 0 (compressTables s).eng.dict (compressTables s)) with
        ⟨out, t, hr, ht⟩ | ⟨out, t, hr, ht, hf⟩
      · left
        exact ⟨out, t, by rw [hrun, hr], ht⟩
      · right
        refine ⟨out, t, by rw [hrun, hr], ht, ?_⟩
        have : (packStart (compressTables s)).cfg.obufSize ≤ t.eng.opos := hf
        rwa [hcfg] at this

/-! DECOMPRESS. -/

/-- The state DECODE_MATCH starts from. -/
def matchStart (s : State) : State := s.withEng { s.eng with buf := [], opos := 0 }

/-- How the pseudocode of DECOMPRESS can end after the parse loop. -/
theorem decompressTail_cases (s : State) :
    (s.eng.entries = 0 ∧ decompressTail s = .error (.emptyDictionary, s)) ∨
    (s.eng.entries ≠ 0 ∧
      ((∃ out t, decompressTail s = .ok { t with outLen := BitVec.ofNat 32 t.eng.opos } ∧
          Emitted (matchStart s) out t) ∨
        (∃ out t, decompressTail s = .error (.outOverflow, t) ∧ Emitted (matchStart s) out t ∧
          s.cfg.obufSize ≤ t.eng.opos))) := by
  by_cases h : s.eng.entries = 0
  · exact .inl ⟨h, by simp [decompressTail, parseEnd, h]⟩
  · refine .inr ⟨h, ?_⟩
    rcases decodeMatch_emits s.inputLen s with ⟨out, t, hr, ht⟩ | ⟨out, t, hr, ht, hf⟩
    · exact .inl ⟨out, t, by simp [decompressTail, parseEnd, h, hr], ht⟩
    · exact .inr ⟨out, t, by simp [decompressTail, parseEnd, h, hr], ht, hf⟩

/-- How the pseudocode of DECOMPRESS can end. -/
theorem decompressRun_cases (s : State) :
    ((s.cfg.ibufSize < s.inputLen ∨ s.cfg.dbufSize < s.dictionaryLen) ∧
      decompressRun s = .error (.lengthRange, s)) ∨
    (s.inputLen ≤ s.cfg.ibufSize ∧ s.dictionaryLen ≤ s.cfg.dbufSize ∧
      ((∃ e t, decompressRun s = .error (e, t) ∧ sameButWorking (parseInit s) t ∧
          (e = .invalidDictionary ∨ e = .pathOverflow ∨ e = .emptyDictionary)) ∨
        (∃ t, parseLoop s.dictionaryLen (parseInit s) = .ok t ∧ sameButWorking (parseInit s) t ∧
          decompressRun s = decompressTail t))) := by
  by_cases h : s.cfg.ibufSize < s.inputLen ∨ s.cfg.dbufSize < s.dictionaryLen
  · exact .inl ⟨h, by unfold decompressRun; rw [if_pos h]⟩
  · refine .inr ⟨by omega, by omega, ?_⟩
    rcases parseLoop_parses s.dictionaryLen (parseInit s) with ⟨t, hr, ht⟩ | ⟨e, t, hr, ht, he⟩
    · exact .inr ⟨t, hr, ht, by simp [decompressRun, h, hr]⟩
    · exact .inl ⟨e, t, by simp [decompressRun, h, hr], ht, he⟩

end Sys2Proof.Machine
end

