-- ==== Sys2Proof/Laws/PerInstr.lean ====
section
/-!
SUPPORT. Facts made per instruction, one lemma per constructor.
-/

namespace Sys2Proof.Laws.TokenWidth

/-- R37, R40: a command word is no token, and a token is one or two bytes long, two exactly after the
LEAF mark (R41). -/
def Statement (i : Instr) : Prop :=
  ((∃ w, encode i = .command w) ↔ tokenBytes i = []) ∧
  (i.wf = true → tokenBytes i ≠ [] → (tokenBytes i).length =
    if (tokenBytes i).head? = some 0x31 then 2 else 1)

theorem compress : Statement .compress := by simp [Statement, encode, tokenBytes]

theorem decompress : Statement .decompress := by simp [Statement, encode, tokenBytes]

theorem badCommand (opcode : BitVec 8) (rsv : BitVec 24) : Statement (.badCommand opcode rsv) := by
  simp [Statement, encode, tokenBytes]

theorem tokenInternal : Statement .tokenInternal := by simp [Statement, encode, tokenBytes]

theorem tokenLeaf (sym : Byte) : Statement (.tokenLeaf sym) := by
  simp [Statement, encode, tokenBytes]

theorem tokenInvalid (mark : Byte) : Statement (.tokenInvalid mark) := by
  simp only [Statement, encode, tokenBytes, Instr.wf, illegalMark]
  simp

end Sys2Proof.Laws.TokenWidth
end

