-- ==== Sys2Proof/Tests/Slice0.lean ====
section
/-!
SUPPORT. The model's own tests: the well-formedness smoke test, words written out from the encoding
tables, vectors of spec/95_test_vectors.md (each test names its vector), and for each statement with
hypotheses a state that meets them. Expected results are the spec's.
-/

namespace Sys2Proof.Tests

set_option Elab.async false

open Sys2Proof.Machine

/-! Small states. -/

/-- The bytes of a string of ASCII characters (spec/00_scope.md R7). -/
def ascii (text : String) : List Byte := text.toList.map fun c => BitVec.ofNat 8 c.toNat

/-- A block out of reset with an input or payload and a dictionary loaded. -/
def loaded (input dict : List Byte) : State :=
  let s := memWriteN .dbuf 0 dict (memWriteN .ibuf 0 input State.reset)
  { s with inLen := BitVec.ofNat 32 input.length, dictLen := BitVec.ofNat 32 dict.length }

/-- The same block with a running command. -/
def running (w : Word) (s : State) : State := startCommand w s

/-- The parser of a running DECOMPRESS at the start of a dictionary. -/
def parsing (dict : List Byte) : State := parseInit (running 0x00000002 (loaded [] dict))

/-- A state whose host is about to make one access. -/
def accessing (w : Width) (off : Nat) (d : Dir) (s : State) : State :=
  { s with prog := [.access ⟨s.cfg.base + off, w, d⟩], schedule := [.host] }

/-- The same block with OBUF_SIZE = 1 (the alternative parameters of E13 to E15). -/
def tiny (s : State) : State := { s with cfg := { s.cfg with obufSize := 1 } }

/-- The state a run answers, the given one where it stops. -/
def after (o : Host.Outcome State Fault Refusal) (s : State) : State :=
  match o with
  | .next t => t
  | .fault _ => s
  | .refused _ => s

/-- The state after one instruction. -/
def ran (i : Instr) (s : State) : State := after (exec i s) s

/-- The first bytes of a buffer. -/
def bytesOf (b : Buf) (n : Nat) (s : State) : List (Option Byte) :=
  (List.range n).map (s.byteAt b)

/-- The registers STATUS, DICT_LEN, OUT_LEN. -/
def results (s : State) : Word × Word × Word := (regRead .status s, s.dictLen, s.outLen)

/-! Well-formedness refuses ill-formed terms. -/

theorem test_wf_refuses_compress_word : (Instr.badCommand 0x01 0).wf = false := by decide
theorem test_wf_refuses_decompress_word : (Instr.badCommand 0x02 0).wf = false := by decide
theorem test_wf_refuses_internal_mark : (Instr.tokenInvalid 0x30).wf = false := by decide
theorem test_wf_refuses_leaf_mark : (Instr.tokenInvalid 0x31).wf = false := by decide
theorem test_wf_takes_reserved_bit : (Instr.badCommand 0x01 1).wf = true := by decide

/-! Decoding, from R37, R39, R40, R42. -/

theorem test_decode_compress :
    decodeCommand 0b00000000000000000000000000000001#32 = .compress := by decide
theorem test_decode_decompress :
    decodeCommand 0b00000000000000000000000000000010#32 = .decompress := by decide
theorem test_decode_zero_word : decodeCommand 0x00000000 = .badCommand 0x00 0x000000 := by decide
theorem test_decode_reserved_bit : decodeCommand 0x00000101 = .badCommand 0x01 0x000001 := by decide
theorem test_decode_top_bit : decodeCommand 0x80000002 = .badCommand 0x02 0x800000 := by decide
theorem test_decode_internal :
    decodeToken [0b00110000#8, 0b00110000#8] = .ok (.tokenInternal, [0x30]) := by decide
theorem test_decode_leaf_raw_symbol :
    decodeToken [0b00110001#8, 0b00110001#8, 0x30] = .ok (.tokenLeaf 0x31, [0x30]) := by decide
theorem test_decode_invalid : decodeToken [0x32] = .ok (.tokenInvalid 0x32, []) := by decide
theorem test_decode_lone_leaf_mark : decodeToken [0x31] = .error .leafWithoutSymbol := by decide
theorem test_decode_nothing : decodeToken [] = .error .noByte := by decide
theorem test_table_words :
    decodeTableWord 32 1 = some .compress ∧ decodeTableWord 32 2 = some .decompress ∧
    decodeTableWord 32 0 = some (.badCommand 0 0) ∧ decodeTableWord 8 0x30 = some .tokenInternal ∧
    decodeTableWord 8 0x31 = some (.tokenLeaf 0) ∧
    decodeTableWord 16 0x6131 = some (.tokenLeaf 0x61) ∧
    decodeTableWord 8 0 = some (.tokenInvalid 0) := by decide

/-! Every table row runs as the first instruction after reset. -/

theorem test_first_step_compress :
    step (State.reset.withFetchWord 32 1) =
      exec .compress (running 0x00000001 State.reset) := by rfl
theorem test_first_step_decompress :
    step (State.reset.withFetchWord 32 2) =
      exec .decompress (running 0x00000002 State.reset) := by rfl
theorem test_first_step_bad_command :
    regRead .status (after (step (State.reset.withFetchWord 32 0x101)) State.reset) = 0x406 := by
  decide +kernel
theorem test_first_step_internal :
    (after (step (State.reset.withFetchWord 8 0x30)) State.reset).eng.path = [false] := by
  decide +kernel
theorem test_first_step_leaf :
    (after (step (State.reset.withFetchWord 16 0x6131)) State.reset).eng.inv =
      [([true], 0x61)] := by decide +kernel
theorem test_first_step_invalid :
    regRead .status (after (step (State.reset.withFetchWord 8 0x78)) State.reset) = 0x306 := by
  decide +kernel

/-! Vectors. -/

/-- Program P1 and vectors T1, G1, K1: `"aaab"`. -/
theorem test_compress_aaab :
    let t := ran .compress (running 0x00000001 (loaded (ascii "aaab") []))
    results t = (0x00000002, 5, 1) ∧ bytesOf .obuf 1 t = [some 0xE0] ∧
    bytesOf .dbuf 5 t = [some 0x30, some 0x31, some 0x62, some 0x31, some 0x61] := by
  decide +kernel

/-- Vectors T2, G2, K2: `"abracadabra"`, with ties. -/
theorem test_compress_abracadabra :
    let t := ran .compress (running 0x00000001 (loaded (ascii "abracadabra") []))
    results t = (0x00000002, 14, 3) ∧ bytesOf .obuf 3 t = [some 0x6E, some 0x8A, some 0xDC] ∧
    t.eng.root = 8 ∧ t.eng.dict = ascii "0" ++ ascii "1a" ++ ascii "001c1d01b1r" := by
  decide +kernel

/-- Section 1.1: the payload of `"aaab"` decodes to `"aaabbbbb"`. -/
theorem test_decompress_padding :
    let t := ran .decompress (running 0x00000002 (loaded [0xE0] (ascii "01b1a")))
    results t = (0x00000002, 5, 8) ∧ bytesOf .obuf 8 t = (ascii "aaabbbbb").map some := by
  decide +kernel

/-- Vectors P11 and M3: a key that is no prefix-free code; the shortest key wins. -/
theorem test_decompress_shortest_key :
    let t := ran .decompress (running 0x00000002 (loaded [0x80] (ascii "01a1b01c")))
    t.eng.inv = [([false], 0x61), ([true], 0x62), ([true, false], 0x63)] ∧
    bytesOf .obuf 8 t = (ascii "baaaaaaa").map some := by decide +kernel

/-- Vectors E13 and E14: OUT_OVERFLOW with OBUF_SIZE = 1. -/
theorem test_out_overflow :
    results (ran .compress (running 0x00000001 (tiny (loaded (ascii "hello world") [])))) =
      (0x00000606, 0, 0) ∧
    results (ran .decompress (running 0x00000002 (tiny (loaded [0x6F] (ascii "01a1b"))))) =
      (0x00000606, 5, 0) := by decide +kernel

/-- Vectors P18, P20, P16, E4: the errors of the parser and their priority. -/
theorem test_decompress_errors :
    results (ran .decompress (running 0x00000002 (loaded [] (ascii "0x")))) = (0x306, 2, 0) ∧
    results (ran .decompress (running 0x00000002 (loaded [] (ascii "1")))) = (0x306, 1, 0) ∧
    results (ran .decompress (running 0x00000002 (loaded [] []))) = (0x206, 0, 0) ∧
    results (ran .decompress { running 0x00000002 (loaded [] []) with dictLen := 1025 }) =
      (0x506, 1025, 0) := by decide +kernel

/-- Vectors E1 and E2. -/
theorem test_compress_errors :
    results (ran .compress (running 0x00000001 (loaded [] []))) = (0x106, 0, 0) ∧
    results (ran .compress { running 0x00000001 (loaded [] []) with inLen := 4097 }) =
      (0x506, 0, 0) := by decide +kernel

/-- Vector E11: a reserved bit makes the word illegal, and CMD keeps it. -/
theorem test_bad_command :
    let t := ran (.badCommand 0x01 0x000001) State.reset
    results t = (0x406, 0, 0) ∧ t.cmd = 0x101 := by decide +kernel

/-- Vector P5, the token at PATH = 1, and the token on a full path. -/
theorem test_token_internal :
    let s := parsing (ascii "00")
    (ran .tokenInternal { s with eng := { s.eng with path := [true] } }).eng.path = [true, false] ∧
    results (ran .tokenInternal
      { s with eng := { s.eng with path := List.replicate 256 false } }) = (0x706, 2, 0) := by
  decide +kernel

/-- R59's example: PATH = [0, 0] and a leaf c; and the leaf at the root (P2). -/
theorem test_token_leaf :
    let s := parsing (ascii "1c")
    let t := ran (.tokenLeaf 0x63) { s with eng := { s.eng with path := [false, false] } }
    t.eng.inv = [([false, false], 0x63)] ∧ t.eng.path = [false, true] ∧
    (ran (.tokenLeaf 0x63) s).eng.inv = [([true], 0x63)] := by decide +kernel

/-- The BACKTRACK table of section 2.5. -/
theorem test_backtrack :
    [[], [false], [false, true], [true, false], [false, true, true], [true, false, true],
      [true, true], [true], [false, false, true, false], [false, true, true, true]].map backtrack =
    [[], [true], [true], [true, true], [true], [true, true], [true], [true],
      [false, false, true, true], [true]] := by decide

/-- Vector H7: a 32-bit window write is little-endian. -/
theorem test_window_little_endian :
    bytesOf .ibuf 4 (after
      (step (accessing .w32 0x100000 (.write (.imm 0x64636261)) State.reset)) State.reset) =
      (ascii "abcd").map some := by decide +kernel

/-- Vectors H10 and H11: refused accesses. -/
theorem test_refused_accesses :
    step (accessing .w32 0x100002 (.read (0, 0)) State.reset) = .refused .unsupportedAccess ∧
    step (accessing .w8 0x000004 (.read (0, 0)) State.reset) = .refused .unsupportedAccess ∧
    step (accessing .w16 0x100000 (.read (0, 0)) State.reset) = .refused .unsupportedAccess ∧
    step (accessing .w32 0x800000 (.read (0, 0)) State.reset) = .refused .platformUndecoded := by
  refine ⟨?_, ?_, ?_, ?_⟩ <;> rfl

/-- Program P3, step 5: COPY bounded by the name a read bound to 2. -/
theorem test_copy_bound_by_name :
    (after (step { State.reset with
        prog := [.copy .obuf .ibuf (.var (0, 0)) (1, 0)], vars := [((0, 0), 2)] }) State.reset).prog =
      [.access ⟨0x40400000, .w8, .read (1, 0)⟩, .access ⟨0x40100000, .w8, .write (.var (1, 0))⟩,
        .access ⟨0x40400001, .w8, .read (1, 0)⟩, .access ⟨0x40100001, .w8, .write (.var (1, 0))⟩] := by
  decide +kernel

/-- RBUF bounded by a name, as in program P5, step 5; here the name is bound to 2. -/
theorem test_rbuf_bound_by_name :
    (after (step { State.reset with
        prog := [.rbuf .obuf (.var (0, 0)) 7], vars := [((0, 0), 2)] }) State.reset).prog =
      [.access ⟨0x40400000, .w8, .read (7, 0)⟩, .access ⟨0x40400001, .w8, .read (7, 1)⟩] := by
  decide +kernel

/-- R7: a byte's bits are most significant first. -/
theorem test_bits_msb_first :
    bits8 0x6F = [false, true, true, false, true, true, true, true] ∧
    byte8 [true, true, true, false, false, false, false, false] = 0xE0 := by decide

end Sys2Proof.Tests
end

