-- ==== Sys2Proof/Tests/Witnesses.lean ====
section
/-!
SUPPORT. For each statement of Obligations.lean with hypotheses, concrete states and operands that meet
all of them together; for a statement of several clauses, each clause at a boundary of its range.
-/

namespace Sys2Proof.Tests

set_option Elab.async false

open Sys2Proof.Machine

theorem witness_DecodeOfEncodeIsIdentity :
    (Instr.badCommand 0xFF 0xFFFFFF).wf = true ∧ (Instr.badCommand 0x02 1).wf = true ∧
    (Instr.tokenInvalid 0x2F).wf = true ∧ (Instr.tokenInvalid 0x32).wf = true ∧
    (Instr.tokenLeaf 0x30).wf = true := by decide +kernel

/-! Reset. -/

/-- A running command whose input is being reset. -/
def resetting : State := { running 0x00000001 State.reset with schedule := [.assertReset] }

/-- A block held in reset with a host access at hand. -/
def heldInReset (w : Width) (off : Nat) (d : Dir) : State :=
  { accessing w off d State.reset with resetIn := true }

theorem witness_ResetSetsRegistersAndForgetsBuffers : resetting.schedule = .assertReset :: [] := by
  decide +kernel

theorem witness_ResetAbandonsCommandAndBlocksAccesses :
    (resetting.schedule = .assertReset :: [] ∧ resetting.phase = .busy) ∧
    (let s := { State.reset with resetIn := true, schedule := [.engine] };
      s.resetIn = true ∧ nextTurn s = (.engine, [])) ∧
    (let s := heldInReset .w32 0x000 (.write (.imm 1));
      s.resetIn = true ∧ permitted .w32 0x000 = true ∧
        hostAccess s [] [] .w32 0x000 (.write (.imm 1))) ∧
    (let s := heldInReset .w32 0x7FFFFC (.read (0, 0));
      s.resetIn = true ∧ hostAccess s [] [] .w32 0x7FFFFC (.read (0, 0))) ∧
    (let s := heldInReset .w8 0x100000 (.read (0, 0));
      s.resetIn = true ∧ permitted .w8 0x100000 = true ∧
        hostAccess s [] [] .w8 0x100000 (.read (0, 0))) ∧
    (let s := { State.reset with resetIn := true, schedule := [.releaseReset] };
      s.schedule = .releaseReset :: []) := by decide +kernel

/-! Registers and the bus. -/

theorem witness_RegisterReads :
    ∀ off ∈ [0x000, 0x004, 0x008, 0x00C, 0x010, 0x014, 0x018, 0x01C, 0x020, 0x024, 0x0FFFFC],
      let s := accessing .w32 off (.read (0, 0)) (running 0x00000001 State.reset)
      s.resetIn = false ∧ off < 0x100000 ∧ off % 4 = 0 ∧
        hostAccess s [] [] .w32 off (.read (0, 0)) := by decide +kernel

theorem witness_CfgRegistersReadParameters :
    State.reset.cfg.ok ∧
    (∀ r ∈ [Reg.cfgIbufSize, .cfgDbufSize, .cfgObufSize, .cfgPathMax],
      hostAccess (accessing .w32 r.offset (.read (0, 0)) State.reset) [] [] .w32 r.offset
        (.read (0, 0)) ∧
      hostAccess (accessing .w32 r.offset (.write (.imm 0)) State.reset) [] [] .w32 r.offset
        (.write (.imm 0))) ∧
    (∃ t, step State.reset = .next t) := by
  refine ⟨by decide +kernel, by decide +kernel, ⟨_, rfl⟩⟩

theorem witness_LengthRegisterWrites :
    ∀ off ∈ [0x008, 0x00C],
      let s := accessing .w32 off (.write (.imm 0xFFFFFFFF)) State.reset
      s.resetIn = false ∧ s.phase = .idle ∧
        hostAccess s [] [] .w32 off (.write (.imm 0xFFFFFFFF)) := by decide +kernel

/-- The three windows of the reference parameters. -/
theorem windows_reference :
    windowOf Params.reference .ibuf 0x100000 0x100000 4096 ∧
    windowOf Params.reference .dbuf 0x200000 0x100000 1024 ∧
    windowOf Params.reference .obuf 0x400000 0x400000 32768 :=
  ⟨⟨rfl, rfl, rfl⟩, ⟨rfl, rfl, rfl⟩, ⟨rfl, rfl, rfl⟩⟩

/-- The windows: `windows_reference`. -/
theorem witness_WindowByteAccesses :
    (let s := accessing .w8 (0x100000 + 4095) (.write (.imm 5)) State.reset;
      s.cfg = Params.reference ∧ s.cfg.ok ∧ s.resetIn = false ∧ s.phase = .idle ∧ 4095 < 4096 ∧
        hostAccess s [] [] .w8 (0x100000 + 4095) (.write (.imm 5))) ∧
    (let s := accessing .w8 (0x400000 + 0) (.read (0, 0)) (memWrite .obuf 0 7 State.reset);
      s.cfg = Params.reference ∧ s.cfg.ok ∧ s.resetIn = false ∧ s.phase = .idle ∧
        hostAccess s [] [] .w8 (0x400000 + 0) (.read (0, 0)) ∧
        s.byteAt .obuf 0 = some 7) := by decide +kernel

/-- The windows: `windows_reference`, and the OBUF window with OBUF_SIZE = 1. -/
theorem witness_WindowWordAccesses :
    (let s := accessing .w32 (0x200000 + 1020) (.write (.imm 0x04030201)) State.reset;
      s.cfg = Params.reference ∧ s.cfg.ok ∧ s.resetIn = false ∧ s.phase = .idle ∧
        1020 % 4 = 0 ∧ 1020 + 3 < 0x100000 ∧
        hostAccess s [] [] .w32 (0x200000 + 1020) (.write (.imm 0x04030201))) ∧
    (let s := accessing .w32 (0x400000 + 0) (.read (0, 0)) (tiny (memWrite .obuf 0 7 State.reset));
      s.cfg.ok ∧ s.cfg.obufSize = 1 ∧ hostAccess s [] [] .w32 (0x400000 + 0) (.read (0, 0)) ∧
        s.windowByte .obuf 1 0 7 ∧ s.windowByte .obuf 1 1 0 ∧ s.windowByte .obuf 1 2 0 ∧
        s.windowByte .obuf 1 3 0) := by decide +kernel

theorem witness_UnsupportedAccessesAreRefused :
    hostAccess (accessing .w16 0x100000 (.read (0, 0)) State.reset) [] [] .w16 0x100000
      (.read (0, 0)) ∧
    hostAccess (accessing .w64 0x000000 (.read (0, 0)) State.reset) [] [] .w64 0x000000
      (.read (0, 0)) ∧
    hostAccess (accessing .w32 0x7FFFFE (.read (0, 0)) State.reset) [] [] .w32 0x7FFFFE
      (.read (0, 0)) ∧
    hostAccess (accessing .w8 0x0FFFFF (.read (0, 0)) State.reset) [] [] .w8 0x0FFFFF
      (.read (0, 0)) ∧
    hostAccess (accessing .w8 0x2FFFFF (.write (.imm 1)) State.reset) [] [] .w8 0x2FFFFF
      (.write (.imm 1)) ∧
    hostAccess (accessing .w32 0x000000 (.write (.imm 1)) State.reset) [] [] .w32 0x000000
      (.write (.imm 1)) := by decide +kernel

theorem witness_ReservedOffsetsReadZeroAndIgnoreWrites :
    (∀ off ∈ [0x000024, 0x0FFFFC, 0x300000, 0x3FFFFC],
      hostAccess (accessing .w32 off (.read (0, 0)) State.reset) [] [] .w32 off (.read (0, 0)) ∧
      off % 4 = 0) ∧
    (let s := accessing .w8 (0x100000 + 4096) (.write (.imm 5)) (running 1 State.reset);
      s.cfg = Params.reference ∧ s.resetIn = false ∧ 4096 < 0x100000 ∧ s.phase = .busy ∧
        hostAccess s [] [] .w8 (0x100000 + 4096) (.write (.imm 5))) := by decide +kernel

theorem witness_UnspecifiedBytesAreFreshDraws :
    (let s := accessing .w8 (0x100000 + 0) (.read (0, 0)) State.reset;
      s.cfg = Params.reference ∧ s.cfg.ok ∧ s.resetIn = false ∧ s.byteAt .ibuf 0 = none ∧
        hostAccess s [] [] .w8 (0x100000 + 0) (.read (0, 0))) ∧
    (let s := accessing .w8 (0x100000 + 0) (.read (0, 0)) (running 1 (loaded [1] []));
      s.cfg = Params.reference ∧ s.cfg.ok ∧ s.resetIn = false ∧ s.phase = .busy ∧
        hostAccess s [] [] .w8 (0x100000 + 0) (.read (0, 0))) ∧
    (let s := accessing .w32 (0x100000 + 0) (.read (0, 0)) (loaded [1, 2] []);
      s.cfg = Params.reference ∧ s.cfg.ok ∧ s.resetIn = false ∧ s.phase = .idle ∧
        hostAccess s [] [] .w32 (0x100000 + 0) (.read (0, 0)) ∧
        s.byteAt .ibuf 1 = some 2 ∧ s.byteAt .ibuf 2 = none ∧ s.unspecifiedCount .ibuf 0 4 = 2) ∧
    (let s := accessing .w32 (0x100000 + 4096) (.read (0, 0)) (running 1 State.reset);
      s.cfg = Params.reference ∧ s.phase = .busy ∧ 4096 % 4 = 0 ∧ 4096 + 3 < 0x100000 ∧
        hostAccess s [] [] .w32 (0x100000 + 4096) (.read (0, 0)) ∧
        s.unspecifiedCount .ibuf 4096 4 = 0) := by decide +kernel

theorem witness_UndecodedAddressesAreRefused :
    (let a : Access := ⟨0x3FFFFFFF, .w32, .read (0, 0)⟩;
      let s := { State.reset with prog := [.access a] };
      nextTurn s = (.host, []) ∧ s.prog = .access a :: [] ∧ a.addr < s.cfg.base) ∧
    (let a : Access := ⟨0x40800000, .w32, .read (0, 0)⟩;
      let s := { State.reset with prog := [.access a] };
      nextTurn s = (.host, []) ∧ s.prog = .access a :: [] ∧ s.cfg.base + 0x800000 ≤ a.addr) ∧
    (∀ off ∈ [0x300000, 0x3FFFFF],
      hostAccess (accessing .w8 off (.read (0, 0)) State.reset) [] [] .w8 off (.read (0, 0))) := by
  decide +kernel

/-- A host whose next statement is the given one, with the name (0, 0) bound to 2. -/
def stating (st : Stmt) : State :=
  { State.reset with prog := [st], schedule := [.host], vars := [((0, 0), 2)] }

/-- The windows: `windows_reference`. -/
theorem witness_HostStatementsRun :
    (let a : Access := ⟨0x40100000, .w8, .write (.var (0, 0))⟩;
      nextTurn (stating (.access a)) = (.host, []) ∧
        lookupVar (0, 0) (stating (.access a)).vars = some 2) ∧
    (let s := stating (.access ⟨0x40100000, .w8, .write (.var (0, 1))⟩);
      permitted .w8 0x100000 = true ∧ hostAccess s [] [] .w8 0x100000 (.write (.var (0, 1))) ∧
        lookupVar (0, 1) s.vars = none) ∧
    (let s := stating (.poll (1, 0));
      nextTurn s = (.host, []) ∧ s.prog = .poll (1, 0) :: [] ∧ s.resetIn = false ∧
        s.status.done = false) ∧
    (let s := { stating (.poll (1, 0)) with status := Status.succeeded };
      nextTurn s = (.host, []) ∧ s.resetIn = false ∧ s.status.done = true) ∧
    (let s := stating (.rbuf .obuf (.var (0, 0)) 1);
      nextTurn s = (.host, []) ∧ s.prog = .rbuf .obuf (.var (0, 0)) 1 :: [] ∧
        operandValue (.var (0, 0)) s = some 2 ∧ operandValue (.var (0, 1)) s = none) ∧
    (let s := stating (.copy .obuf .ibuf (.var (0, 0)) (1, 0));
      nextTurn s = (.host, []) ∧ s.prog = .copy .obuf .ibuf (.var (0, 0)) (1, 0) :: [] ∧
        operandValue (.var (0, 0)) s = some 2) := by decide +kernel

theorem witness_IgnoredWrites :
    (∀ off ∈ [0x000, 0x008, 0x00C, 0x100000, 0x7FFFFC],
      let s := accessing .w32 off (.write (.imm 9)) (running 1 State.reset)
      s.phase = .busy ∧ permitted .w32 off = true ∧
        hostAccess s [] [] .w32 off (.write (.imm 9))) ∧
    (∀ off ∈ [0x004, 0x010, 0x020, 0x024, 0x0FFFFC, 0x300000, 0x3FFFFC],
      hostAccess (accessing .w32 off (.write (.imm 9)) State.reset) [] [] .w32 off
        (.write (.imm 9)) ∧ off % 4 = 0) := by decide +kernel

/-! Starting and ending a command. -/

/-- A host about to write a word to CMD of an IDLE block. -/
abbrev writesCommand (w : Word) : Prop :=
  (accessing .w32 0x000 (.write (.imm w)) State.reset).resetIn = false ∧
  (accessing .w32 0x000 (.write (.imm w)) State.reset).phase = .idle ∧
  hostAccess (accessing .w32 0x000 (.write (.imm w)) State.reset) [] [] .w32 0x000
    (.write (.imm w))

theorem witness_LegalCommandWriteStartsCommand :
    writesCommand 0x00000001 ∧ writesCommand 0x00000002 ∧
    (let t := accessing .w8 0x100000 (.write (.imm 0x7A)) (running 1 State.reset);
      permitted .w8 0x100000 = true ∧
        hostAccess t [] [] .w8 0x100000 (.write (.imm 0x7A))) ∧
    (∃ v, let u := accessing .w32 0x008 (.write (.imm 9)) (running 1 State.reset);
      step u = .next v ∧ u.phase = .busy ∧ u.cmd = 0x00000001 ∧
        u.inLen = State.reset.inLen ∧ u.dictLen = State.reset.dictLen ∧
        u.mem = State.reset.mem ∧ nextTurn u = (.host, [])) :=
  ⟨by decide +kernel, by decide +kernel, by decide +kernel, _, rfl, by decide +kernel⟩

theorem witness_IllegalCommandWriteCompletesAtOnce :
    writesCommand 0x00000000 ∧ writesCommand 0x00000003 ∧ writesCommand 0x00000101 ∧
    writesCommand 0xFFFFFFFF ∧ 0x00000101#32 ≠ 0x00000001 ∧ 0x00000101#32 ≠ 0x00000002 := by decide +kernel

theorem witness_BadCommandResult :
    State.reset.phase = .idle ∧ (Instr.badCommand 0x00 0).wf = true ∧
    (Instr.badCommand 0x01 1).wf = true := by decide +kernel

theorem witness_EngineStepRunsCommandInCmd :
    engineRunning (running 0x00000001 State.reset) [] .command := by decide +kernel

/-- A token stands at DPOS of a running parser. -/
abbrev standsAt (i : Instr) (s : State) : Prop :=
  engineRunning s [] .parse ∧ i.wf = true ∧ tokenBytes i ≠ [] ∧
  s.eng.dpos + (tokenBytes i).length ≤ s.dictionaryLen ∧ s.dictionaryLen ≤ s.cfg.dbufSize ∧
  ∀ k, k < (tokenBytes i).length → s.byteAt .dbuf (s.eng.dpos + k) = (tokenBytes i)[k]?

theorem witness_EngineStepRunsTokenAtDpos :
    standsAt .tokenInternal (parsing (ascii "0")) ∧
    standsAt (.tokenLeaf 0x63) (parsing (ascii "1c")) ∧
    standsAt (.tokenInvalid 0x78) (parsing (ascii "x")) ∧
    (let s := parsing (ascii "1");
      engineRunning s [] .parse ∧ s.eng.dpos + 1 = s.dictionaryLen ∧
        s.dictionaryLen ≤ s.cfg.dbufSize ∧ s.byteAt .dbuf s.eng.dpos = some 0x31) := by decide +kernel

theorem witness_LegalCommandAlwaysCompletes :
    engineRunning (running 0x00000001 State.reset) [] .command ∧
    (running 0x00000001 State.reset).cmd = 0x00000001 ∧
    engineRunning (running 0x00000002 State.reset) [] .command ∧
    (running 0x00000002 State.reset).cmd = 0x00000002 := by
  decide +kernel

theorem witness_PollTerminates :
    let s := { running 0x00000002 State.reset with prog := [.poll (0, 0)] }
    s.schedule = [] ∧ s.resetIn = false ∧ s.phase = .busy ∧ s.stage = .command ∧
      s.cmd = 0x00000002 ∧ s.prog = .poll (0, 0) :: [] := by decide +kernel

theorem witness_PhaseChangesOnlyByCommandAndCompletion :
    (∃ t, step (accessing .w32 0x000 (.write (.imm 1)) State.reset) = .next t ∧
      t.phase = .busy) ∧
    (∃ t, step (running 0x00000001 State.reset) = .next t ∧ t.phase = .idle) :=
  ⟨⟨_, rfl, by decide +kernel⟩, ⟨_, rfl, by decide +kernel⟩⟩

theorem witness_NothingVisibleChangesWhileBusy :
    ∃ t, step (parsing (ascii "01a")) = .next t ∧ t.phase = .busy ∧
      (parsing (ascii "01a")).phase = .busy := ⟨_, rfl, by decide +kernel, by decide +kernel⟩

/-! Errors. -/

theorem witness_CompressLengthErrors :
    (let s := { running 1 State.reset with inLen := 4097 }; s.cfg.ibufSize < s.inputLen) ∧
    (running 1 State.reset).inputLen = 0 := by decide +kernel

theorem witness_DecompressLengthError :
    (let s := { running 2 State.reset with inLen := 4097 }; s.cfg.ibufSize < s.inputLen) ∧
    (let s := { running 2 State.reset with dictLen := 1025 };
      s.cfg.dbufSize < s.dictionaryLen) := by decide +kernel

theorem witness_DictionaryWithoutLeavesIsEmpty :
    ∀ n ∈ [0, 3],
      let s := loaded [] (List.replicate n 0x30)
      s.inputLen ≤ s.cfg.ibufSize ∧ n ≤ s.cfg.dbufSize ∧ n ≤ s.cfg.pathMax ∧
        s.dictionaryIs (List.replicate n 0x30) := by decide +kernel

theorem witness_InvalidDictionaryIsReported :
    (let s := loaded [] (ascii "01a2");
      let toks := [Instr.tokenInternal, .tokenLeaf 0x61];
      (∀ i ∈ toks, isMarkToken i) ∧ walkFits s.cfg.pathMax toks [] = true ∧
        s.inputLen ≤ s.cfg.ibufSize ∧ s.dictionaryLen ≤ s.cfg.dbufSize ∧ illegalMark 0x32 ∧
        s.dictionaryIs (toks.flatMap tokenBytes ++ 0x32 :: [])) ∧
    (let s := loaded [] (ascii "01");
      s.dictionaryIs ([Instr.tokenInternal].flatMap tokenBytes ++ [0x31])) := by
  refine ⟨⟨?_, ?_⟩, ?_⟩
  · intro i hi
    fin_cases hi <;> trivial
  · decide +kernel
  · decide +kernel

/-- A dictionary that fits stands in DBUF of a loaded block. -/
theorem loaded_dictionary (dict : List Byte) (h : dict.length ≤ 1024) :
    (loaded [] dict).cfg = Params.reference ∧ (loaded [] dict).inputLen = 0 ∧
      (loaded [] dict).dictionaryIs dict := by
  have hcfg : (memWriteN .dbuf 0 dict State.reset).cfg = Params.reference := by
    rw [memWriteN_eq]
    rfl
  have hold : (memWriteN .dbuf 0 dict State.reset).holds .dbuf dict := holds_memWriteN h
  have hlen : (BitVec.ofNat 32 dict.length).toNat = dict.length := by
    rw [BitVec.toNat_ofNat, Nat.mod_eq_of_lt (by omega)]
  exact ⟨hcfg, rfl, hlen, hold⟩

/-- One INTERNAL token more than PATH_MAX = 256, and an invalid byte. -/
def tooDeep : List Byte := List.replicate (256 + 1) 0x30 ++ [0x78]

theorem tooDeep_length : tooDeep.length = 258 := by decide +kernel

theorem witness_TooDeepDictionaryOverflowsPath :
    let s := loaded [] tooDeep
    s.inputLen ≤ s.cfg.ibufSize ∧ s.dictionaryLen ≤ s.cfg.dbufSize ∧
      s.dictionaryIs (List.replicate (s.cfg.pathMax + 1) 0x30 ++ [0x78]) := by
  obtain ⟨hcfg, hin, hdict⟩ := loaded_dictionary tooDeep (by rw [tooDeep_length]; decide)
  refine ⟨?_, ?_, ?_⟩
  · rw [hin]
    exact Nat.zero_le _
  · rw [hdict.1, tooDeep_length, hcfg]
    decide
  · rw [hcfg]
    exact hdict

/-- PATH full only after a LEAF token: `"01a"`, 255 INTERNAL tokens, and one more. -/
def deepAfterLeaf : List Instr :=
  [.tokenInternal, .tokenLeaf 0x61] ++ List.replicate 255 .tokenInternal

theorem deepAfterLeaf_length :
    (deepAfterLeaf.flatMap tokenBytes ++ 0x30 :: []).length = 259 := by decide +kernel

theorem deepAfterLeaf_marks : ∀ i ∈ deepAfterLeaf, isMarkToken i := by
  intro i hi
  rcases List.mem_append.mp hi with h | h
  · fin_cases h <;> trivial
  · rw [List.eq_of_mem_replicate h]
    trivial

theorem witness_PathOverflowAfterLeaf :
    let s := loaded [] (deepAfterLeaf.flatMap tokenBytes ++ 0x30 :: [])
    (∀ i ∈ deepAfterLeaf, isMarkToken i) ∧ s.inputLen ≤ s.cfg.ibufSize ∧
      s.dictionaryLen ≤ s.cfg.dbufSize ∧ walkFits s.cfg.pathMax deepAfterLeaf [] = true ∧
      (walkTokens deepAfterLeaf ([], [])).1.length = s.cfg.pathMax ∧
      s.dictionaryIs (deepAfterLeaf.flatMap tokenBytes ++ 0x30 :: []) := by
  obtain ⟨hcfg, hin, hdict⟩ := loaded_dictionary (deepAfterLeaf.flatMap tokenBytes ++ 0x30 :: [])
    (by rw [deepAfterLeaf_length]; decide)
  refine ⟨deepAfterLeaf_marks, ?_, ?_, ?_, ?_, hdict⟩
  · rw [hin]
    exact Nat.zero_le _
  · rw [hdict.1, deepAfterLeaf_length, hcfg]
    decide
  · rw [hcfg]
    decide +kernel
  · rw [hcfg]
    decide +kernel

/-! Tokens. -/

/-- A parser whose path holds the given number of bits. -/
def pathOf (n : Nat) : State :=
  { parsing (ascii "00") with
    eng := { (parsing (ascii "00")).eng with path := List.replicate n false } }

theorem witness_TokenInternalResult :
    (pathOf 255).eng.path.length < (pathOf 255).cfg.pathMax ∧
    (pathOf 256).eng.path.length = (pathOf 256).cfg.pathMax := by decide +kernel

theorem witness_TokenLeafResult :
    (let s := parsing (ascii "1c"); s.eng.dpos + 1 < s.dictionaryLen) ∧
    (let s := parsing (ascii "1"); s.eng.dpos + 1 = s.dictionaryLen) := by decide +kernel

/-! COMPRESS. -/

/-- The hypotheses the statements about COMPRESS share. -/
abbrev compressible (s : State) (bytes : List Byte) : Prop :=
  s.cfg.ok ∧ s.inputIs bytes ∧ 1 ≤ bytes.length ∧ bytes.length ≤ s.cfg.ibufSize

/-- COMPRESS about to run on an input. -/
def compressing (text : String) : State := running 0x00000001 (loaded (ascii text) [])

theorem witness_CompressResult :
    (compressible (compressing "a") (ascii "a") ∧ compressible (compressing "aab") (ascii "aab") ∧
      compressible (tiny (compressing "aaaaaaaaa")) (ascii "aaaaaaaaa")) ∧
    (let t := ran .compress (compressing "aab");
      bytesFor (codesOf t.eng.code (ascii "aab")).length ≤ t.cfg.obufSize) ∧
    (let t := ran .compress (tiny (compressing "aaaaaaaaa"));
      t.cfg.obufSize < bytesFor (codesOf t.eng.code (ascii "aaaaaaaaa")).length) := by
  decide +kernel

theorem witness_CompressCompletes :
    compressible (compressing "aab") (ascii "aab") ∧
    bytesFor (255 * (ascii "aab").length) ≤ (compressing "aab").cfg.obufSize := by decide +kernel

/-- For FreqBuildCounts, TreeShape, CodebookIsPrefixFree, DictionaryShape, CodebookIsComplete. -/
theorem witness_CompressedState :
    (∃ t, compressible (compressing "aab") (ascii "aab") ∧
      exec .compress (compressing "aab") = .next t ∧ 2 ≤ distinct (ascii "aab")) ∧
    (∃ t, compressible (compressing "a") (ascii "a") ∧
      exec .compress (compressing "a") = .next t ∧ distinct (ascii "a") = 1) :=
  ⟨⟨_, by decide +kernel, rfl, by decide +kernel⟩, ⟨_, by decide +kernel, rfl, by decide +kernel⟩⟩

theorem witness_CompressFrame :
    (∃ t, (compressing "aab").cfg.ok ∧ exec .compress (compressing "aab") = .next t ∧
      t.status.err = false) ∧
    (∃ t, (tiny (compressing "aaaaaaaaa")).cfg.ok ∧
      exec .compress (tiny (compressing "aaaaaaaaa")) = .next t ∧ t.status.err = true) :=
  ⟨⟨_, by decide +kernel, rfl, by decide +kernel⟩, ⟨_, by decide +kernel, rfl, by decide +kernel⟩⟩

theorem witness_CompressIsDeterministic :
    let s1 := compressing "aab"
    let s2 := memWrite .obuf 0 9 { compressing "aab" with dictLen := 7 }
    ∃ t1 t2, s1.cfg.ok ∧ s1.cfg = s2.cfg ∧ s1.inputIs (ascii "aab") ∧ s2.inputIs (ascii "aab") ∧
      exec .compress s1 = .next t1 ∧ exec .compress s2 = .next t2 :=
  ⟨_, _, by decide +kernel, by decide +kernel, by decide +kernel, by decide +kernel, rfl, rfl⟩

theorem witness_SelectMinTakesEarliestLeast : ([0] : List Nat) ≠ [] := by decide +kernel

theorem witness_MergeJoinsTheTwoLeast :
    2 ≤ [0, 1].length ∧ leafNodes (freqTable (ascii "a")) ≠ [] := by decide +kernel

/-! DECOMPRESS. -/

/-- The hypotheses the statements about DECOMPRESS share. -/
abbrev decompressible (s : State) (toks : List Instr) (payload : List Byte) : Prop :=
  s.cfg.ok ∧ toks.filterMap leafSym ≠ [] ∧ walkFits s.cfg.pathMax toks [] = true ∧
  s.dictionaryIs (toks.flatMap tokenBytes) ∧ s.dictionaryLen ≤ s.cfg.dbufSize ∧
  s.inputIs payload ∧ payload.length ≤ s.cfg.ibufSize

/-- The tokens of `"01a1b"`. -/
def tokensAb : List Instr := [.tokenInternal, .tokenLeaf 0x61, .tokenLeaf 0x62]

theorem tokensAb_marks : ∀ i ∈ tokensAb, isMarkToken i := by
  intro i hi
  fin_cases hi <;> trivial

theorem witness_DecompressResult :
    (∀ i ∈ tokensAb, isMarkToken i) ∧
    decompressible (loaded [0x6F] (ascii "01a1b")) tokensAb [0x6F] ∧
    decompressible (tiny (loaded [0x6F] (ascii "01a1b"))) tokensAb [0x6F] ∧
    (let out := greedy (walkTokens tokensAb ([], [])).2 [] ([0x6F#8].flatMap bits8);
      out.length ≤ (loaded [0x6F] (ascii "01a1b")).cfg.obufSize ∧
      (tiny (loaded [0x6F] (ascii "01a1b"))).cfg.obufSize < out.length) :=
  ⟨tokensAb_marks, by decide +kernel, by decide +kernel, by decide +kernel⟩

theorem witness_DecompressCompletes :
    (∀ i ∈ tokensAb, isMarkToken i) ∧
    (decompressible (loaded [0x6F] (ascii "01a1b")) tokensAb [0x6F] ∧
      8 * [0x6F#8].length ≤ (loaded [0x6F] (ascii "01a1b")).cfg.obufSize) ∧
    decompressible (loaded [] (ascii "01a1b")) tokensAb [] :=
  ⟨tokensAb_marks, by decide +kernel, by decide +kernel⟩

theorem witness_DecompressFrame :
    (∃ t, (loaded [0x6F] (ascii "01a1b")).cfg.ok ∧
      exec .decompress (loaded [0x6F] (ascii "01a1b")) = .next t ∧ t.status.err = false) ∧
    (∃ t, (loaded [] (ascii "0x")).cfg.ok ∧
      exec .decompress (loaded [] (ascii "0x")) = .next t ∧ t.status.err = true) :=
  ⟨⟨_, by decide +kernel, rfl, by decide +kernel⟩, ⟨_, by decide +kernel, rfl, by decide +kernel⟩⟩

theorem witness_EngineNeverWritesItsInputs :
    ∃ t, State.reset.cfg.ok ∧ exec .tokenInternal State.reset = .next t ∧
      Instr.tokenInternal ≠ .compress ∧ ∀ opcode rsv, Instr.tokenInternal ≠ .badCommand opcode rsv :=
  ⟨_, by decide +kernel, rfl, by decide +kernel, fun _ _ h => Instr.noConfusion h⟩

theorem witness_UnpackInvertsPack :
    [0xA5#8, 0x01].length ≤ (loaded [0xA5, 0x01] []).cfg.ibufSize ∧
    (loaded [0xA5, 0x01] []).holds .ibuf [0xA5, 0x01] ∧ (zeros 8).length = 8 := by decide +kernel

theorem witness_LongBufferNeverMatches :
    ∀ p ∈ [([true, false], 0x61#8)], p.1.length ≤ [false, false].length := by decide +kernel

theorem witness_GreedyDecodesConcatenation :
    let inv : List (Bits × Byte) := [([false], 0x61), ([true, false], 0x62), ([true, true], 0x63)]
    (∀ p ∈ inv, p.1 ≠ []) ∧ (∀ p ∈ inv, ∀ q ∈ inv, p.1 <+: q.1 → p.1 = q.1) ∧
      ∀ c ∈ [([true, true], 0x63#8), ([false], 0x61)], invGet c.1 inv = some c.2 := by decide +kernel

/-! The laws of the two commands together. -/

theorem witness_DictionaryDescribesCodebook :
    ∃ t, compressible (compressing "aab") (ascii "aab") ∧
      exec .compress (compressing "aab") = .next t ∧ t.status.err = false :=
  ⟨_, by decide +kernel, rfl, by decide +kernel⟩

theorem witness_RoundTripLaw :
    let s := compressing "aaab"
    let u := running 0x00000002 (loaded [0xE0] (ascii "01b1a"))
    ∃ t, exec .compress s = .next t ∧ compressible s (ascii "aaab") ∧ t.status.err = false ∧
      t.holds .obuf [0xE0] ∧ t.outLen.toNat = [0xE0#8].length ∧ t.holds .dbuf (ascii "01b1a") ∧
      t.dictLen.toNat = (ascii "01b1a").length ∧ u.cfg = s.cfg ∧ u.inputIs [0xE0] ∧
      u.dictionaryIs (ascii "01b1a") ∧ [0xE0#8].length ≤ s.cfg.ibufSize ∧
      2 ≤ distinct (ascii "aaab") := ⟨_, rfl, by decide +kernel⟩

/-- The two other cases of RoundTripLaw: one distinct symbol, and output that does not fit. -/
theorem witness_RoundTripLaw_one_symbol_overflow :
    let s := tiny (compressing "aa")
    let u := running 0x00000002 (tiny (loaded [0xC0] (ascii "1a")))
    ∃ t, exec .compress s = .next t ∧ compressible s (ascii "aa") ∧ t.status.err = false ∧
      t.holds .obuf [0xC0] ∧ t.outLen.toNat = [0xC0#8].length ∧ t.holds .dbuf (ascii "1a") ∧
      t.dictLen.toNat = (ascii "1a").length ∧ u.cfg = s.cfg ∧ u.inputIs [0xC0] ∧
      u.dictionaryIs (ascii "1a") ∧ [0xC0#8].length ≤ s.cfg.ibufSize ∧
      distinct (ascii "aa") = 1 ∧ s.cfg.obufSize < (ascii "aa").length := ⟨_, rfl, by decide +kernel⟩

/-! Invariants. -/

theorem witness_StepKeepsInvariant :
    (∃ t, State.reset.Inv ∧ step State.reset = .next t) ∧
    (∃ t, (parsing (ascii "01a")).Inv ∧ step (parsing (ascii "01a")) = .next t) :=
  ⟨⟨_, by decide +kernel, rfl⟩, ⟨_, by decide +kernel, rfl⟩⟩

/-- A codebook's bounds, checked entry by entry. -/
theorem codes_of_option {o : Option Bits} (h : o.all (fun c => decide (1 ≤ c.length ∧ c.length ≤ 255)) = true) :
    ∀ c, o = some c → 1 ≤ c.length ∧ c.length ≤ 255 := by
  intro c hc
  subst hc
  simpa using h

/-- The tree and the code of `"aab"` in a running block. -/
def treeState : State :=
  { running 0x00000001 State.reset with
    eng := { Engine.reset with
      node := [.leaf 0x61 2, .leaf 0x62 1, .internal 3 1 0], work := [2], root := 2,
      code := codeTable [(0x62, [false]), (0x61, [true])] } }

theorem treeState_nodes : ∀ h, (hh : h < treeState.eng.node.length) →
    nodeLegal treeState.eng.node h treeState.eng.node[h] := by
  intro h hh
  change h < 3 at hh
  match h, hh with
  | 0, _ => trivial
  | 1, _ => trivial
  | 2, _ => exact ⟨by decide, by decide, by decide⟩

theorem treeState_codes : ∀ x, (hx : x < 256) →
    (treeState.eng.code[x]).all (fun c => decide (1 ≤ c.length ∧ c.length ≤ 255)) = true := by
  decide +kernel

theorem witness_StepKeepsTreeAndCodeBounds :
    treeState.treeLegal ∧ ∃ t, step treeState = .next t :=
  ⟨⟨by decide, by decide, treeState_nodes, fun x hx => codes_of_option (treeState_codes x hx)⟩,
    ⟨_, rfl⟩⟩

end Sys2Proof.Tests
end

section
/-! The decoder of command words (R37, R39). -/

namespace Sys2Proof

/-- A command word is made of its two fields (R37). -/
theorem cmdWord_fields (w : Word) : cmdWord (cmdOpcode w) (cmdRsv w) = w := by
  refine BitVec.eq_of_getLsbD_eq fun i hi => ?_
  rw [cmdWord, BitVec.getLsbD_append]
  by_cases h : i < 8
  · simp [cmdOpcode, h]
  · have h24 : i - 8 < 24 := by omega
    simp [cmdRsv, h, h24, Nat.add_sub_cancel' (Nat.le_of_not_lt h)]

/-- What a command word decodes to (R37, R39). -/
theorem decodeCommand_cases (w : Word) :
    (w = 0x00000001 ∧ decodeCommand w = .compress) ∨
    (w = 0x00000002 ∧ decodeCommand w = .decompress) ∨
    decodeCommand w = .badCommand (cmdOpcode w) (cmdRsv w) := by
  have hw := cmdWord_fields w
  unfold decodeCommand
  split
  · next h => exact .inl ⟨by rw [← hw, h.1, h.2]; rfl, rfl⟩
  · split
    · next h => exact .inr (.inl ⟨by rw [← hw, h.1, h.2]; rfl, rfl⟩)
    · exact .inr (.inr rfl)

end Sys2Proof
end

section
/-!
The registers a host reads and writes (R12 to R18), and what one host access, one host turn and one
step can do: an inversion lemma each, from which the invariants follow.
-/

namespace Sys2Proof.Machine

theorem Phase.not_idle_busy {ph : Phase} (hi : ph = .idle) (hb : ph = .busy) : False := by
  cases hi.symm.trans hb

/-! Registers. -/

theorem Reg.ofOffset_offset (r : Reg) : Reg.ofOffset r.offset = some r := by
  cases r <;> rfl

theorem Reg.offset_lt (r : Reg) : r.offset < 0x100000 := by
  cases r <;> decide

theorem Reg.offset_mod (r : Reg) : r.offset % 4 = 0 := by
  cases r <;> rfl

theorem Reg.eq_offset_of_ofOffset {off : Nat} {r : Reg} (h : Reg.ofOffset off = some r) :
    off = r.offset := by
  unfold Reg.ofOffset at h
  split at h <;> cases h <;> rfl

theorem readRegisterAt_offset (r : Reg) (s : State) : readRegisterAt r.offset s = regRead r s := by
  simp [readRegisterAt, Reg.ofOffset_offset]

/-- A host read at a register offset is the register's value, and changes nothing. -/
theorem step_readRegister {s : State} {ts : List Turn} {rest : List Stmt} {off : Nat} {x : Var}
    (hr : s.resetIn = false) (ho : off < 0x100000) (hm : off % 4 = 0)
    (h : hostAccess s ts rest .w32 off (.read x)) :
    step s = .next (bindVar x (readRegisterAt off (afterStatement s ts rest))
      (afterStatement s ts rest)) := by
  rw [step_read h (by omega) (permitted_word hm)]
  simp [busRead, hr, regionOf_registers ho]

/-- A host write at a register offset. -/
theorem step_writeRegister {s : State} {ts : List Turn} {rest : List Stmt} {off : Nat} {v : Word}
    (hr : s.resetIn = false) (ho : off < 0x100000) (hm : off % 4 = 0)
    (h : hostAccess s ts rest .w32 off (.write (.imm v))) :
    step s = writeRegisterAt off v (afterStatement s ts rest) := by
  rw [step_write h (by omega) (permitted_word hm)]
  simp [busWrite, hr, regionOf_registers ho]

/-! A host write. -/

/-- What a permitted host write at an offset can do. -/
inductive WriteEffect (off : Nat) (s : State) : State → Prop
  | ignored : WriteEffect off s s
  | store (m : Memory) (idle : s.phase = .idle) (legal : s.memLegal → (s.withMem m).memLegal) :
      WriteEffect off s (s.withMem m)
  | inLen (v : Word) (idle : s.phase = .idle) : WriteEffect off s { s with inLen := v }
  | dictLen (v : Word) (idle : s.phase = .idle) : WriteEffect off s { s with dictLen := v }
  | start (v : Word) (legal : v = 0x00000001 ∨ v = 0x00000002) (register : off = 0)
      (idle : s.phase = .idle) (released : s.resetIn = false) :
      WriteEffect off s (startCommand v s)
  | badCommand (v : Word) (idle : s.phase = .idle) :
      WriteEffect off s { s with cmd := v, status := Status.failed .badCommand }

theorem exec_badCommand_idle {s : State} (hi : s.phase = .idle) (opcode : BitVec 8)
    (rsv : BitVec 24) : exec (.badCommand opcode rsv) s =
      .next { s with cmd := cmdWord opcode rsv, status := Status.failed .badCommand } := by
  simp [exec, execBadCommand, hi]

theorem exec_badCommand_busy {s : State} (hb : s.phase = .busy) (opcode : BitVec 8)
    (rsv : BitVec 24) : exec (.badCommand opcode rsv) s = .next s := by
  simp [exec, execBadCommand, hb]

theorem writeCommand_effect {s t : State} {v : Word} (hi : s.phase = .idle)
    (hr : s.resetIn = false) (h : writeCommand v s = .next t) : WriteEffect 0 s t := by
  unfold writeCommand at h
  rcases decodeCommand_cases v with ⟨hv, hd⟩ | ⟨hv, hd⟩ | hd
  · simp only [hd] at h
    cases h
    exact .start v (.inl hv) rfl hi hr
  · simp only [hd] at h
    cases h
    exact .start v (.inr hv) rfl hi hr
  · simp only [hd, exec_badCommand_idle hi, cmdWord_fields] at h
    cases h
    exact .badCommand v hi

theorem writeRegisterAt_effect {off : Nat} {v : Word} {s t : State} (hi : s.phase = .idle)
    (hr : s.resetIn = false) (h : writeRegisterAt off v s = .next t) : WriteEffect off s t := by
  unfold writeRegisterAt at h
  split at h
  · next hb => exact (Phase.not_idle_busy hi hb).elim
  · split at h
    · next hc =>
      rw [Reg.eq_offset_of_ofOffset hc]
      exact writeCommand_effect hi hr h
    · cases h
      exact .inLen v hi
    · cases h
      exact .dictLen v hi
    all_goals
      cases h
      exact .ignored

@[simp] theorem memWrite_phase (b : Buf) (i : Nat) (v : Byte) (s : State) :
    (memWrite b i v s).phase = s.phase := by
  rw [memWrite_eq]
  rfl

theorem hostWriteByte_idle {s : State} (hi : s.phase = .idle) (b : Buf) (i : Nat) (v : Byte) :
    hostWriteByte b i v s = memWrite b i v s := by
  simp [hostWriteByte, hi]

/-- A 32-bit window write of an IDLE block stores its four bytes in turn. -/
theorem hostWriteWord_idle {s : State} (hi : s.phase = .idle) (b : Buf) (i : Nat) (w : Word) :
    hostWriteWord b i w s = memWriteN b i
      [byteOfWord w 0, byteOfWord w 1, byteOfWord w 2, byteOfWord w 3] s := by
  simp [hostWriteWord, memWriteN, hostWriteByte_idle, hi]

theorem memWriteN_effect (off : Nat) (b : Buf) (i : Nat) (vs : List Byte) {s : State}
    (hi : s.phase = .idle) : WriteEffect off s (memWriteN b i vs s) := by
  have hl : s.memLegal → (memWriteN b i vs s).memLegal := fun h => memLegal_memWriteN h b i vs
  rw [memWriteN_eq] at hl ⊢
  exact .store _ hi hl

/-- What a permitted host write can do. -/
theorem busWrite_effect {w : Width} {off : Nat} {v : Word} {s t : State}
    (h : busWrite w off v s = .next t) : WriteEffect off s t := by
  cases hi : s.phase with
  | busy =>
    rw [busWrite_busy hi] at h
    cases h
    exact .ignored
  | idle =>
    cases hr : s.resetIn with
    | true =>
      rw [busWrite_reset hr] at h
      cases h
      exact .ignored
    | false =>
      simp only [busWrite, hr, Bool.false_eq_true, if_false] at h
      split at h
      · exact writeRegisterAt_effect hi hr h
      · cases h
        exact .ignored
      · split at h
        · cases h
          rw [hostWriteByte_idle hi]
          exact memWriteN_effect off _ _ [_] hi
        all_goals
          cases h
          rw [hostWriteWord_idle hi]
          exact memWriteN_effect off _ _ _ hi

/-! The host's turn. -/

/-- What the host's turn can do: its statement reads, expands or writes. -/
inductive HostEffect (s : State) : State → Prop
  | quiet (prog : List Stmt) (vars : List (Var × Word)) (draws : Nat) :
      HostEffect s { s with prog := prog, vars := vars, draws := draws }
  | wrote {t : State} (a : Access) (rest : List Stmt) (v : Operand) (off : Nat)
      (statement : s.prog = .access a :: rest) (write : a.dir = .write v)
      (decoded : decodeAddr s.cfg a.addr = some off) (allowed : permitted a.width off = true)
      (effect : WriteEffect off { s with prog := rest } t) : HostEffect s t

theorem busRead_quiet {s t : State} (rest : List Stmt) (x : Var) (w : Word)
    (h : sameButDraws { s with prog := rest } t) : HostEffect s (bindVar x w t) := by
  obtain ⟨n, rfl⟩ := h
  exact .quiet rest _ n

theorem busAccess_effect {s t : State} {a : Access} {rest : List Stmt}
    (hp : s.prog = .access a :: rest) (h : busAccess a { s with prog := rest } = .next t) :
    HostEffect s t := by
  unfold busAccess at h
  split at h
  · cases h
  · next off hoff =>
    split at h
    · cases h
    · next hperm =>
      split at h
      · cases h
        exact busRead_quiet rest _ _ (busRead_frame _ _ _)
      · next v hv =>
        split at h
        · cases h
        · exact .wrote a rest v off hp hv hoff hperm (busWrite_effect h)

theorem pollOnce_effect (x : Var) (rest : List Stmt) (s : State) :
    HostEffect s (pollOnce x rest s) := by
  obtain ⟨n, hn⟩ := busRead_frame .w32 Reg.status.offset s
  simp only [pollOnce, hn]
  exact .quiet _ _ n

theorem expandStmt_effect {n : Operand} {expansion : Nat → List Stmt} {rest : List Stmt}
    {s t : State} (h : expandStmt n expansion rest s = .next t) : HostEffect s t := by
  rcases expandStmt_cases n expansion rest s with ⟨v, -, he⟩ | ⟨-, he⟩
  · rw [he] at h
    cases h
    exact .quiet _ _ _
  · rw [he] at h
    cases h

/-- What the host's turn can do. -/
theorem hostTurn_effect {s t : State} (h : hostTurn s = .next t) : HostEffect s t := by
  unfold hostTurn at h
  split at h
  · cases h
    exact .quiet _ _ _
  · next hp => exact busAccess_effect hp h
  · cases h
    exact pollOnce_effect _ _ _
  · exact expandStmt_effect h
  · exact expandStmt_effect h

/-! One step. -/

/-- The state once the schedule has given the turn. -/
def atTurn (s : State) : State := { s with schedule := (nextTurn s).2 }

/-- What a step can do, turn by turn. -/
inductive StepEffect (s : State) : State → Prop
  | host {t : State} (turn : (nextTurn s).1 = .host) (effect : HostEffect (atTurn s) t) :
      StepEffect s t
  | engineWaits (turn : (nextTurn s).1 = .engine) (waits : s.resetIn = true ∨ s.phase = .idle) :
      StepEffect s (atTurn s)
  | engineRuns {t : State} (turn : (nextTurn s).1 = .engine) (busy : s.phase = .busy)
      (released : s.resetIn = false) (run : engineRun (atTurn s) = .next t) : StepEffect s t
  | assertReset (turn : (nextTurn s).1 = .assertReset) : StepEffect s (assertReset (atTurn s))
  | releaseReset (turn : (nextTurn s).1 = .releaseReset) : StepEffect s (releaseReset (atTurn s))

/-- What a step can do. -/
theorem step_effect {s t : State} (h : step s = .next t) : StepEffect s t := by
  have ht : takeTurn (nextTurn s).1 (atTurn s) = .next t := h
  cases hturn : (nextTurn s).1 with
  | host =>
    rw [hturn] at ht
    exact .host hturn (hostTurn_effect ht)
  | engine =>
    rw [hturn, takeTurn, engineTurn] at ht
    split at ht
    · next hr hb => exact .engineRuns hturn hb hr ht
    · next hi =>
      cases ht
      exact .engineWaits hturn (.inr hi)
    · next hr =>
      cases ht
      exact .engineWaits hturn (.inl hr)
  | assertReset =>
    rw [hturn] at ht
    cases ht
    exact .assertReset hturn
  | releaseReset =>
    rw [hturn] at ht
    cases ht
    exact .releaseReset hturn

/-- A property of the state that does not speak of the schedule is kept by every step if every turn
keeps it. -/
theorem step_keeps {P : State → Prop} (schedule : ∀ s, P s → P (atTurn s))
    (host : ∀ s t, HostEffect s t → P s → P t)
    (engine : ∀ s t, s.phase = .busy → engineRun s = .next t → P s → P t)
    (asserted : ∀ s, P s → P (assertReset s)) (released : ∀ s, P s → P (releaseReset s))
    {s t : State} (h : step s = .next t) (hs : P s) : P t := by
  have hs' := schedule s hs
  cases step_effect h with
  | host _ effect => exact host _ _ effect hs'
  | engineWaits _ _ => exact hs'
  | engineRuns _ busy _ run => exact engine (atTurn s) t busy run hs'
  | assertReset _ => exact asserted _ hs'
  | releaseReset _ => exact released _ hs'

end Sys2Proof.Machine
end

section
/-!
What a command or a token leaves (R57 to R62, R78 to R80, R86, R88): one relation, `CommandEffect`, that
each part of the pseudocode meets and that composes.
-/

namespace Sys2Proof.Machine

/-- The state a pseudocode ends in, with an error or without. -/
def endState : Except Raised State → State
  | .ok s => s
  | .error (_, s) => s

@[simp] theorem endState_ok (s : State) : endState (.ok s) = s := rfl

@[simp] theorem endState_error (e : ErrCode) (s : State) : endState (.error (e, s)) = s := rfl

/-! What the invariants of the working state speak of. -/

theorem parserLegal_congr {s t : State} (hc : t.cfg = s.cfg) (hp : t.eng.path = s.eng.path)
    (hi : t.eng.inv = s.eng.inv) (h : s.parserLegal) : t.parserLegal := by
  unfold State.parserLegal
  rw [hc, hp, hi]
  exact h

theorem treeLegal_congr {s t : State} (hn : t.eng.node = s.eng.node) (hw : t.eng.work = s.eng.work)
    (hc : t.eng.code = s.eng.code) (h : s.treeLegal) : t.treeLegal := by
  unfold State.treeLegal
  rw [hw, hc]
  simp only [hn]
  exact h

/-! The parser. -/

/-- The keys of INV after an insertion: the new key last, or the old keys when it was one of them. -/
theorem invSet_keys (key : Bits) (v : Byte) (inv : List (Bits × Byte)) :
    (invSet key v inv).map Prod.fst =
      if key ∈ inv.map Prod.fst then inv.map Prod.fst else inv.map Prod.fst ++ [key] := by
  induction inv with
  | nil => rfl
  | cons p inv ih =>
    unfold invSet
    by_cases hp : p.1 = key
    · simp [hp]
    · simp only [hp, if_false, List.map_cons, ih, List.mem_cons, Ne.symm hp, false_or]
      split <;> rfl

theorem leafKey_ne_nil (path : Bits) : leafKey path ≠ [] := by
  unfold leafKey
  split
  · simp
  · assumption

theorem leafKey_length (path : Bits) : (leafKey path).length ≤ max 1 path.length := by
  unfold leafKey
  split <;> simp

/-- A legal INV stays legal when a key within PATH_MAX is set (R22, R59). -/
theorem invSet_legal {pathMax : Nat} {inv : List (Bits × Byte)} {key : Bits} (v : Byte)
    (hkey : key ≠ [] ∧ key.length ≤ pathMax)
    (hinv : ∀ p ∈ inv, p.1 ≠ [] ∧ p.1.length ≤ pathMax) (hnodup : (inv.map Prod.fst).Nodup) :
    (∀ p ∈ invSet key v inv, p.1 ≠ [] ∧ p.1.length ≤ pathMax) ∧
      ((invSet key v inv).map Prod.fst).Nodup := by
  have hkeys := invSet_keys key v inv
  split at hkeys
  · next hmem =>
    refine ⟨fun p hp => ?_, by rwa [hkeys]⟩
    have hp' : p.1 ∈ inv.map Prod.fst := hkeys ▸ List.mem_map_of_mem hp
    obtain ⟨q, hq, hpq⟩ := List.mem_map.mp hp'
    exact hpq ▸ hinv q hq
  · next hmem =>
    refine ⟨fun p hp => ?_, ?_⟩
    · have hp' : p.1 ∈ inv.map Prod.fst ++ [key] := hkeys ▸ List.mem_map_of_mem hp
      rcases List.mem_append.mp hp' with hp' | hp'
      · obtain ⟨q, hq, hpq⟩ := List.mem_map.mp hp'
        exact hpq ▸ hinv q hq
      · rwa [List.mem_singleton.mp hp']
    · rw [hkeys]
      exact List.Nodup.append hnodup (List.nodup_singleton key) (by simpa using hmem)

/-- `t` is `s` after a part of the parser: only working state and the draw counter differ, the tree and
the codebook are as before, and PATH and INV are still legal. -/
structure ParserMoves (s t : State) : Prop where
  frame : sameButWorking s t
  node : t.eng.node = s.eng.node
  work : t.eng.work = s.eng.work
  code : t.eng.code = s.eng.code
  legal : 1 ≤ s.cfg.pathMax → s.parserLegal → t.parserLegal

theorem sameButWorking.cfg {s t : State} (h : sameButWorking s t) : t.cfg = s.cfg := by
  obtain ⟨e, n, rfl⟩ := h
  rfl

theorem ParserMoves.refl (s : State) : ParserMoves s s :=
  ⟨.refl s, rfl, rfl, rfl, fun _ h => h⟩

theorem ParserMoves.trans {s t u : State} (h : ParserMoves s t) (k : ParserMoves t u) :
    ParserMoves s u :=
  ⟨h.frame.trans k.frame, k.node.trans h.node, k.work.trans h.work, k.code.trans h.code,
    fun hp hs => k.legal (h.frame.cfg ▸ hp) (h.legal hp hs)⟩

theorem ParserMoves.ofDraws {s t : State} (h : sameButDraws s t) : ParserMoves s t := by
  obtain ⟨n, rfl⟩ := h
  exact ⟨⟨_, n, rfl⟩, rfl, rfl, rfl, fun _ h => h⟩

theorem tokenInternal_moves (s : State) : ParserMoves s (endState (tokenInternal s)) := by
  unfold tokenInternal
  split
  · exact .refl s
  · next hfull =>
    refine ⟨sameButWorking_withEng s _, rfl, rfl, rfl, fun _ ⟨_, hinv, hnodup⟩ => ⟨?_, hinv, hnodup⟩⟩
    simp only [endState_ok, State.withEng_eng, State.withEng_cfg, List.length_append,
      List.length_singleton]
    omega

theorem tokenLeaf_moves (sym : Byte) (s : State) :
    ParserMoves s (endState (tokenLeaf sym s)) := by
  unfold tokenLeaf
  split
  · exact .refl s
  · refine ⟨sameButWorking_withEng s _, rfl, rfl, rfl, fun hmax ⟨hpath, hinv, hnodup⟩ =>
      ⟨(backtrack_length s.eng.path).trans hpath, invSet_legal sym ⟨leafKey_ne_nil _, ?_⟩ hinv hnodup⟩⟩
    exact (leafKey_length _).trans (max_le hmax hpath)

theorem runToken_moves (i : Instr) (s : State) : ParserMoves s (endState (runToken i s)) := by
  cases i with
  | tokenInternal => exact tokenInternal_moves s
  | tokenLeaf sym => exact tokenLeaf_moves sym s
  | tokenInvalid mark => exact .refl s
  | compress => exact .refl s
  | decompress => exact .refl s
  | badCommand opcode rsv => exact .refl s

theorem fetchToken_moves (s : State) : ParserMoves s (fetchToken s).2 :=
  .ofDraws (fetchToken_frame s)

theorem parseToken_moves (s : State) : ParserMoves s (endState (parseToken s)) := by
  unfold parseToken
  simp only
  split
  · exact (fetchToken_moves s).trans (runToken_moves _ _)
  · exact fetchToken_moves s

theorem parseLoop_moves (fuel : Nat) (s : State) :
    ParserMoves s (endState (parseLoop fuel s)) := by
  induction fuel generalizing s with
  | zero => exact .refl s
  | succ fuel ih =>
    have htoken := parseToken_moves s
    unfold parseLoop
    split
    · split
      · next r hr => rwa [hr] at htoken
      · next t hr =>
        rw [hr] at htoken
        exact htoken.trans (ih t)
    · exact .refl s

/-! Commands. -/

/-- The buffers a command stores bytes in (R26). -/
def Command.writes : Command → Buf → Prop
  | _, .ibuf => False
  | c, .dbuf => c = .compress
  | _, .obuf => True

/-- `t` can be what command `c`, or a part of it, leaves of `s`: the parameters, CMD, IN_LEN, the reset
input and the host are as before, for DECOMPRESS also DICT_LEN; bytes change only in the buffers the
command writes; and each invariant is kept. PHASE, STATUS and the stage are left open. -/
structure CommandEffect (c : Command) (s t : State) : Prop where
  frame : t = { t with
    cfg := s.cfg, cmd := s.cmd, inLen := s.inLen, resetIn := s.resetIn, prog := s.prog,
    vars := s.vars, schedule := s.schedule }
  dictLen : c = .decompress → t.dictLen = s.dictLen
  bytes : s.cfg.ok → ∀ b i, ¬ c.writes b → i < b.size s.cfg → t.byteAt b i = s.byteAt b i
  mem : s.memLegal → t.memLegal
  out : s.outLegal → t.outLegal
  parser : 1 ≤ s.cfg.pathMax → s.parserLegal → t.parserLegal
  tree : s.treeLegal → t.treeLegal

theorem CommandEffect.cfg {c : Command} {s t : State} (h : CommandEffect c s t) : t.cfg = s.cfg := by
  rw [h.frame]

theorem CommandEffect.cmd {c : Command} {s t : State} (h : CommandEffect c s t) : t.cmd = s.cmd := by
  rw [h.frame]

theorem CommandEffect.inLen {c : Command} {s t : State} (h : CommandEffect c s t) :
    t.inLen = s.inLen := by
  rw [h.frame]

theorem CommandEffect.resetIn {c : Command} {s t : State} (h : CommandEffect c s t) :
    t.resetIn = s.resetIn := by
  rw [h.frame]

theorem CommandEffect.refl (c : Command) (s : State) : CommandEffect c s s :=
  ⟨rfl, fun _ => rfl, fun _ _ _ _ _ => rfl, id, id, fun _ => id, id⟩

theorem CommandEffect.trans {c : Command} {s t u : State} (h : CommandEffect c s t)
    (k : CommandEffect c t u) : CommandEffect c s u where
  frame := by rw [k.frame, h.frame]
  dictLen hc := (k.dictLen hc).trans (h.dictLen hc)
  bytes hp b i hb hi :=
    (k.bytes (h.cfg ▸ hp) b i hb (h.cfg ▸ hi)).trans (h.bytes hp b i hb hi)
  mem hs := k.mem (h.mem hs)
  out hs := k.out (h.out hs)
  parser hp hs := k.parser (h.cfg ▸ hp) (h.parser hp hs)
  tree hs := k.tree (h.tree hs)

/-- A part that only changes working state and draws has a command's effect if it keeps the invariants
of the working state. -/
theorem CommandEffect.ofWorking (c : Command) {s t : State} (h : sameButWorking s t)
    (hp : 1 ≤ s.cfg.pathMax → s.parserLegal → t.parserLegal) (ht : s.treeLegal → t.treeLegal) :
    CommandEffect c s t := by
  obtain ⟨e, n, rfl⟩ := h
  exact ⟨rfl, fun _ => rfl, fun _ _ _ _ _ => rfl, id, id, hp, ht⟩

theorem ParserMoves.effect (c : Command) {s t : State} (h : ParserMoves s t) :
    CommandEffect c s t :=
  .ofWorking c h.frame h.legal (treeLegal_congr h.node h.work h.code)

theorem parseInit_effect (s : State) : CommandEffect .decompress s (parseInit s) :=
  ⟨rfl, fun _ => rfl, fun _ _ _ _ _ => rfl, id, id,
    fun _ _ => ⟨Nat.zero_le _, by simp, by simp⟩, treeLegal_congr rfl rfl rfl⟩

/-- A new bit buffer and OPOS touch no table. -/
theorem CommandEffect.ofBuffers (c : Command) {s : State} {e : Engine} (h : sameTables s.eng e) :
    CommandEffect c s (s.withEng e) := by
  obtain ⟨-, hnode, hwork, -, hcode, -, hinv, hpath, -, -⟩ := h
  exact .ofWorking c (sameButWorking_withEng s e) (fun _ => parserLegal_congr rfl hpath hinv)
    (treeLegal_congr hnode hwork hcode)

/-- An emission from an OPOS within OBUF stores bytes of OBUF only. -/
theorem Emitted.byteAt_other {s t : State} {out : List Byte} (h : Emitted s out t)
    (ho : s.eng.opos ≤ s.cfg.obufSize) (hp : s.cfg.ok) {b : Buf} {i : Nat} (hb : b ≠ .obuf)
    (hi : i < b.size s.cfg) : t.byteAt b i = s.byteAt b i := by
  have hfits := h.fits ho
  unfold State.byteAt
  rw [h.read, if_neg]
  rintro ⟨hlo, hhi⟩
  have hpos : b.offset + i - Buf.obuf.offset < Buf.obuf.size s.cfg := by
    simp only [Buf.size]
    omega
  exact hb (Buf.offset_inj hp hi hpos (by omega)).1

theorem Emitted.effect (c : Command) {s t : State} {out : List Byte} (h : Emitted s out t)
    (ho : s.eng.opos ≤ s.cfg.obufSize) : CommandEffect c s t where
  frame := by rw [h.frame]
  dictLen _ := by rw [h.frame]
  bytes hp b i hb hi := h.byteAt_other ho hp (fun hb' => hb (by rw [hb']; trivial)) hi
  mem := h.legal
  out hs := by
    rw [h.frame]
    exact hs
  parser _ := by
    obtain ⟨-, -, -, -, -, -, hinv, hpath, -, -⟩ := h.tables
    exact parserLegal_congr h.cfg hpath hinv
  tree := by
    obtain ⟨-, hnode, hwork, -, hcode, -, -, -, -, -⟩ := h.tables
    exact treeLegal_congr hnode hwork hcode

/-- OPOS stays within OBUF along an emission from OPOS = 0. -/
theorem Emitted.opos_le {s t : State} {out : List Byte} (h : Emitted s out t)
    (ho : s.eng.opos = 0) : t.eng.opos ≤ t.cfg.obufSize := by
  rw [h.opos, h.cfg]
  exact h.fits (by omega)

/-- OUT_LEN takes a number of emitted bytes (R16, R79, R81). -/
theorem CommandEffect.setOutLen (c : Command) {s : State} (ho : s.eng.opos ≤ s.cfg.obufSize) :
    CommandEffect c s { s with outLen := BitVec.ofNat 32 s.eng.opos } :=
  ⟨rfl, fun _ => rfl, fun _ _ _ _ _ => rfl, id,
    fun _ => (Nat.mod_le _ _).trans ho, fun _ => id, id⟩

theorem compressLengths_effect {s : State} (ho : s.eng.opos ≤ s.cfg.obufSize) :
    CommandEffect .compress s (compressLengths s) :=
  ⟨rfl, nofun, fun _ _ _ _ _ => rfl, id, fun _ => (Nat.mod_le _ _).trans ho, fun _ => id, id⟩

/-- Bytes of one buffer are not changed by a store in another. -/
theorem byteAt_memWriteN_other {b c : Buf} (hbc : b ≠ c) {s : State} (hp : s.cfg.ok) {j : Nat}
    (hj : j < c.size s.cfg) (i : Nat) (vs : List Byte) :
    (memWriteN b i vs s).byteAt c j = s.byteAt c j := by
  induction vs generalizing i s with
  | nil => rfl
  | cons v vs ih =>
    have hcfg : (memWrite b i v s).cfg = s.cfg := by rw [memWrite_eq]; rfl
    rw [memWriteN, ih (hcfg ▸ hp) (hcfg ▸ hj),
      byteAt_memWrite_other hp hj (fun h => hbc h.1)]

/-- A change of memory has a command's effect if it keeps the bytes of the other buffers and the
canonical form. -/
theorem CommandEffect.ofMem (c : Command) {s : State} {m : Memory}
    (hb : s.cfg.ok → ∀ b i, ¬ c.writes b → i < b.size s.cfg → (s.withMem m).byteAt b i = s.byteAt b i)
    (hm : s.memLegal → (s.withMem m).memLegal) : CommandEffect c s (s.withMem m) :=
  ⟨rfl, fun _ => rfl, hb, hm, id, fun _ => id, id⟩

theorem storeDictionary_effect (vs : List Byte) (s : State) :
    CommandEffect .compress s (memWriteN .dbuf 0 vs s) := by
  have hl : s.memLegal → (memWriteN .dbuf 0 vs s).memLegal := fun h => memLegal_memWriteN h _ 0 vs
  rw [memWriteN_eq] at hl ⊢
  exact .ofMem _ (fun hp b i hb hi =>
    byteAt_memWriteN_other (fun h => hb (by rw [← h]; rfl)) hp hi 0 vs) hl

theorem forgetBuf_effect {c : Command} {b : Buf} (hw : c.writes b) (s : State) :
    CommandEffect c s (forgetBuf b s) := by
  refine .ofMem _ (fun hp d i hd hi => ?_) (memLegal_forgetBuf · b)
  refine (read_forgetBuf b s (d.offset + i)).trans (if_neg ?_)
  rintro ⟨hlo, hhi⟩
  have hbd := Buf.offset_inj hp hi (show d.offset + i - b.offset < b.size s.cfg by omega) (by omega)
  exact hd (hbd.1 ▸ hw)

theorem errorBuffers_effect (c : Command) (e : ErrCode) (s : State) :
    CommandEffect c s (errorBuffers c e s) := by
  unfold errorBuffers
  split
  · cases c with
    | compress =>
      exact (forgetBuf_effect (b := .obuf) trivial s).trans (forgetBuf_effect (b := .dbuf) rfl _)
    | decompress => exact forgetBuf_effect (b := .obuf) trivial s
  · exact .refl c s

/-- The error completion keeps what the command keeps (R88). -/
theorem errorComplete_effect (c : Command) (e : ErrCode) (s : State) :
    CommandEffect c s (errorComplete c e s) := by
  refine (errorBuffers_effect c e s).trans ?_
  have hd : c = .decompress → (errorBuffers c e s).dictLen = s.dictLen :=
    (errorBuffers_effect c e s).dictLen
  refine ⟨?_, fun hc => ?_, fun _ _ _ _ _ => rfl, id, fun _ => Nat.zero_le _, fun _ => id, id⟩
  · rfl
  · subst hc
    exact (hd rfl).symm

theorem completeCommand_effect (c : Command) (s : State) : CommandEffect c s (completeCommand s) :=
  ⟨rfl, fun _ => rfl, fun _ _ _ _ _ => rfl, id, id, fun _ => id, id⟩

/-- A finished command leaves what its pseudocode left, but for the completion. -/
theorem finish_effect {c : Command} {s : State} {r : Except Raised State}
    (h : CommandEffect c s (endState r)) : CommandEffect c s (finish c r) := by
  cases r with
  | ok t => exact h.trans (completeCommand_effect c t)
  | error p => exact h.trans (errorComplete_effect c p.1 p.2)

theorem finishToken_effect {s : State} {r : Except Raised State}
    (h : CommandEffect .decompress s (endState r)) :
    CommandEffect .decompress s (finishToken r) := by
  cases r with
  | ok t => exact h
  | error p => exact h.trans (errorComplete_effect .decompress p.1 p.2)

/-! DECOMPRESS. -/

theorem decompressTail_effect (s : State) :
    CommandEffect .decompress s (endState (decompressTail s)) := by
  have hstart : CommandEffect .decompress s (matchStart s) := .ofBuffers _ (.refl s.eng)
  have hrun : ∀ {out t}, Emitted (matchStart s) out t → CommandEffect .decompress s t := fun h =>
    hstart.trans (h.effect _ (Nat.zero_le _))
  rcases decompressTail_cases s with ⟨-, hr⟩ | ⟨-, ⟨out, t, hr, ht⟩ | ⟨out, t, hr, ht, -⟩⟩
  · rw [hr]
    exact .refl _ s
  · rw [hr]
    exact (hrun ht).trans (.setOutLen _ (ht.opos_le rfl))
  · rw [hr]
    exact hrun ht

theorem decompressRun_effect (s : State) :
    CommandEffect .decompress s (endState (decompressRun s)) := by
  unfold decompressRun
  split
  · exact .refl _ s
  · have hparse : CommandEffect .decompress s
        (endState (parseLoop s.dictionaryLen (parseInit s))) :=
      (parseInit_effect s).trans ((parseLoop_moves _ _).effect _)
    split
    · next r hr => rwa [hr] at hparse
    · next t hr =>
      rw [hr] at hparse
      exact hparse.trans (decompressTail_effect t)

end Sys2Proof.Machine
end

section
/-!
The tree and the codebook COMPRESS builds (R48 to R53): bounds and shape, for every FREQ.
-/

namespace Sys2Proof.Machine

/-! SELECT_MIN. -/

/-- SELECT_MIN takes one handle out of the list (R49). -/
theorem selectMin_some {f : Nat → Nat} {work rest : List Nat} {a : Nat}
    (h : selectMin f work = some (a, rest)) :
    a ∈ work ∧ rest ⊆ work ∧ rest.length + 1 = work.length := by
  unfold selectMin at h
  split at h
  · cases h
  · simp only at h
    split at h
    · next k hk =>
      cases h
      have hmem := List.mem_of_find?_eq_some hk
      refine ⟨hmem, List.eraseP_subset, ?_⟩
      rw [List.length_eraseP_of_mem hmem (List.find?_some hk)]
      exact Nat.sub_add_cancel (by simp)
    · cases h

/-! TREE_BUILD. -/

/-- An entry of the arena after one node is added is an old one, or the new one. -/
theorem node_of_append_one {nodes : List Node} {new nd : Node} {h : Nat}
    (hk : (nodes ++ [new])[h]? = some nd) :
    (h < nodes.length ∧ nodes[h]? = some nd) ∨ (h = nodes.length ∧ nd = new) := by
  rw [List.getElem?_append] at hk
  split at hk
  · next hlt => exact .inl ⟨hlt, hk⟩
  · rw [List.getElem?_singleton] at hk
    split at hk
    · next hge h0 => exact .inr ⟨by omega, (Option.some.inj hk).symm⟩
    · cases hk

theorem nodeFreq_append {nodes : List Node} {h : Nat} (hh : h < nodes.length) (new : List Node) :
    nodeFreq (nodes ++ new) h = nodeFreq nodes h := by
  simp [nodeFreq, List.getElem?_append_left hh]

/-- A legal node stays legal when the arena grows. -/
theorem nodeLegal_append {nodes : List Node} {h : Nat} {nd : Node} (hh : h < nodes.length)
    (hl : nodeLegal nodes h nd) (new : List Node) : nodeLegal (nodes ++ new) h nd := by
  cases nd with
  | leaf sym freq => trivial
  | internal freq l r =>
    obtain ⟨hleft, hright, hfreq⟩ := hl
    refine ⟨hleft, hright, ?_⟩
    rw [nodeFreq_append (by omega), nodeFreq_append (by omega)]
    exact hfreq

/-- NODE and WORK during TREE_BUILD of `n` leaves: every merge adds a node and takes a handle from WORK,
the first `n` nodes are Leaves, and children are earlier nodes (R20, R50, R51). -/
structure Arena (n : Nat) (nodes : List Node) (work : List Nat) : Prop where
  count : nodes.length + work.length = 2 * n
  leaves : n ≤ nodes.length
  nonempty : 1 ≤ n → 1 ≤ work.length
  handles : ∀ h ∈ work, h < nodes.length
  legal : ∀ h nd, nodes[h]? = some nd → nodeLegal nodes h nd
  internal : ∀ h f l r, nodes[h]? = some (.internal f l r) → n ≤ h

/-- One merge keeps the arena (R50). -/
theorem Arena.merge {n : Nat} {nodes : List Node} {work work1 work2 : List Nat} {a b : Nat}
    (h : Arena n nodes work) (ha : selectMin (nodeFreq nodes) work = some (a, work1))
    (hb : selectMin (nodeFreq nodes) work1 = some (b, work2)) :
    Arena n (nodes ++ [.internal (nodeFreq nodes a + nodeFreq nodes b) a b])
      (work2 ++ [nodes.length]) := by
  obtain ⟨hawork, hsub1, hlen1⟩ := selectMin_some ha
  obtain ⟨hbwork, hsub2, hlen2⟩ := selectMin_some hb
  have hanode := h.handles a hawork
  have hbnode := h.handles b (hsub1 hbwork)
  have hcount := h.count
  refine ⟨?_, ?_, ?_, fun k hk => ?_, fun k nd hk => ?_, fun k f l r hk => ?_⟩
  · simp only [List.length_append, List.length_singleton]
    omega
  · exact h.leaves.trans (by simp)
  · simp
  · rw [List.length_append, List.length_singleton]
    rcases List.mem_append.mp hk with hk | hk
    · exact (h.handles k (hsub1 (hsub2 hk))).trans (Nat.lt_succ_self _)
    · rw [List.mem_singleton.mp hk]
      exact Nat.lt_succ_self _
  · rcases node_of_append_one hk with ⟨hlt, hold⟩ | ⟨rfl, rfl⟩
    · exact nodeLegal_append hlt (h.legal k nd hold) _
    · exact ⟨hanode, hbnode, by rw [nodeFreq_append hanode, nodeFreq_append hbnode]⟩
  · rcases node_of_append_one hk with ⟨-, hold⟩ | ⟨rfl, -⟩
    · exact h.internal k f l r hold
    · exact h.leaves

theorem mergeLoop_arena {n : Nat} (fuel : Nat) {nodes : List Node} {work : List Nat}
    (h : Arena n nodes work) :
    Arena n (mergeLoop fuel nodes work).1 (mergeLoop fuel nodes work).2 := by
  induction fuel generalizing nodes work with
  | zero => exact h
  | succ fuel ih =>
    unfold mergeLoop
    split
    · exact h
    · next ha =>
      split
      · exact h
      · next hb => exact ih (h.merge ha hb)

/-- Every node of R48 is a Leaf. -/
theorem leafNodes_leaf {freq : Vector Nat 256} {nd : Node} (h : nd ∈ leafNodes freq) :
    ∃ sym f, nd = .leaf sym f := by
  obtain ⟨x, -, hx⟩ := List.mem_filterMap.mp h
  split at hx
  · exact ⟨_, _, (Option.some.inj hx).symm⟩
  · cases hx

theorem leafNodes_length (freq : Vector Nat 256) : (leafNodes freq).length ≤ 256 :=
  (List.length_filterMap_le _ _).trans (by simp)

/-- TREE_BUILD starts from an arena of Leaves. -/
theorem leafNodes_arena (freq : Vector Nat 256) :
    Arena (leafNodes freq).length (leafNodes freq) (List.range (leafNodes freq).length) := by
  have hleaf : ∀ {h nd}, (leafNodes freq)[h]? = some nd → ∃ sym f, nd = Node.leaf sym f := fun hk =>
    leafNodes_leaf (List.mem_of_getElem? hk)
  refine ⟨by rw [List.length_range]; omega, le_rfl, by simp, by simp, fun h nd hk => ?_,
    fun h f l r hk => ?_⟩
  · obtain ⟨sym, f, rfl⟩ := hleaf hk
    trivial
  · obtain ⟨sym, f, hnd⟩ := hleaf hk
    cases hnd

theorem buildTree_arena (freq : Vector Nat 256) :
    Arena (leafNodes freq).length (buildTree freq).1 (buildTree freq).2 :=
  mergeLoop_arena _ (leafNodes_arena freq)

/-! GENERATE. -/

/-- The codes below a handle `h` are no longer than the path to `h` and the Internal nodes with handles
up to `h`, since children are earlier nodes; at the root a Leaf has the code [1] (R52, R53). -/
theorem visit_code_length {n : Nat} {nodes : List Node} {work : List Nat}
    (harena : Arena n nodes work) (fuel h : Nat) (path : Bits) :
    ∀ e ∈ (visit fuel nodes h path).1,
      1 ≤ e.2.length ∧ e.2.length ≤ max 1 (path.length + (h + 1 - n)) := by
  induction fuel generalizing h path with
  | zero => simp [visit]
  | succ fuel ih =>
    unfold visit
    split
    · simp
    · intro e he
      rw [List.mem_singleton.mp he]
      simp only
      split
      · simp
      · next hpath =>
        have := List.length_pos_iff.mpr hpath
        omega
    · next f l r hnode =>
      obtain ⟨hl, hr, -⟩ := harena.legal h _ hnode
      have hn := harena.internal h f l r hnode
      intro e he
      rcases List.mem_append.mp he with he | he
      · have := ih l (path ++ [false]) e he
        rw [List.length_append, List.length_singleton] at this
        omega
      · have := ih r (path ++ [true]) e he
        rw [List.length_append, List.length_singleton] at this
        omega

/-- With no node there is no code. -/
theorem visit_nil (fuel h : Nat) (path : Bits) : visit fuel [] h path = ([], []) := by
  cases fuel <;> rfl

/-- Every code of a tree built by TREE_BUILD has 1 to 255 bits (R21, R52). -/
theorem buildTree_code_length (freq : Vector Nat 256) (fuel : Nat) :
    ∀ e ∈ (visit fuel (buildTree freq).1 ((buildTree freq).2.headD 0) []).1,
      1 ≤ e.2.length ∧ e.2.length ≤ 255 := by
  intro e he
  have harena := buildTree_arena freq
  have hn := leafNodes_length freq
  have hcount := harena.count
  have hcode := visit_code_length harena fuel _ [] e he
  cases hwork : (buildTree freq).2 with
  | nil =>
    have hnodes : (buildTree freq).1 = [] := by
      have := harena.nonempty
      rw [hwork, List.length_nil] at this hcount
      exact List.length_eq_zero_iff.mp (by omega)
    rw [hnodes, visit_nil] at he
    cases he
  | cons root rest =>
    have hroot := harena.handles root (by rw [hwork]; exact List.mem_cons_self)
    rw [hwork, List.headD_cons, List.length_nil] at hcode
    rw [hwork, List.length_cons] at hcount
    omega

/-- What holds of every code GENERATE finds holds of every entry of CODE. -/
theorem codeTable_forall {P : Bits → Prop} (entries : List (Byte × Bits))
    (h : ∀ e ∈ entries, P e.2) :
    ∀ x, (hx : x < 256) → ∀ c, (codeTable entries)[x] = some c → P c := by
  suffices hfold : ∀ code : Vector (Option Bits) 256,
      (∀ x, (hx : x < 256) → ∀ c, code[x] = some c → P c) →
      ∀ x, (hx : x < 256) → ∀ c, (entries.foldl setCode code)[x] = some c → P c from
    hfold _ (by simp)
  induction entries with
  | nil => exact fun code hcode => hcode
  | cons e entries ih =>
    intro code hcode
    refine ih (fun e' he' => h e' (List.mem_cons_of_mem _ he')) _ fun x hx c hc => ?_
    rw [setCode, Vector.getElem_set] at hc
    split at hc
    · rw [← Option.some.inj hc]
      exact h e List.mem_cons_self
    · exact hcode x hx c hc

/-- The working state of COMPRESS after GENERATE meets the bounds of R20, R21 and R52, whatever the
input. -/
theorem treeLegal_compressTables (s : State) : (compressTables s).treeLegal := by
  have hlegal : ∀ t : State, (generate (treeBuild t)).treeLegal := by
    intro t
    have harena := buildTree_arena t.eng.freq
    have hn := leafNodes_length t.eng.freq
    have hcount := harena.count
    refine ⟨?_, ?_, fun h hh => harena.legal h _ (List.getElem?_eq_getElem hh), ?_⟩
    · show (buildTree t.eng.freq).1.length ≤ 511
      have := harena.nonempty
      omega
    · show (buildTree t.eng.freq).2.length ≤ 256
      have := harena.leaves
      omega
    · exact codeTable_forall _ (buildTree_code_length _ _)
  exact hlegal _

/-! COMPRESS. -/

theorem compressTables_effect (s : State) : CommandEffect .compress s (compressTables s) := by
  refine .ofWorking _ (compressTables_frame s) (fun _ => ?_) fun _ => treeLegal_compressTables s
  obtain ⟨n, hread⟩ := memReadN_frame .ibuf 0 s.inputLen s
  refine parserLegal_congr (compressTables_frame s).cfg ?_ ?_ <;>
  · simp only [compressTables, hread]
    rfl

theorem packStart_effect (s : State) : CommandEffect .compress s (packStart s) :=
  (storeDictionary_effect s.eng.dict s).trans (.ofBuffers _ (.refl _))

theorem compressRun_effect (s : State) :
    CommandEffect .compress s (endState (compressRun s)) := by
  have hrun : ∀ {out t}, Emitted (packStart (compressTables s)) out t → CommandEffect .compress s t :=
    fun h => ((compressTables_effect s).trans (packStart_effect _)).trans
      (h.effect _ (Nat.zero_le _))
  rcases compressRun_cases s with ⟨-, hr⟩ | ⟨-, -, hr⟩ | ⟨-, -, ⟨out, t, hr, ht⟩ | ⟨out, t, hr, ht, -⟩⟩
  · rw [hr]
    exact .refl _ s
  · rw [hr]
    exact .refl _ s
  · rw [hr]
    exact (hrun ht).trans (compressLengths_effect (ht.opos_le rfl))
  · rw [hr]
    exact hrun ht

end Sys2Proof.Machine
end

section
/-!
What `exec` and the engine's turn leave, and how they end (R76, R88).
-/

namespace Sys2Proof.Machine

/-! Effects. -/

/-- The command whose effect an instruction has: COMPRESS its own, every other one at most
DECOMPRESS's. -/
def commandOf : Instr → Command
  | .compress => .compress
  | _ => .decompress

/-- What an instruction other than BAD_COMMAND leaves. -/
theorem exec_effect {i : Instr} {s t : State} (hi : ∀ opcode rsv, i ≠ .badCommand opcode rsv)
    (h : exec i s = .next t) : CommandEffect (commandOf i) s t := by
  cases i with
  | compress =>
    cases h
    exact finish_effect (compressRun_effect s)
  | decompress =>
    cases h
    exact finish_effect (decompressRun_effect s)
  | badCommand opcode rsv => exact absurd rfl (hi opcode rsv)
  | tokenInternal =>
    cases h
    exact finishToken_effect ((tokenInternal_moves s).effect _)
  | tokenLeaf sym =>
    cases h
    exact finishToken_effect ((tokenLeaf_moves sym s).effect _)
  | tokenInvalid mark =>
    cases h
    exact finishToken_effect (.refl _ s)

/-! Ends. -/

/-- The errors a command can raise: never the code 0 (R87). -/
def raisesError (r : Except Raised State) : Prop := ∀ e s, r = .error (e, s) → e ≠ .none

theorem raisesError_error {e : ErrCode} {s : State} (h : e ≠ .none) :
    raisesError (.error (e, s)) := by
  rintro e' s' h'
  cases h'
  exact h

theorem raisesError_ok (s : State) : raisesError (.ok s) := fun _ _ h => by cases h

theorem ParsesOnly.raisesError {s : State} {r : Except Raised State} (h : ParsesOnly s r) :
    raisesError r := by
  rcases h with ⟨t, rfl, -⟩ | ⟨e, t, rfl, -, he⟩
  · exact raisesError_ok t
  · exact raisesError_error (by rcases he with rfl | rfl | rfl <;> decide)

theorem compressRun_raisesError (s : State) : raisesError (compressRun s) := by
  rcases compressRun_cases s with ⟨-, hr⟩ | ⟨-, -, hr⟩ | ⟨-, -, ⟨_, t, hr, -⟩ | ⟨_, t, hr, -, -⟩⟩ <;>
    rw [hr]
  · exact raisesError_error (by decide)
  · exact raisesError_error (by decide)
  · exact raisesError_ok _
  · exact raisesError_error (by decide)

theorem decompressTail_raisesError (s : State) : raisesError (decompressTail s) := by
  rcases decompressTail_cases s with ⟨-, hr⟩ | ⟨-, ⟨_, t, hr, -⟩ | ⟨_, t, hr, -, -⟩⟩ <;> rw [hr]
  · exact raisesError_error (by decide)
  · exact raisesError_ok _
  · exact raisesError_error (by decide)

theorem decompressRun_raisesError (s : State) : raisesError (decompressRun s) := by
  have hparse := (parseLoop_parses s.dictionaryLen (parseInit s)).raisesError
  unfold decompressRun
  split
  · exact raisesError_error (by decide)
  · split
    · next r hr => rwa [hr] at hparse
    · exact decompressTail_raisesError _

/-- PHASE, the stage and STATUS after a completion (R13, R76, R88). -/
def Completed (t : State) : Prop :=
  t.phase = .idle ∧ t.stage = .command ∧
    (t.status = Status.succeeded ∨ ∃ e, e ≠ .none ∧ t.status = Status.failed e)

theorem errorComplete_completes (c : Command) {e : ErrCode} (he : e ≠ .none) (s : State) :
    Completed (errorComplete c e s) :=
  ⟨rfl, rfl, .inr ⟨e, he, rfl⟩⟩

theorem finish_completes (c : Command) {r : Except Raised State} (h : raisesError r) :
    Completed (finish c r) := by
  cases r with
  | ok t => exact ⟨rfl, rfl, .inl rfl⟩
  | error p => exact errorComplete_completes c (h p.1 p.2 rfl) p.2

/-- A token completes the command with an error, or the parser goes on. -/
theorem finishToken_ends {s : State} {r : Except Raised State} (h : ParsesOnly s r) :
    Completed (finishToken r) ∨ sameButWorking s (finishToken r) := by
  have he := h.raisesError
  rcases h with ⟨t, rfl, ht⟩ | ⟨e, t, rfl, -, -⟩
  · exact .inr ht
  · exact .inl (errorComplete_completes _ (he e t rfl) t)

/-- While BUSY an instruction completes the command, or registers and buffers are as before. -/
theorem exec_ends {i : Instr} {s t : State} (hb : s.phase = .busy) (h : exec i s = .next t) :
    Completed t ∨ sameButWorking s t := by
  cases i with
  | compress =>
    cases h
    exact .inl (finish_completes _ (compressRun_raisesError s))
  | decompress =>
    cases h
    exact .inl (finish_completes _ (decompressRun_raisesError s))
  | badCommand opcode rsv =>
    rw [exec_badCommand_busy hb] at h
    cases h
    exact .inr (.refl s)
  | tokenInternal =>
    cases h
    exact finishToken_ends (tokenInternal_parses s)
  | tokenLeaf sym =>
    cases h
    exact finishToken_ends (tokenLeaf_parses sym s)
  | tokenInvalid mark =>
    cases h
    exact finishToken_ends (invalid_parses s)

/-! The engine's turn. -/

/-- What the engine's turn of a running command can do: it has a command's effect, and it completes the
command or leaves every register and buffer byte as it was. -/
structure EngineEffect (s t : State) : Prop where
  effect : ∃ c, CommandEffect c s t
  ends : Completed t ∨ sameButWorking s t

theorem exec_engineEffect {i : Instr} {s t : State} (hb : s.phase = .busy)
    (h : exec i s = .next t) : EngineEffect s t := by
  refine ⟨?_, exec_ends hb h⟩
  by_cases hi : ∃ opcode rsv, i = .badCommand opcode rsv
  · obtain ⟨opcode, rsv, rfl⟩ := hi
    rw [exec_badCommand_busy hb] at h
    cases h
    exact ⟨.compress, .refl _ s⟩
  · exact ⟨_, exec_effect (fun opcode rsv hbad => hi ⟨opcode, rsv, hbad⟩) h⟩

/-- What follows a fetch has the fetch's and its own effect. -/
theorem EngineEffect.afterFetch {s u t : State} (hf : sameButDraws s u) (h : EngineEffect u t) :
    EngineEffect s t := by
  obtain ⟨⟨c, hc⟩, hends⟩ := h
  exact ⟨⟨c, ((ParserMoves.ofDraws hf).effect c).trans hc⟩, hends.imp_right hf.working.trans⟩

theorem engineToken_effect {s t : State} (hb : s.phase = .busy) (h : engineToken s = .next t) :
    EngineEffect s t := by
  have hf := fetchToken_frame s
  have hb' : (fetchToken s).2.phase = .busy := by
    obtain ⟨n, hn⟩ := hf
    rw [hn]
    exact hb
  refine .afterFetch hf ?_
  unfold engineToken at h
  simp only at h
  split at h
  · exact exec_engineEffect hb' h
  · cases h
    exact ⟨⟨_, errorComplete_effect .decompress _ _⟩,
      .inl (errorComplete_completes _ (by decide) _)⟩

theorem engineRun_effect {s t : State} (hb : s.phase = .busy) (h : engineRun s = .next t) :
    EngineEffect s t := by
  unfold engineRun at h
  split at h
  · exact exec_engineEffect hb h
  · split at h
    · exact engineToken_effect hb h
    · cases h
      exact ⟨⟨_, finish_effect (decompressTail_effect s)⟩,
        .inl (finish_completes _ (decompressTail_raisesError s))⟩

/-! What each turn keeps of the parameters, PHASE and the invariant. -/

theorem WriteEffect.cfg {off : Nat} {s t : State} (h : WriteEffect off s t) : t.cfg = s.cfg := by
  cases h <;> rfl

theorem HostEffect.cfg {s t : State} (h : HostEffect s t) : t.cfg = s.cfg := by
  cases h with
  | quiet => rfl
  | wrote _ _ _ _ _ _ _ _ effect => exact effect.cfg

/-- No step changes a parameter (R5, R17). -/
theorem step_cfg {s t : State} (h : step s = .next t) : t.cfg = s.cfg := by
  refine step_keeps (P := fun u => u.cfg = s.cfg) (fun _ => id) (fun u v hh hu => hh.cfg.trans hu)
    (fun u v hb hr hu => ?_) (fun _ => id) (fun _ => id) h rfl
  obtain ⟨c, hc⟩ := (engineRun_effect hb hr).effect
  exact hc.cfg.trans hu

/-- No host write changes the working state. -/
theorem WriteEffect.eng {off : Nat} {s t : State} (h : WriteEffect off s t) : t.eng = s.eng := by
  cases h <;> rfl

theorem HostEffect.eng {s t : State} (h : HostEffect s t) : t.eng = s.eng := by
  cases h with
  | quiet => rfl
  | wrote _ _ _ _ _ _ _ _ effect => exact effect.eng

theorem HostEffect.treeLegal {s t : State} (h : HostEffect s t) (hs : s.treeLegal) :
    t.treeLegal :=
  treeLegal_congr (by rw [h.eng]) (by rw [h.eng]) (by rw [h.eng]) hs

/-- The empty working state of reset meets the bounds of the tree and the codebook (log 8). -/
theorem treeLegal_reset {s : State} (h : s.eng = Engine.reset) : s.treeLegal := by
  refine treeLegal_congr (s := State.reset) (by rw [h]; rfl) (by rw [h]; rfl) (by rw [h]; rfl)
    ⟨Nat.zero_le _, Nat.zero_le _, fun h hh => absurd hh (Nat.not_lt_zero h), fun x hx c hc => ?_⟩
  simp [State.reset, Engine.reset] at hc

/-- The empty working state of reset meets the parser's bounds (log 8). -/
theorem parserLegal_reset {s : State} (h : s.eng = Engine.reset) : s.parserLegal := by
  unfold State.parserLegal
  rw [h]
  exact ⟨Nat.zero_le _, by simp [Engine.reset], List.nodup_nil⟩

theorem Completed.statusLegal {t : State} (h : Completed t) : t.statusLegal := by
  obtain ⟨hphase, -, hstatus⟩ := h
  refine ⟨fun hb => (Phase.not_idle_busy hphase hb).elim, ?_⟩
  rcases hstatus with hs | ⟨e, he, hs⟩
  · simp [hs, Status.succeeded]
  · simp [hs, Status.failed, he]

theorem Completed.phaseLegal {t : State} (h : Completed t) : t.phaseLegal := by
  obtain ⟨hphase, hstage, -⟩ := h
  exact ⟨fun hb => (Phase.not_idle_busy hphase hb).elim, fun hp => by simp [hstage] at hp⟩

/-- The engine's turn keeps the invariant. -/
theorem EngineEffect.inv {s t : State} (h : EngineEffect s t) (hs : s.Inv) : t.Inv := by
  obtain ⟨⟨c, hc⟩, hends⟩ := h
  obtain ⟨hcfg, hmem, hstatus, hphase, hout, hparser⟩ := hs
  obtain ⟨hstatus', hphase'⟩ : t.statusLegal ∧ t.phaseLegal := by
    rcases hends with hdone | ⟨e, n, rfl⟩
    · exact ⟨hdone.statusLegal, hdone.phaseLegal⟩
    · exact ⟨hstatus, hphase⟩
  have hmax : 1 ≤ s.cfg.pathMax := by
    obtain ⟨-, -, -, -, hpath⟩ := hcfg
    omega
  exact ⟨hc.cfg ▸ hcfg, hc.mem hmem, hstatus', hphase', hc.out hout, hc.parser hmax hparser⟩

/-- In an IDLE block the stage is `command`, so a host write there touches no running command. -/
theorem phaseLegal_of_idle {s t : State} (hi : s.phase = .idle) (h : s.phaseLegal)
    (hp : t.phase = s.phase) (hst : t.stage = s.stage) : t.phaseLegal := by
  obtain ⟨-, hparse⟩ := h
  refine ⟨fun hb => (Phase.not_idle_busy hi (hp ▸ hb)).elim, fun hstage => ?_⟩
  obtain ⟨hb, -⟩ := hparse (hst ▸ hstage)
  exact (Phase.not_idle_busy hi hb).elim

/-- A host write keeps the invariant. -/
theorem WriteEffect.inv {off : Nat} {s t : State} (h : WriteEffect off s t) (hs : s.Inv) :
    t.Inv := by
  obtain ⟨hcfg, hmem, hstatus, hphase, hout, hparser⟩ := hs
  cases h with
  | ignored => exact ⟨hcfg, hmem, hstatus, hphase, hout, hparser⟩
  | store m _ legal => exact ⟨hcfg, legal hmem, hstatus, hphase, hout, hparser⟩
  | inLen v idle =>
    exact ⟨hcfg, hmem, hstatus, phaseLegal_of_idle idle hphase rfl rfl, hout, hparser⟩
  | dictLen v idle =>
    exact ⟨hcfg, hmem, hstatus, phaseLegal_of_idle idle hphase rfl rfl, hout, hparser⟩
  | start v legal _ idle released =>
    exact ⟨hcfg, hmem, ⟨fun _ => rfl, by simp [Status.started], by simp [Status.started]⟩,
      ⟨fun _ => ⟨released, legal⟩, by simp⟩, hout, hparser⟩
  | badCommand v idle =>
    exact ⟨hcfg, hmem, ⟨fun hb => (Phase.not_idle_busy idle hb).elim, by simp [Status.failed],
      by simp [Status.failed]⟩, phaseLegal_of_idle idle hphase rfl rfl, hout, hparser⟩

theorem HostEffect.inv {s t : State} (h : HostEffect s t) (hs : s.Inv) : t.Inv := by
  cases h with
  | quiet => exact hs
  | wrote _ _ _ _ _ _ _ _ effect => exact effect.inv hs

/-- The reset input asserted leaves a state that meets the invariant. -/
theorem assertReset_inv {s : State} (hs : s.cfg.ok) : (assertReset s).Inv :=
  ⟨hs, ⟨List.Pairwise.nil, by simp [assertReset, State.reset]⟩,
    ⟨nofun, nofun, by simp [assertReset, State.reset]⟩, ⟨nofun, nofun⟩, Nat.zero_le _,
    parserLegal_reset rfl⟩

theorem releaseReset_inv {s : State} (hs : s.Inv) : (releaseReset s).Inv := by
  obtain ⟨hcfg, hmem, hstatus, ⟨hbusy, hparse⟩, hout, hparser⟩ := hs
  exact ⟨hcfg, hmem, hstatus, ⟨fun hb => ⟨rfl, (hbusy hb).2⟩, hparse⟩, hout, hparser⟩

/-! The obligations on what every step keeps. -/

/-- Settles O58: each turn keeps the invariant. -/
theorem stepKeepsInvariant : Obligations.StepKeepsInvariant := by
  intro s t hs h
  exact step_keeps (fun _ => id) (fun _ _ hh => hh.inv)
    (fun _ _ hb hr => (engineRun_effect hb hr).inv)
    (fun _ hu => assertReset_inv hu.1) (fun _ => releaseReset_inv) h hs

/-- Settles O59: only COMPRESS writes the tree and the codebook, and what it builds is legal. -/
theorem stepKeepsTreeAndCodeBounds : Obligations.StepKeepsTreeAndCodeBounds := by
  intro s t hs h
  refine step_keeps (fun _ => id) (fun _ _ hh => hh.treeLegal) (fun u v hb hr hu => ?_)
    (fun _ _ => treeLegal_reset rfl) (fun _ => id) h hs
  obtain ⟨c, hc⟩ := (engineRun_effect hb hr).effect
  exact hc.tree hu

end Sys2Proof.Machine
end

section
/-!
The obligations on registers, PHASE and the inputs of the engine (10_state.md).
-/

namespace Sys2Proof.Machine

/-! Register reads and writes. -/

/-- Settles O9: a read at a register offset is the register there, and 0 where the offset is reserved. -/
theorem registerReads : Obligations.RegisterReads := by
  intro s ts rest off x hr ho hm h
  rw [step_readRegister hr ho hm h]
  congr 2
  cases hreg : Reg.ofOffset off with
  | some r =>
    rw [Reg.eq_offset_of_ofOffset hreg, readRegisterAt_offset]
    cases r <;> rfl
  | none =>
    rw [readRegisterAt, hreg]
    unfold Reg.ofOffset at hreg
    split at hreg <;> simp_all

/-- The CFG registers (R17). -/
def Reg.isCfg (r : Reg) : Prop :=
  r = .cfgIbufSize ∨ r = .cfgDbufSize ∨ r = .cfgObufSize ∨ r = .cfgPathMax

/-- A CFG register ignores host writes in every phase (R17). -/
theorem writeRegisterAt_cfg {r : Reg} (hcfg : r.isCfg) (v : Word) (s : State) :
    writeRegisterAt r.offset v s = .next s := by
  unfold writeRegisterAt
  cases s.phase with
  | busy => rfl
  | idle => rcases hcfg with rfl | rfl | rfl | rfl <;> rfl

/-- Settles O10: the parameters fit in 32 bits, a CFG register reads them and ignores writes, and no step
changes them. -/
theorem cfgRegistersReadParameters : Obligations.CfgRegistersReadParameters := by
  refine ⟨fun s hok => ?_, fun s ts rest r x hr _ h => ?_, fun s ts rest r v hcfg h => ?_,
    fun _ _ => step_cfg⟩
  · obtain ⟨-, hI, hD, hO, hP⟩ := hok
    have hfits : ∀ n : Nat, n ≤ 2 ^ 22 → (BitVec.ofNat 32 n).toNat = n := fun n hn =>
      Nat.mod_eq_of_lt (by omega)
    exact ⟨hfits _ (by omega), hfits _ (by omega), hfits _ (by omega), hfits _ (by omega)⟩
  · rw [step_readRegister hr r.offset_lt r.offset_mod h, readRegisterAt_offset]
    rfl
  · have hlt := r.offset_lt
    cases hr : s.resetIn with
    | true =>
      rw [step_write h (by omega) (permitted_word r.offset_mod)]
      exact busWrite_reset (s := afterStatement s ts rest) hr _ _ _
    | false =>
      rw [step_writeRegister hr hlt r.offset_mod h]
      exact writeRegisterAt_cfg hcfg v _

/-- Settles O11: the two length registers store what an IDLE block is given. -/
theorem lengthRegisterWrites : Obligations.LengthRegisterWrites := by
  intro s ts rest v hr hi
  refine ⟨fun h => ?_, fun h => ?_⟩
  · rw [step_writeRegister hr (by decide) (by decide) h]
    simp [writeRegisterAt, hi, Reg.ofOffset]
  · rw [step_writeRegister hr (by decide) (by decide) h]
    simp [writeRegisterAt, hi, Reg.ofOffset]

/-! STATUS. -/

theorem bitNat_le (b : Bool) : bitNat b ≤ 1 := by
  cases b <;> decide

theorem decide_bitNat (b : Bool) : decide (bitNat b = 1) = b := by
  cases b <;> rfl

theorem Phase.isBusy_iff {ph : Phase} : ph.isBusy = true ↔ ph = .busy := by
  cases ph <;> decide

theorem ErrCode.num_le (e : ErrCode) : e.num ≤ 7 := by
  cases e <;> decide

/-- The STATUS word as a number (R13). -/
theorem statusWord_toNat (ph : Phase) (st : Status) : (statusWord ph st).toNat =
    bitNat ph.isBusy + 2 * bitNat st.done + 4 * bitNat st.err + 256 * st.code.num := by
  have hbusy := bitNat_le ph.isBusy
  have hdone := bitNat_le st.done
  have herr := bitNat_le st.err
  have hcode := st.code.num_le
  exact Nat.mod_eq_of_lt (by omega)

/-- Bit `i` of a number that is a bit above `2 ^ i` times an even number. -/
theorem getLsbD_of_toNat {w : Word} {i k : Nat} {b : Bool}
    (h : w.toNat / 2 ^ i = bitNat b + 2 * k) : w.getLsbD i = b := by
  have hb := bitNat_le b
  have hmod : (bitNat b + 2 * k) % 2 = bitNat b := by omega
  rw [BitVec.getLsbD, Nat.testBit_eq_decide_div_mod_eq, h, hmod]
  exact decide_bitNat b

/-- Settles O8: each field is read off the number of the STATUS word. -/
theorem statusWordFields : Obligations.StatusWordFields := by
  refine ⟨fun ph st => ?_, rfl, rfl, rfl, rfl, rfl, rfl, rfl, rfl⟩
  have hword := statusWord_toNat ph st
  have hbusy := bitNat_le ph.isBusy
  have hdone := bitNat_le st.done
  have herr := bitNat_le st.err
  have hcode := st.code.num_le
  refine ⟨?_, ?_, ?_, ?_, ?_, ?_⟩
  · rw [getLsbD_of_toNat (b := ph.isBusy)
      (k := bitNat st.done + 2 * bitNat st.err + 128 * st.code.num) (by omega)]
    exact Phase.isBusy_iff
  · exact getLsbD_of_toNat (k := bitNat st.err + 64 * st.code.num) (by omega)
  · exact getLsbD_of_toNat (k := 32 * st.code.num) (by omega)
  · rw [BitVec.extractLsb'_toNat, Nat.shiftRight_eq_div_pow]
    omega
  · apply BitVec.eq_of_toNat_eq
    rw [BitVec.extractLsb'_toNat, Nat.shiftRight_eq_div_pow]
    show _ = 0
    omega
  · apply BitVec.eq_of_toNat_eq
    rw [BitVec.extractLsb'_toNat, Nat.shiftRight_eq_div_pow]
    show _ = 0
    omega

/-! The reset state. -/

/-- Settles O7: the reference parameters are within R5, and the empty state meets every bound. -/
theorem resetStateIsLegal : Obligations.ResetStateIsLegal :=
  ⟨releaseReset_inv (assertReset_inv (s := State.reset) (by decide)), treeLegal_reset rfl⟩

/-! PHASE. -/

theorem decodeAddr_some {p : Params} {addr off : Nat} (h : decodeAddr p addr = some off) :
    addr = p.base + off := by
  unfold decodeAddr at h
  split at h
  · have := Option.some.inj h
    omega
  · cases h

/-- The register block takes 32-bit accesses only (R29). -/
theorem permitted_registers {w : Width} {off : Nat} (ho : off < 0x100000)
    (h : permitted w off = true) : w = .w32 := by
  cases w with
  | w32 => rfl
  | w8 => simp [permitted, regionOf_registers ho] at h
  | w16 => cases h
  | w64 => cases h

/-- A host write moves PHASE only by starting a legal command from the CMD register (R75). -/
theorem WriteEffect.phase_cases {off : Nat} {s t : State} (h : WriteEffect off s t) :
    t.phase = s.phase ∨ (s.phase = .idle ∧ off = 0 ∧
      ∃ v, (v = 0x00000001 ∨ v = 0x00000002) ∧ t = startCommand v s) := by
  cases h with
  | start v legal register idle released => exact .inr ⟨idle, register, v, legal, rfl⟩
  | ignored => exact .inl rfl
  | store => exact .inl rfl
  | inLen => exact .inl rfl
  | dictLen => exact .inl rfl
  | badCommand => exact .inl rfl

/-- The host's turn moves PHASE only by a write of a legal word to CMD (R11, R75). -/
theorem HostEffect.phase_cases {s t : State} (h : HostEffect s t) :
    t.phase = s.phase ∨ (s.phase = .idle ∧
      (∃ a rest v, s.prog = .access a :: rest ∧ a.addr = s.cfg.base ∧ a.width = .w32 ∧
        a.dir = .write v) ∧
      (t.cmd = 0x00000001 ∨ t.cmd = 0x00000002) ∧ t.status = Status.started) := by
  cases h with
  | quiet => exact .inl rfl
  | wrote a rest v off statement write decoded allowed effect =>
    rcases effect.phase_cases with hsame | ⟨hidle, hoff, w, hlegal, ht⟩
    · exact .inl hsame
    · subst hoff ht
      exact .inr ⟨hidle, ⟨a, rest, v, statement, decodeAddr_some decoded,
        permitted_registers (by decide) allowed, write⟩, hlegal, rfl⟩

/-- Settles O26: turn by turn, from what each turn can do. -/
theorem phaseChangesOnlyByCommandAndCompletion :
    Obligations.PhaseChangesOnlyByCommandAndCompletion := by
  intro s t h
  cases step_effect h with
  | host turn effect =>
    rcases effect.phase_cases with hsame | ⟨hidle, hwrite, hcmd, hstatus⟩
    · exact ⟨fun hi hb => (Phase.not_idle_busy hi (hsame.symm.trans hb)).elim,
        fun hb hi => (Phase.not_idle_busy (hsame.symm.trans hi) hb).elim⟩
    · exact ⟨fun _ _ => ⟨turn, hwrite, hcmd, hstatus⟩,
        fun hb => (Phase.not_idle_busy hidle hb).elim⟩
  | engineWaits turn waits =>
    exact ⟨fun hi hb => (Phase.not_idle_busy hi hb).elim, fun _ _ => .inl turn⟩
  | engineRuns turn busy released run =>
    exact ⟨fun hi => (Phase.not_idle_busy hi busy).elim, fun _ _ => .inl turn⟩
  | assertReset turn =>
    exact ⟨fun _ hb => (Phase.not_idle_busy rfl hb).elim, fun _ _ => .inr turn⟩
  | releaseReset turn =>
    exact ⟨fun hi hb => (Phase.not_idle_busy hi hb).elim,
      fun hb hi => (Phase.not_idle_busy hi hb).elim⟩

/-! The engine's inputs. -/

/-- BAD_COMMAND writes no length and no memory (R82). -/
theorem exec_badCommand_frame {opcode : BitVec 8} {rsv : BitVec 24} {s t : State}
    (h : exec (.badCommand opcode rsv) s = .next t) :
    t.inLen = s.inLen ∧ t.dictLen = s.dictLen ∧ t.mem = s.mem := by
  cases hp : s.phase with
  | idle =>
    rw [exec_badCommand_idle hp] at h
    cases h
    exact ⟨rfl, rfl, rfl⟩
  | busy =>
    rw [exec_badCommand_busy hp] at h
    cases h
    exact ⟨rfl, rfl, rfl⟩

/-- Settles O53: BAD_COMMAND stores no byte and no length; every other instruction has the effect of a
command that never writes IBUF, IN_LEN or CMD, and all but COMPRESS that of DECOMPRESS. -/
theorem engineNeverWritesItsInputs : Obligations.EngineNeverWritesItsInputs := by
  intro i s t hok h
  by_cases hbad : ∃ opcode rsv, i = .badCommand opcode rsv
  · obtain ⟨opcode, rsv, rfl⟩ := hbad
    obtain ⟨hin, hdict, hmem⟩ := exec_badCommand_frame h
    have hbyte : ∀ b k, t.byteAt b k = s.byteAt b k := fun b k => by rw [State.byteAt, hmem]; rfl
    exact ⟨hin, fun k _ => hbyte _ k, fun _ => ⟨hdict, fun k _ => hbyte _ k⟩,
      fun hne => absurd rfl (hne opcode rsv)⟩
  · have he := exec_effect (fun opcode rsv hi => hbad ⟨opcode, rsv, hi⟩) h
    refine ⟨he.inLen, fun k hk => he.bytes hok .ibuf k id hk, fun hne => ?_, fun _ => he.cmd⟩
    have hc : commandOf i = .decompress := by
      cases i with
      | compress => exact absurd rfl hne
      | _ => rfl
    rw [hc] at he
    exact ⟨he.dictLen rfl, fun k hk => he.bytes hok .dbuf k (by simp [Command.writes]) hk⟩

end Sys2Proof.Machine
end

section
/-!
Host accesses to the windows and to the reserved offsets (R28 to R31, R99, R100): what each of them reads
and what it writes.
-/

namespace Sys2Proof.Machine

/-! The bytes of a 32-bit value (R28). -/

theorem wordOfBytes_toNat (b0 b1 b2 b3 : Byte) : (wordOfBytes b0 b1 b2 b3).toNat =
    b0.toNat + 2 ^ 8 * b1.toNat + 2 ^ 16 * b2.toNat + 2 ^ 24 * b3.toNat := by
  have h0 := b0.isLt
  have h1 := b1.isLt
  have h2 := b2.isLt
  simp only [wordOfBytes, BitVec.toNat_append]
  rw [← Nat.shiftLeft_add_eq_or_of_lt h2, ← Nat.shiftLeft_add_eq_or_of_lt h1,
    ← Nat.shiftLeft_add_eq_or_of_lt h0]
  simp only [Nat.shiftLeft_eq]
  omega

/-- Byte `k` of the value of four bytes is the k-th of them (R28). -/
theorem byteOfWord_wordOfBytes (f : Nat → Byte) {k : Nat} (hk : k < 4) :
    byteOfWord (wordOfBytes (f 0) (f 1) (f 2) (f 3)) k = f k := by
  have h0 := (f 0).isLt
  have h1 := (f 1).isLt
  have h2 := (f 2).isLt
  have h3 := (f 3).isLt
  apply BitVec.eq_of_toNat_eq
  rw [byteOfWord, BitVec.extractLsb'_toNat, Nat.shiftRight_eq_div_pow, wordOfBytes_toNat]
  interval_cases k <;> omega

/-! The bytes a list leaves in a buffer it may not fit in. -/

/-- Bytes at or past the buffer's size are not stored (R28, R30). -/
theorem memWriteN_take (b : Buf) (i : Nat) (vs : List Byte) (s : State) :
    memWriteN b i vs s = memWriteN b i (vs.take (b.size s.cfg - i)) s := by
  induction vs generalizing i s with
  | nil => simp
  | cons v vs ih =>
    have hcfg : (memWrite b i v s).cfg = s.cfg := by rw [memWrite_eq]; rfl
    rw [memWriteN, ih, hcfg]
    by_cases hi : i < b.size s.cfg
    · have hroom : b.size s.cfg - i = (b.size s.cfg - (i + 1)) + 1 := by omega
      rw [hroom, List.take_succ_cons, memWriteN]
    · have hnone : b.size s.cfg - i = 0 := by omega
      have hnext : b.size s.cfg - (i + 1) = 0 := by omega
      simp [hnone, hnext, memWriteN, memWrite, hi]

/-- Every byte of memory after a list of bytes, as far as they fit. -/
theorem read_memWriteN_truncated (b : Buf) (i : Nat) (vs : List Byte) (s : State) (a : Nat) :
    Memory.read a (memWriteN b i vs s).mem =
      if b.offset + i ≤ a ∧ a < b.offset + i + vs.length ∧ a < b.offset + b.size s.cfg then
        vs[a - (b.offset + i)]?
      else Memory.read a s.mem := by
  rw [memWriteN_take]
  by_cases hi : i ≤ b.size s.cfg
  · rw [read_memWriteN (by rw [List.length_take]; omega), List.length_take, List.getElem?_take]
    by_cases ha : b.offset + i ≤ a ∧ a < b.offset + i + vs.length ∧ a < b.offset + b.size s.cfg
    · rw [if_pos ha, if_pos (by omega), if_pos (by omega)]
    · rw [if_neg ha, if_neg (by omega)]
  · have hnone : b.size s.cfg - i = 0 := by omega
    rw [hnone, List.take_zero, if_neg (by omega)]
    rfl

/-! A window byte as a host reads it. -/

/-- A byte at or past the buffer's size reads 0 in every phase (R30). -/
theorem hostReadByte_past {b : Buf} {i : Nat} {s : State} (hi : b.size s.cfg ≤ i) :
    hostReadByte b i s = (0, s) := by
  unfold hostReadByte
  split
  · rw [if_neg (by omega)]
  · exact memRead_past hi

/-- A stored byte of an IDLE block (R28). -/
theorem hostReadByte_stored {b : Buf} {i : Nat} {s : State} {v : Byte} (hidle : s.phase = .idle)
    (hi : i < b.size s.cfg) (hv : s.byteAt b i = some v) : hostReadByte b i s = (v, s) := by
  rw [hostReadByte, hidle]
  exact memRead_stored hi hv

/-- An unspecified byte is a fresh draw (R31, R100). -/
theorem hostReadByte_unspecified {b : Buf} {i : Nat} {s : State} (h : s.unspecified b i = true) :
    hostReadByte b i s = (Config.freeByte s.draws, s.tick) := by
  obtain ⟨hi, hwhy⟩ := of_decide_eq_true h
  unfold hostReadByte
  split
  · rw [if_pos hi]
    rfl
  · next hidle =>
    exact memRead_unwritten hi (hwhy.resolve_left fun hb => Phase.not_idle_busy hidle hb)

/-- A byte of an IDLE block's window, stored or past the size (R28, R30). -/
theorem hostReadByte_windowByte {b : Buf} {i : Nat} {s : State} {v : Byte}
    (hidle : s.phase = .idle) (h : s.windowByte b (b.size s.cfg) i v) :
    hostReadByte b i s = (v, s) := by
  rcases h with ⟨hi, hv⟩ | ⟨hi, rfl⟩
  · exact hostReadByte_stored hidle hi hv
  · exact hostReadByte_past hi

/-- A byte that is not unspecified is read without a draw. -/
theorem hostReadByte_specified {b : Buf} {i : Nat} {s : State} (h : s.unspecified b i = false) :
    (hostReadByte b i s).2 = s := by
  by_cases hi : b.size s.cfg ≤ i
  · rw [hostReadByte_past hi]
  · have hwhy : ¬ (s.phase = .busy ∨ s.byteAt b i = none) := fun hw =>
      of_decide_eq_false h ⟨by omega, hw⟩
    obtain ⟨hidle, hstored⟩ := not_or.mp hwhy
    obtain ⟨v, hv⟩ := Option.ne_none_iff_exists'.mp hstored
    have hphase : s.phase = .idle := by
      cases hp : s.phase with
      | idle => rfl
      | busy => exact absurd hp hidle
    rw [hostReadByte_stored hphase (by omega) hv]

/-! A window word as a host reads it. -/

/-- The state after a host has read `k` bytes of a window from index `i` on: only the draws count. -/
def State.afterReads (s : State) (b : Buf) (i k : Nat) : State :=
  { s with draws := s.draws + s.unspecifiedCount b i k }

/-- The byte at index `i + k` as a host reads it after the `k` bytes before it. -/
def State.readFrom (s : State) (b : Buf) (i k : Nat) : Byte :=
  (hostReadByte b (i + k) (s.afterReads b i k)).1

theorem unspecifiedCount_succ (s : State) (b : Buf) (i k : Nat) :
    s.unspecifiedCount b i (k + 1) =
      s.unspecifiedCount b i k + if s.unspecified b (i + k) then 1 else 0 := by
  simp [State.unspecifiedCount, List.range_succ, List.countP_append, List.countP_cons]

theorem hostReadByte_afterReads (s : State) (b : Buf) (i k : Nat) :
    (hostReadByte b (i + k) (s.afterReads b i k)).2 = s.afterReads b i (k + 1) := by
  have hsame : (s.afterReads b i k).unspecified b (i + k) = s.unspecified b (i + k) := rfl
  cases hu : s.unspecified b (i + k) with
  | true =>
    rw [hostReadByte_unspecified (hsame.trans hu)]
    simp [State.afterReads, State.tick, unspecifiedCount_succ, hu, Nat.add_assoc]
  | false =>
    rw [hostReadByte_specified (hsame.trans hu)]
    simp [State.afterReads, unspecifiedCount_succ, hu]

theorem readFrom_unspecified {s : State} {b : Buf} {i k : Nat}
    (h : s.unspecified b (i + k) = true) :
    s.readFrom b i k = Config.freeByte (s.draws + s.unspecifiedCount b i k) := by
  rw [State.readFrom, hostReadByte_unspecified (s := s.afterReads b i k) h]
  rfl

theorem readFrom_past {s : State} {b : Buf} {i k : Nat} (h : b.size s.cfg ≤ i + k) :
    s.readFrom b i k = 0 := by
  rw [State.readFrom, hostReadByte_past (s := s.afterReads b i k) h]

theorem readFrom_stored {s : State} {b : Buf} {i k : Nat} {v : Byte} (hidle : s.phase = .idle)
    (hi : i + k < b.size s.cfg) (hv : s.byteAt b (i + k) = some v) : s.readFrom b i k = v := by
  rw [State.readFrom, hostReadByte_stored (s := s.afterReads b i k) hidle hi hv]

/-- A 32-bit window read reads its four bytes in turn. -/
theorem hostReadWord_eq (b : Buf) (i : Nat) (s : State) :
    hostReadWord b i s = (wordOfBytes (s.readFrom b i 0) (s.readFrom b i 1) (s.readFrom b i 2)
      (s.readFrom b i 3), s.afterReads b i 4) := by
  have h0 : (hostReadByte b i s).2 = s.afterReads b i 1 := hostReadByte_afterReads s b i 0
  simp only [hostReadWord, h0, hostReadByte_afterReads]
  rfl

/-- Each byte of a 32-bit window read. -/
theorem byteOfWord_hostReadWord (b : Buf) (i : Nat) (s : State) {k : Nat} (hk : k < 4) :
    byteOfWord (hostReadWord b i s).1 k = s.readFrom b i k := by
  rw [hostReadWord_eq]
  exact byteOfWord_wordOfBytes (s.readFrom b i) hk

/-- A 32-bit window read whose four bytes are read without a draw. -/
theorem hostReadWord_without_draws {b : Buf} {i : Nat} {s : State} {v0 v1 v2 v3 : Byte}
    (h0 : hostReadByte b i s = (v0, s)) (h1 : hostReadByte b (i + 1) s = (v1, s))
    (h2 : hostReadByte b (i + 2) s = (v2, s)) (h3 : hostReadByte b (i + 3) s = (v3, s)) :
    hostReadWord b i s = (wordOfBytes v0 v1 v2 v3, s) := by
  simp only [hostReadWord, h0, h1, h2, h3]

/-- A 32-bit window read at or past the buffer's size (R30). -/
theorem hostReadWord_past {b : Buf} {i : Nat} {s : State} (hi : b.size s.cfg ≤ i) :
    hostReadWord b i s = (0, s) := by
  have hpast : ∀ k, hostReadByte b (i + k) s = (0, s) := fun k =>
    hostReadByte_past (by omega)
  exact hostReadWord_without_draws (hpast 0) (hpast 1) (hpast 2) (hpast 3)

/-! Window bytes as a host writes them. -/

theorem memWrite_past {b : Buf} {i : Nat} {s : State} (hi : b.size s.cfg ≤ i) (v : Byte) :
    memWrite b i v s = s := by
  rw [memWrite, if_neg (by omega)]

/-- A write at or past the buffer's size is ignored in every phase (R30, R99). -/
theorem hostWriteByte_past {b : Buf} {i : Nat} {s : State} (hi : b.size s.cfg ≤ i) (v : Byte) :
    hostWriteByte b i v s = s := by
  unfold hostWriteByte
  split
  · rfl
  · exact memWrite_past hi v

theorem hostWriteWord_past {b : Buf} {i : Nat} {s : State} (hi : b.size s.cfg ≤ i) (v : Word) :
    hostWriteWord b i v s = s := by
  have hpast : ∀ k w, hostWriteByte b (i + k) w s = s := fun k w =>
    hostWriteByte_past (by omega) w
  have h0 := hpast 0
  rw [Nat.add_zero] at h0
  simp only [hostWriteWord, h0, hpast]

/-! Bus accesses to a window. -/

section WindowBus
variable {s : State} {b : Buf} {i : Nat} (hr : s.resetIn = false) (hi : i < b.span)
include hr hi

theorem busRead_windowByte : busRead .w8 (b.offset + i) s =
    ((hostReadByte b i s).1.zeroExtend 32, (hostReadByte b i s).2) := by
  simp [busRead, hr, regionOf_window hi]

theorem busRead_windowWord : busRead .w32 (b.offset + i) s = hostReadWord b i s := by
  simp [busRead, hr, regionOf_window hi]

theorem busWrite_windowByte (v : Word) : busWrite .w8 (b.offset + i) v s =
    .next (hostWriteByte b i (byteOfWord v 0) s) := by
  simp [busWrite, hr, regionOf_window hi]

theorem busWrite_windowWord (v : Word) : busWrite .w32 (b.offset + i) v s =
    .next (hostWriteWord b i v s) := by
  simp [busWrite, hr, regionOf_window hi]

end WindowBus

theorem permitted_window_word {b : Buf} {i : Nat} (hm : i % 4 = 0) :
    permitted .w32 (b.offset + i) = true := by
  have hb := b.offset_mod
  exact permitted_word (by omega)

section WindowSteps
variable {s : State} {ts : List Turn} {rest : List Stmt} {b : Buf} {i : Nat}
  (hr : s.resetIn = false) (hi : i < b.span)
include hr hi

theorem step_readWindowByte {x : Var}
    (h : hostAccess s ts rest .w8 (b.offset + i) (.read x)) :
    step s = .next (bindVar x ((hostReadByte b i (afterStatement s ts rest)).1.zeroExtend 32)
      (hostReadByte b i (afterStatement s ts rest)).2) := by
  have hrel : (afterStatement s ts rest).resetIn = false := hr
  rw [step_read h (Buf.offset_add_lt hi) (permitted_window_byte hi), busRead_windowByte hrel hi]

theorem step_readWindowWord {x : Var} (hm : i % 4 = 0)
    (h : hostAccess s ts rest .w32 (b.offset + i) (.read x)) :
    step s = .next (bindVar x (hostReadWord b i (afterStatement s ts rest)).1
      (hostReadWord b i (afterStatement s ts rest)).2) := by
  have hrel : (afterStatement s ts rest).resetIn = false := hr
  rw [step_read h (Buf.offset_add_lt hi) (permitted_window_word hm), busRead_windowWord hrel hi]

theorem step_writeWindowByte {v : Word} (hidle : s.phase = .idle)
    (h : hostAccess s ts rest .w8 (b.offset + i) (.write (.imm v))) :
    step s = .next (memWrite b i (byteOfWord v 0) (afterStatement s ts rest)) := by
  have hrel : (afterStatement s ts rest).resetIn = false := hr
  have hfree : (afterStatement s ts rest).phase = .idle := hidle
  rw [step_write h (Buf.offset_add_lt hi) (permitted_window_byte hi), busWrite_windowByte hrel hi,
    hostWriteByte_idle hfree]

theorem step_writeWindowWord {v : Word} (hidle : s.phase = .idle) (hm : i % 4 = 0)
    (h : hostAccess s ts rest .w32 (b.offset + i) (.write (.imm v))) :
    step s = .next (memWriteN b i
      [byteOfWord v 0, byteOfWord v 1, byteOfWord v 2, byteOfWord v 3]
      (afterStatement s ts rest)) := by
  have hrel : (afterStatement s ts rest).resetIn = false := hr
  have hfree : (afterStatement s ts rest).phase = .idle := hidle
  rw [step_write h (Buf.offset_add_lt hi) (permitted_window_word hm), busWrite_windowWord hrel hi,
    hostWriteWord_idle hfree]

end WindowSteps

/-! Offsets with nothing behind them (R18, R30). -/

/-- An access of this width to this offset is permitted, reads 0 and ignores writes. -/
structure State.deadAt (s : State) (w : Width) (off : Nat) : Prop where
  allowed : permitted w off = true
  reads : busRead w off s = (0, s)
  ignores : ∀ v, busWrite w off v s = .next s

/-- No register lies past CFG_PATH_MAX (R18). -/
theorem Reg.ofOffset_reserved {off : Nat} (h : 0x000024 ≤ off) : Reg.ofOffset off = none := by
  cases hreg : Reg.ofOffset off with
  | none => rfl
  | some r =>
    have hlt : r.offset < 0x000024 := by cases r <;> decide
    have := Reg.eq_offset_of_ofOffset hreg
    omega

section DeadOffsets
variable {s : State} (hr : s.resetIn = false)
include hr

theorem deadAt_reservedRegister {off : Nat} (hm : off % 4 = 0) (hlo : 0x000024 ≤ off)
    (hhi : off < 0x100000) : s.deadAt .w32 off where
  allowed := permitted_word hm
  reads := by
    simp [busRead, hr, regionOf_registers hhi, readRegisterAt, Reg.ofOffset_reserved hlo]
  ignores v := by
    have hreg : writeRegisterAt off v s = .next s := by
      rw [writeRegisterAt, Reg.ofOffset_reserved hlo]
      split <;> rfl
    simp [busWrite, hr, regionOf_registers hhi, hreg]

theorem deadAt_hole {off : Nat} (hm : off % 4 = 0) (hlo : 0x300000 ≤ off)
    (hhi : off < 0x400000) : s.deadAt .w32 off where
  allowed := permitted_word hm
  reads := by simp [busRead, hr, regionOf_reserved hlo hhi]
  ignores v := by simp [busWrite, hr, regionOf_reserved hlo hhi]

theorem deadAt_pastByte {b : Buf} {i : Nat} (hi : i < b.span) (hpast : b.size s.cfg ≤ i) :
    s.deadAt .w8 (b.offset + i) where
  allowed := permitted_window_byte hi
  reads := by
    rw [busRead_windowByte hr hi, hostReadByte_past hpast]
    rfl
  ignores v := by rw [busWrite_windowByte hr hi, hostWriteByte_past hpast]

theorem deadAt_pastWord {b : Buf} {i : Nat} (hm : (b.offset + i) % 4 = 0) (hi : i < b.span)
    (hpast : b.size s.cfg ≤ i) : s.deadAt .w32 (b.offset + i) where
  allowed := permitted_word hm
  reads := by rw [busRead_windowWord hr hi, hostReadWord_past hpast]
  ignores v := by rw [busWrite_windowWord hr hi, hostWriteWord_past hpast]

end DeadOffsets

/-! What is refused and what is not (R26, R27, R29). -/

theorem busAccess_outside {a : Access} {s : State}
    (h : a.addr < s.cfg.base ∨ s.cfg.base + 0x800000 ≤ a.addr) :
    busAccess a s = .refused .platformUndecoded := by
  simp [busAccess, decodeAddr_outside h]

/-- An offset that is in no register block and no hole is a window byte (R27). -/
theorem exists_window {off : Nat} (ho : off < 0x800000)
    (h : (0x100000 ≤ off ∧ off < 0x300000) ∨ 0x400000 ≤ off) :
    ∃ (b : Buf) (i : Nat), i < b.span ∧ off = b.offset + i := by
  by_cases hI : off < 0x200000
  · exact ⟨.ibuf, off - 0x100000, by simp only [Buf.span]; omega,
      by simp only [Buf.offset]; omega⟩
  · by_cases hD : off < 0x300000
    · exact ⟨.dbuf, off - 0x200000, by simp only [Buf.span]; omega,
        by simp only [Buf.offset]; omega⟩
    · exact ⟨.obuf, off - 0x400000, by simp only [Buf.span]; omega,
        by simp only [Buf.offset]; omega⟩

theorem writeCommand_next (v : Word) (s : State) : ∃ t, writeCommand v s = .next t := by
  unfold writeCommand
  split
  case h_3 => exact exec_next _ s
  all_goals exact ⟨_, rfl⟩

theorem writeRegisterAt_next (off : Nat) (v : Word) (s : State) :
    ∃ t, writeRegisterAt off v s = .next t := by
  unfold writeRegisterAt
  split
  · exact ⟨_, rfl⟩
  · split
    · exact writeCommand_next v s
    all_goals exact ⟨_, rfl⟩

theorem busWrite_next (w : Width) (off : Nat) (v : Word) (s : State) :
    ∃ t, busWrite w off v s = .next t := by
  unfold busWrite
  split
  · exact ⟨_, rfl⟩
  · split
    · exact writeRegisterAt_next off v s
    · exact ⟨_, rfl⟩
    · cases w <;> exact ⟨_, rfl⟩

end Sys2Proof.Machine
end

section
/-!
The obligations on host accesses to memory (20_memory.md).
-/

namespace Sys2Proof.Machine

/-- Settles O12: the two accesses are `memWrite` and `hostReadByte` at the byte's address. -/
theorem windowByteAccesses : Obligations.WindowByteAccesses := by
  intro s ts rest b base span size i hw hok hr hidle hi
  obtain ⟨rfl, rfl, rfl⟩ := windowOf_eq hw
  have hspan : i < b.span := hi.trans_le (Buf.size_le_span hok b)
  refine ⟨fun v h => ⟨_, step_writeWindowByte hr hspan hidle h, ?_, fun a ha => ?_, ?_⟩,
    fun x v h hv => ?_⟩
  · exact byteAt_memWrite_same (s := afterStatement s ts rest) hi _
  · rw [read_memWrite, if_neg fun hsame => ha hsame.2]
    rfl
  · rw [memWrite_eq]
    rfl
  · rw [step_readWindowByte hr hspan h,
      hostReadByte_stored (s := afterStatement s ts rest) hidle hi hv]

/-- Settles O13: a write stores the four bytes as far as they fit, a read joins what the four reads
give. -/
theorem windowWordAccesses : Obligations.WindowWordAccesses := by
  intro s ts rest b base span size i hw hok hr hidle hm hspan
  obtain ⟨rfl, rfl, rfl⟩ := windowOf_eq hw
  have hi : i < b.span := by omega
  refine ⟨fun v h => ⟨_, step_writeWindowWord hr hi hidle hm h, fun k hk hlt => ?_,
    fun a ha => ?_, memWriteN_eq ..⟩, fun x v0 v1 v2 v3 h h0 h1 h2 h3 => ?_⟩
  · have hbyte : [byteOfWord v 0, byteOfWord v 1, byteOfWord v 2, byteOfWord v 3][k]? =
        some (byteOfWord v k) := by
      interval_cases k <;> rfl
    rw [State.byteAt, read_memWriteN_truncated, if_pos ⟨by omega, by simp only [List.length]; omega,
      by simp only [afterStatement_cfg]; omega⟩]
    rwa [← Nat.add_assoc, Nat.add_sub_cancel_left]
  · rw [read_memWriteN_truncated, if_neg]
    · rfl
    · rintro ⟨hlo, hhi, hlt⟩
      simp only [List.length, afterStatement_cfg] at hhi hlt
      exact ha (a - (b.offset + i)) (by omega) (by omega) (by omega)
  · refine ⟨wordOfBytes v0 v1 v2 v3, wordOfBytes_toNat v0 v1 v2 v3, ?_⟩
    have hread : ∀ {j v}, s.windowByte b (b.size s.cfg) j v →
        hostReadByte b j (afterStatement s ts rest) = (v, afterStatement s ts rest) :=
      fun hv => hostReadByte_windowByte (s := afterStatement s ts rest) hidle hv
    rw [step_readWindowWord hr hi hm h,
      hostReadWord_without_draws (hread h0) (hread h1) (hread h2) (hread h3)]

/-- Settles O14: the refused accesses are not permitted ones, and a permitted access has a next state. -/
theorem unsupportedAccessesAreRefused : Obligations.UnsupportedAccessesAreRefused := by
  intro s ts rest w off d ho h
  refine ⟨fun hw => step_unsupported h ho ?_, fun hw hd => ?_⟩
  · rcases hw with rfl | rfl | ⟨rfl, hm⟩ | ⟨rfl, hlt⟩
    · rfl
    · rfl
    · exact decide_eq_false hm
    · simp [permitted, regionOf_registers hlt]
  · have hp : permitted w off = true := by
      rcases hw with ⟨rfl, hm⟩ | ⟨rfl, hwin⟩
      · exact permitted_word hm
      · obtain ⟨b, i, hi, rfl⟩ := exists_window ho hwin
        exact permitted_window_byte hi
    rcases hd with ⟨x, rfl⟩ | ⟨v, rfl⟩
    · exact ⟨_, step_read h ho hp⟩
    · rw [step_write h ho hp]
      exact busWrite_next ..

/-- Settles O15: an access to a reserved offset or past a buffer's size meets nothing. -/
theorem reservedOffsetsReadZeroAndIgnoreWrites :
    Obligations.ReservedOffsetsReadZeroAndIgnoreWrites := by
  intro s ts rest w off hr ho hoff
  have hrel : (afterStatement s ts rest).resetIn = false := hr
  have hdead : (afterStatement s ts rest).deadAt w off := by
    rcases hoff with ⟨rfl, hm, hreg | hhole⟩ | ⟨b, base, span, size, i, hw, rfl, hi, hpast, hacc⟩
    · exact deadAt_reservedRegister hrel hm hreg.1 hreg.2
    · exact deadAt_hole hrel hm hhole.1 hhole.2
    · obtain ⟨rfl, rfl, rfl⟩ := windowOf_eq hw
      rcases hacc with rfl | ⟨rfl, hm⟩
      · exact deadAt_pastByte hrel hi hpast
      · exact deadAt_pastWord hrel hm hi hpast
  refine ⟨fun x h => ?_, fun v h => ?_⟩
  · rw [step_read h ho hdead.allowed, hdead.reads]
  · rw [step_write h ho hdead.allowed, hdead.ignores]

/-- Settles O16: each byte is read in the state the reads before it left, which differs in the draws
only. -/
theorem unspecifiedBytesAreFreshDraws : Obligations.UnspecifiedBytesAreFreshDraws := by
  intro s ts rest b base span size i x hw hok hr
  obtain ⟨rfl, rfl, rfl⟩ := windowOf_eq hw
  refine ⟨fun hi hwhy h => ?_, fun hm hspan h => ?_⟩
  · have hspan : i < b.span := hi.trans_le (Buf.size_le_span hok b)
    have hu : (afterStatement s ts rest).unspecified b i = true := decide_eq_true ⟨hi, hwhy⟩
    rw [step_readWindowByte hr hspan h, hostReadByte_unspecified hu]
    rfl
  · refine ⟨(hostReadWord b i (afterStatement s ts rest)).1, ?_, fun k hk => ?_⟩
    · rw [step_readWindowWord hr (by omega) hm h, hostReadWord_eq]
      rfl
    have hbyte := byteOfWord_hostReadWord b i (afterStatement s ts rest) hk
    refine ⟨fun hi hwhy => hbyte.trans ?_, fun hpast => hbyte.trans ?_,
      fun v hi hidle hv => hbyte.trans ?_⟩
    · exact readFrom_unspecified (s := afterStatement s ts rest) (decide_eq_true ⟨hi, hwhy⟩)
    · exact readFrom_past (s := afterStatement s ts rest) hpast
    · exact readFrom_stored (s := afterStatement s ts rest) hidle hi hv

/-- Settles O17: no offset stands for an address outside the block, and the hole permits no 8-bit
access. -/
theorem undecodedAddressesAreRefused : Obligations.UndecodedAddressesAreRefused := by
  refine ⟨fun s ts rest a ht hp ha => ?_, fun s ts rest off d hlo hhi h => ?_⟩
  · rw [step_access ht hp]
    exact busAccess_outside (s := afterStatement s ts rest) ha
  · exact step_unsupported h (by omega) (by simp [permitted, regionOf_reserved hlo hhi])

end Sys2Proof.Machine
end

section
/-! Both decoders and the encoder (R37, R39 to R42). -/

namespace Sys2Proof

/-! Command words. -/

@[simp] theorem cmdOpcode_cmdWord (opcode : BitVec 8) (rsv : BitVec 24) :
    cmdOpcode (cmdWord opcode rsv) = opcode := by
  refine BitVec.eq_of_getLsbD_eq fun i hi => ?_
  rw [cmdOpcode, cmdWord, BitVec.getLsbD_extractLsb', BitVec.getLsbD_append]
  simp [hi]

@[simp] theorem cmdRsv_cmdWord (opcode : BitVec 8) (rsv : BitVec 24) :
    cmdRsv (cmdWord opcode rsv) = rsv := by
  refine BitVec.eq_of_getLsbD_eq fun i hi => ?_
  rw [cmdRsv, cmdWord, BitVec.getLsbD_extractLsb', BitVec.getLsbD_append]
  simp [hi]

/-- A word whose fields are no legal command's is BAD_COMMAND (R39). -/
theorem decodeCommand_of_illegal {w : Word} (h : illegalFields (cmdOpcode w) (cmdRsv w)) :
    decodeCommand w = .badCommand (cmdOpcode w) (cmdRsv w) := by
  unfold decodeCommand
  rw [if_neg (by tauto), if_neg (by tauto)]

/-- Every word decodes to a well-formed command: BAD_COMMAND comes only of illegal fields (R39). -/
theorem decodeCommand_wf (w : Word) : (decodeCommand w).wf = true := by
  by_cases h : illegalFields (cmdOpcode w) (cmdRsv w)
  · rw [decodeCommand_of_illegal h]
    exact decide_eq_true h
  · unfold decodeCommand
    split
    · rfl
    · split
      · rfl
      · tauto

/-- The encoder gives back the word a command was decoded from. -/
theorem encode_decodeCommand (w : Word) : encode (decodeCommand w) = .command w := by
  rcases decodeCommand_cases w with ⟨hw, hd⟩ | ⟨hw, hd⟩ | hd <;> rw [hd]
  · rw [hw]; rfl
  · rw [hw]; rfl
  · rw [encode, cmdWord_fields]

/-- Different words decode to different commands: the encoder gives the word back. -/
theorem decodeCommand_injective : Function.Injective decodeCommand := fun v w h =>
  Encoding.command.inj <| by rw [← encode_decodeCommand v, h, encode_decodeCommand]

theorem decodeCommand_eq_compress {w : Word} : decodeCommand w = .compress ↔ w = 0x00000001 :=
  decodeCommand_injective.eq_iff (b := 0x00000001)

theorem decodeCommand_eq_decompress {w : Word} :
    decodeCommand w = .decompress ↔ w = 0x00000002 :=
  decodeCommand_injective.eq_iff (b := 0x00000002)

/-- The two legal words as numbers: RSV = 0 and OPCODE 1 or 2 (R37). -/
theorem legalWord_iff_fields {w : Word} : (w = 0x00000001 ∨ w = 0x00000002) ↔
    (w.toNat / 256 = 0 ∧ (w.toNat % 256 = 1 ∨ w.toNat % 256 = 2)) := by
  have hone : w = 0x00000001 ↔ w.toNat = 1 := BitVec.toNat_inj.symm
  have htwo : w = 0x00000002 ↔ w.toNat = 2 := BitVec.toNat_inj.symm
  rw [hone, htwo]
  omega

/-- Settles O2: the encoder inverts the command decoder, and the legal words are 1 and 2. -/
theorem commandWordFormat : Obligations.CommandWordFormat := fun w =>
  ⟨decodeCommand_wf w, encode_decodeCommand w, decodeCommand_eq_compress,
    decodeCommand_eq_decompress, by
      rw [decodeCommand_eq_compress, decodeCommand_eq_decompress, legalWord_iff_fields]⟩

/-! Tokens. -/

/-- The token decoder reads back a well-formed token and leaves the bytes after it (R40 to R42). -/
theorem decodeToken_tokenBytes {i : Instr} (hwf : i.wf = true) (hi : tokenBytes i ≠ [])
    (rest : List Byte) : decodeToken (tokenBytes i ++ rest) = .ok (i, rest) := by
  cases i with
  | compress => exact absurd rfl hi
  | decompress => exact absurd rfl hi
  | badCommand opcode rsv => exact absurd rfl hi
  | tokenInternal => rfl
  | tokenLeaf sym => rfl
  | tokenInvalid mark =>
    obtain ⟨hinternal, hleaf⟩ : illegalMark mark := of_decide_eq_true hwf
    exact (if_neg hinternal).trans (if_neg hleaf)

/-- What the token decoder can answer: a reject of the empty sequence or of a lone LEAF mark, or the
whole token at the head (R40 to R42). -/
theorem decodeToken_cases (bytes : List Byte) :
    (bytes = [] ∧ decodeToken bytes = .error .noByte) ∨
    (bytes = [0x31] ∧ decodeToken bytes = .error .leafWithoutSymbol) ∨
    (∃ i rest, i.wf = true ∧ tokenBytes i ≠ [] ∧ bytes = tokenBytes i ++ rest ∧
      decodeToken bytes = .ok (i, rest)) := by
  rcases bytes with _ | ⟨mark, rest⟩
  · exact .inl ⟨rfl, rfl⟩
  by_cases hinternal : mark = 0x30
  · subst hinternal
    exact .inr (.inr ⟨.tokenInternal, rest, rfl, List.cons_ne_nil _ _, rfl, rfl⟩)
  by_cases hleaf : mark = 0x31
  · subst hleaf
    rcases rest with _ | ⟨sym, rest'⟩
    · exact .inr (.inl ⟨rfl, rfl⟩)
    · exact .inr (.inr ⟨.tokenLeaf sym, rest', rfl, List.cons_ne_nil _ _, rfl, rfl⟩)
  · have hwf : (Instr.tokenInvalid mark).wf = true := decide_eq_true ⟨hinternal, hleaf⟩
    have hne : tokenBytes (.tokenInvalid mark) ≠ [] := List.cons_ne_nil _ _
    exact .inr (.inr ⟨.tokenInvalid mark, rest, hwf, hne, rfl, decodeToken_tokenBytes hwf hne rest⟩)

/-- Settles O3: one direction is `decodeToken_tokenBytes`, the others are read off what the decoder can
answer. -/
theorem tokenDecodingReadsWholeTokens : Obligations.TokenDecodingReadsWholeTokens := by
  intro bytes
  refine ⟨fun i rest => ⟨fun h => ?_, fun ⟨hwf, hi, heq⟩ =>
    heq ▸ decodeToken_tokenBytes hwf hi rest⟩, ⟨fun h => ?_, fun h => h ▸ rfl⟩,
    ⟨fun h => ?_, fun h => h ▸ rfl⟩⟩ <;>
    rcases decodeToken_cases bytes with ⟨hb, hd⟩ | ⟨hb, hd⟩ | ⟨j, rest', hwf, hj, hb, hd⟩ <;>
    cases hd.symm.trans h
  · exact ⟨hwf, hj, hb⟩
  · exact hb
  · exact hb

/-! The two together. -/

/-- A token's bytes alone decode to it. -/
theorem decode_tokenBytes {i : Instr} (hwf : i.wf = true) (hi : tokenBytes i ≠ []) :
    decode (.token (tokenBytes i)) = some i := by
  have h := decodeToken_tokenBytes hwf hi []
  rw [List.append_nil] at h
  simp [decode, h]

/-- Settles O1: a command word is made of its fields, and a token's bytes are read back whole. -/
theorem decodeOfEncodeIsIdentity : Obligations.DecodeOfEncodeIsIdentity := by
  intro i hwf
  cases i with
  | compress => rfl
  | decompress => rfl
  | badCommand opcode rsv =>
    have hfields : illegalFields opcode rsv := of_decide_eq_true hwf
    have hd := decodeCommand_of_illegal (w := cmdWord opcode rsv) (by simpa using hfields)
    simpa [encode, decode] using hd
  | tokenInternal => exact decode_tokenBytes hwf (List.cons_ne_nil _ _)
  | tokenLeaf sym => exact decode_tokenBytes hwf (List.cons_ne_nil _ _)
  | tokenInvalid mark => exact decode_tokenBytes hwf (List.cons_ne_nil _ _)

/-- Settles O4: the command words by evaluation, the tokens as bytes of well-formed tokens. -/
theorem writtenWordsDecode : Obligations.WrittenWordsDecode :=
  ⟨by decide, by decide, by decide, by decide,
    decodeToken_tokenBytes (i := .tokenInternal) rfl (by decide) [0x31],
    decodeToken_tokenBytes (i := .tokenLeaf 0x30) rfl (by decide) [],
    decodeToken_tokenBytes (i := .tokenInvalid 0x78) rfl (by decide) []⟩

end Sys2Proof
end

section
/-!
The statements of a host program: accesses under a name, POLL, RBUF and COPY (R45, R46).
-/

namespace Sys2Proof.Machine

/-! Data and counts. -/

/-- A write depends on its data only by the value it has when it runs. -/
theorem busAccess_write_congr {s : State} {addr : Nat} {w : Width} {v v' : Operand}
    (h : operandValue v s = operandValue v' s) :
    busAccess ⟨addr, w, .write v⟩ s = busAccess ⟨addr, w, .write v'⟩ s := by
  simp only [busAccess, h]

/-- A permitted write under a name no read has bound (log 9). -/
theorem step_write_unbound {s : State} {ts : List Turn} {rest : List Stmt} {w : Width} {off : Nat}
    {y : Var} (h : hostAccess s ts rest w off (.write (.var y))) (ho : off < 0x800000)
    (hp : permitted w off = true) (hy : lookupVar y s.vars = none) :
    step s = .refused .unboundName := by
  rw [step_access h.1 h.2]
  simp [busAccess, decodeAddr_base ho, hp, operandValue, hy]

/-- A count that has a value: the statement gives way to its expansion. -/
theorem expandStmt_bound {n : Operand} {s : State} {v : Word} (h : operandValue n s = some v)
    (expansion : Nat → List Stmt) (rest : List Stmt) :
    expandStmt n expansion rest s = .next { s with prog := expansion v.toNat ++ rest } := by
  simp only [expandStmt, h]

/-- A count under a name no read has bound (log 9). -/
theorem expandStmt_unbound {n : Operand} {s : State} (h : operandValue n s = none)
    (expansion : Nat → List Stmt) (rest : List Stmt) :
    expandStmt n expansion rest s = .refused .unboundName := by
  simp only [expandStmt, h]

/-! POLL. -/

theorem statusDone_statusWord (ph : Phase) (st : Status) :
    statusDone (statusWord ph st) = st.done :=
  (statusWordFields.1 ph st).2.1

/-- A read of STATUS out of reset. -/
theorem busRead_status {s : State} (hr : s.resetIn = false) :
    busRead .w32 Reg.status.offset s = (statusWord s.phase s.status, s) := by
  simp [busRead, hr, regionOf_registers Reg.status.offset_lt, readRegisterAt_offset, regRead]

/-- One read of STATUS by POLL out of reset: DONE says whether the statement is left to run again. -/
theorem pollOnce_released {s : State} (hr : s.resetIn = false) (x : Var) (rest : List Stmt) :
    pollOnce x rest s = bindVar x (statusWord s.phase s.status)
      { s with prog := if s.status.done then rest else .poll x :: rest } := by
  simp only [pollOnce, busRead_status hr, statusDone_statusWord]
  rfl

/-- Settles O60: the lemmas of this section at the host's turn, the windows named by their offsets. -/
theorem hostStatementsRun : Obligations.HostStatementsRun := by
  refine ⟨fun s ts rest addr w y v ht hp hy => ?bound,
    fun s ts rest off w y ho hpermit h hy => step_write_unbound h ho hpermit hy,
    fun s ts rest x ht hp hr => ?poll,
    fun s ts rest b base span size n name ht hp hw => ?rbuf,
    fun s ts rest src dst base span size base' span' size' n y ht hp hw hw' => ?copy⟩
  case bound =>
    have himm := step_access
      (s := { s with prog := .access ⟨addr, w, .write (.imm v)⟩ :: rest }) ht rfl
    rw [step_access ht hp, himm]
    exact busAccess_write_congr hy
  case poll =>
    have hread := pollOnce_released (s := { s with schedule := ts }) hr x rest
    rw [step_poll ht hp, hread]
    refine ⟨fun hd => ?_, fun hd => ?_⟩
    · simp only [hd, Bool.false_eq_true, if_false, ← hp]
    · simp only [hd, if_true]
      rfl
  case rbuf =>
    obtain ⟨rfl, -, -⟩ := windowOf_eq hw
    rw [step_rbuf ht hp]
    exact ⟨fun v hv => expandStmt_bound (s := { s with schedule := ts }) hv _ _,
      fun hn => expandStmt_unbound (s := { s with schedule := ts }) hn _ _⟩
  case copy =>
    obtain ⟨rfl, -, -⟩ := windowOf_eq hw
    obtain ⟨rfl, -, -⟩ := windowOf_eq hw'
    rw [step_copy ht hp]
    exact ⟨fun v hv => expandStmt_bound (s := { s with schedule := ts }) hv _ _,
      fun hn => expandStmt_unbound (s := { s with schedule := ts }) hn _ _⟩

/-! POLL of a running command. -/

theorem CommandEffect.prog {c : Command} {s t : State} (h : CommandEffect c s t) :
    t.prog = s.prog := by
  rw [h.frame]

theorem CommandEffect.schedule {c : Command} {s t : State} (h : CommandEffect c s t) :
    t.schedule = s.schedule := by
  rw [h.frame]

theorem Completed.done {t : State} (h : Completed t) : t.status.done = true := by
  obtain ⟨-, -, h | ⟨e, -, h⟩⟩ := h <;> rw [h] <;> rfl

/-- The engine's turn of a running legal command is its completion step (R76). -/
theorem step_completes {s : State} {ts : List Turn} (h : engineRunning s ts .command)
    (hcmd : s.cmd = 0x00000001 ∨ s.cmd = 0x00000002) :
    ∃ c t, step s = .next t ∧ Completed t ∧ CommandEffect c { s with schedule := ts } t := by
  have ⟨_, _, _, hstage⟩ := h
  rw [step_engine h]
  simp only [engineRun, hstage]
  rcases hcmd with hc | hc <;> rw [hc]
  · exact ⟨.compress, _, rfl, finish_completes _ (compressRun_raisesError _),
      exec_effect (i := .compress) nofun rfl⟩
  · exact ⟨.decompress, _, rfl, finish_completes _ (decompressRun_raisesError _),
      exec_effect (i := .decompress) nofun rfl⟩

/-- Settles O25: with no turn scheduled the engine completes the command, and then the host's read finds
DONE = 1. -/
theorem pollTerminates : Obligations.PollTerminates := by
  intro s x rest hsched hr hb hstage hcmd hp
  have hengine : nextTurn s = (.engine, []) := by simp [nextTurn, hsched, hr, hb]
  obtain ⟨c, t, hstep, hdone, heff⟩ := step_completes ⟨hengine, hr, hb, hstage⟩ hcmd
  have hidle : t.phase = .idle := hdone.1
  have hhost : nextTurn t = (.host, []) := by simp [nextTurn, heff.schedule, hidle]
  have hread := pollOnce_released (s := { t with schedule := [] }) (heff.resetIn.trans hr) x rest
  refine ⟨t, _, statusWord t.phase t.status, hstep, step_poll hhost (heff.prog.trans hp), ?_, ?_,
    (statusDone_statusWord _ _).trans hdone.done⟩
  · rw [hread]
    exact if_pos hdone.done
  · rw [hread]
    exact if_pos rfl

end Sys2Proof.Machine
end

section
/-!
The parser on a stored dictionary (R40 to R42, R57 to R62): the token at DPOS, a list of legal tokens, and
the errors of DECOMPRESS that come before its payload is read.
-/

namespace Sys2Proof.Machine

/-! The bytes at DPOS. -/

/-- What is left of the dictionary, from DPOS to its end, is stored in DBUF and is the given bytes. -/
structure State.restIs (s : State) (bytes : List Byte) : Prop where
  fits : s.dictionaryLen ≤ s.cfg.dbufSize
  len : s.eng.dpos + bytes.length = s.dictionaryLen
  stored : ∀ k, k < bytes.length → s.byteAt .dbuf (s.eng.dpos + k) = bytes[k]?

/-- The parser starts with the whole dictionary before it (R57). -/
theorem State.dictionaryIs.restIs_parseInit {s : State} {bytes : List Byte}
    (h : s.dictionaryIs bytes) (hfit : s.dictionaryLen ≤ s.cfg.dbufSize) :
    (parseInit s).restIs bytes where
  fits := hfit
  len := (Nat.zero_add _).trans h.1.symm
  stored k hk := (congrArg (s.byteAt .dbuf) (Nat.zero_add k)).trans (h.2 k hk)

/-- Past `bytes` stands what follows them. -/
theorem State.restIs.drop {s t : State} {bytes more : List Byte} (h : s.restIs (bytes ++ more))
    (hcfg : t.cfg = s.cfg) (hdict : t.dictLen = s.dictLen) (hmem : t.mem = s.mem)
    (hdpos : t.eng.dpos = s.eng.dpos + bytes.length) : t.restIs more where
  fits := by
    rw [hcfg, State.dictionaryLen, hdict]
    exact h.fits
  len := by
    have hlen := h.len
    rw [List.length_append] at hlen
    rw [hdpos, State.dictionaryLen, hdict]
    exact (Nat.add_assoc ..).trans hlen
  stored k hk := by
    have hk' := h.stored (bytes.length + k) (by rw [List.length_append]; omega)
    rw [List.getElem?_append_right (by omega), Nat.add_sub_cancel_left] at hk'
    rw [hdpos, Nat.add_assoc, State.byteAt, hmem]
    exact hk'

/-- A read of the next byte. -/
theorem State.restIs.read_head {s : State} {v : Byte} {more : List Byte} (h : s.restIs (v :: more)) :
    memRead .dbuf s.eng.dpos s = (v, s) := by
  have hlen := h.len
  have hfits := h.fits
  rw [List.length_cons] at hlen
  exact memRead_stored (show s.eng.dpos < s.cfg.dbufSize by omega)
    (h.stored 0 (by simp))

/-- A read of the byte after the next one. -/
theorem State.restIs.read_second {s : State} {u v : Byte} {more : List Byte}
    (h : s.restIs (u :: v :: more)) : memRead .dbuf (s.eng.dpos + 1) s = (v, s) := by
  have hlen := h.len
  have hfits := h.fits
  simp only [List.length_cons] at hlen
  exact memRead_stored (show s.eng.dpos + 1 < s.cfg.dbufSize by omega)
    (h.stored 1 (by simp))

/-! One token. -/

/-- A structural byte that is no LEAF mark is fetched alone. -/
theorem fetchToken_short {s : State} {mark : Byte} {more : List Byte} (h : s.restIs (mark :: more))
    (hmark : mark ≠ 0x31) : fetchToken s = ([mark], s) := by
  simp only [fetchToken, h.read_head, if_neg hmark]

/-- A LEAF mark is fetched with its symbol. -/
theorem fetchToken_leaf {s : State} {sym : Byte} {more : List Byte}
    (h : s.restIs (0x31 :: sym :: more)) : fetchToken s = ([0x31, sym], s) := by
  have hlen := h.len
  simp only [List.length_cons] at hlen
  have hroom : s.eng.dpos + 1 < s.dictionaryLen := by omega
  simp only [fetchToken, h.read_head, if_true, if_pos hroom, h.read_second]

/-- A LEAF mark that is the last byte is fetched with the placeholder (log 14). -/
theorem fetchToken_lone_leaf {s : State} (h : s.restIs [0x31]) : fetchToken s = ([0x31, 0], s) := by
  have hlast : s.eng.dpos + 1 = s.dictionaryLen := h.len
  simp only [fetchToken, h.read_head, if_true, hlast, Nat.lt_irrefl, if_false]

/-- The token whose bytes stand at DPOS is fetched whole (R41). -/
theorem fetchToken_stored {s : State} {i : Instr} {more : List Byte} (hwf : i.wf = true)
    (hi : tokenBytes i ≠ []) (h : s.restIs (tokenBytes i ++ more)) :
    fetchToken s = (tokenBytes i, s) := by
  cases i with
  | compress => exact absurd rfl hi
  | decompress => exact absurd rfl hi
  | badCommand opcode rsv => exact absurd rfl hi
  | tokenInternal => exact fetchToken_short h (by decide)
  | tokenLeaf sym => exact fetchToken_leaf h
  | tokenInvalid mark =>
    have hmark : illegalMark mark := of_decide_eq_true hwf
    exact fetchToken_short h hmark.2

/-- The turn of the parse loop at a stored token runs it (R57). -/
theorem parseToken_stored {s : State} {i : Instr} {more : List Byte} (hwf : i.wf = true)
    (hi : tokenBytes i ≠ []) (h : s.restIs (tokenBytes i ++ more)) :
    parseToken s = runToken i s := by
  have hdecode := decodeToken_tokenBytes hwf hi []
  rw [List.append_nil] at hdecode
  simp only [parseToken, fetchToken_stored hwf hi h, hdecode]

/-- A structural byte that is no mark is an error (R42, R61). -/
theorem parseToken_invalid {s : State} {mark : Byte} {more : List Byte} (hmark : illegalMark mark)
    (h : s.restIs (mark :: more)) : parseToken s = .error (.invalidDictionary, s) :=
  parseToken_stored (i := .tokenInvalid mark) (decide_eq_true hmark) (List.cons_ne_nil _ _) h

/-- A LEAF mark with no symbol byte is an error (R42, R59). -/
theorem parseToken_lone_leaf {s : State} (h : s.restIs [0x31]) :
    parseToken s = .error (.invalidDictionary, s) := by
  have hlast : s.eng.dpos + 1 = s.dictionaryLen := h.len
  have hdecode : decodeToken [0x31, 0] = .ok (.tokenLeaf 0, []) := rfl
  simp only [parseToken, fetchToken_lone_leaf h, hdecode, runToken, tokenLeaf, hlast, Nat.le_refl,
    if_true]

/-! A list of legal tokens. -/

/-- The parser's state after a list of tokens: PATH and INV as `walkTokens` says, ENTRIES one more for
each LEAF, DPOS past their bytes (R58, R59). -/
def State.afterTokens (s : State) (toks : List Instr) : State :=
  s.withEng { s.eng with
    path := (walkTokens toks (s.eng.path, s.eng.inv)).1
    inv := (walkTokens toks (s.eng.path, s.eng.inv)).2
    entries := s.eng.entries + (toks.filterMap leafSym).length
    dpos := s.eng.dpos + (toks.flatMap tokenBytes).length }

@[simp] theorem State.afterTokens_nil (s : State) : s.afterTokens [] = s := rfl

theorem walkTokens_cons (i : Instr) (toks : List Instr) (w : Bits × List (Bits × Byte)) :
    walkTokens (i :: toks) w = walkTokens toks (walkTokens [i] w) := by
  cases i <;> rfl

theorem State.afterTokens_cons (s : State) (i : Instr) (toks : List Instr) :
    s.afterTokens (i :: toks) = (s.afterTokens [i]).afterTokens toks := by
  have hentries : ((i :: toks).filterMap leafSym).length =
      ([i].filterMap leafSym).length + (toks.filterMap leafSym).length := by
    rw [← List.length_append, ← List.filterMap_append, List.singleton_append]
  simp only [State.afterTokens, hentries, walkTokens_cons i toks, List.flatMap_cons,
    List.flatMap_nil, List.append_nil, List.length_append, ← Nat.add_assoc]
  rfl

theorem State.restIs.afterTokens {s : State} {toks : List Instr} {more : List Byte}
    (h : s.restIs (toks.flatMap tokenBytes ++ more)) : (s.afterTokens toks).restIs more :=
  h.drop rfl rfl rfl rfl

/-- A legal token within PATH_MAX runs without error (R58, R59). -/
theorem runToken_mark {s : State} {i : Instr} {toks : List Instr} {more : List Byte}
    (hi : isMarkToken i) (hwalk : walkFits s.cfg.pathMax (i :: toks) s.eng.path = true)
    (h : s.restIs (tokenBytes i ++ more)) : runToken i s = .ok (s.afterTokens [i]) := by
  cases i with
  | compress => exact hi.elim
  | decompress => exact hi.elim
  | badCommand opcode rsv => exact hi.elim
  | tokenInvalid mark => exact hi.elim
  | tokenInternal =>
    have hroom : s.eng.path.length < s.cfg.pathMax :=
      of_decide_eq_true (Bool.and_eq_true_iff.mp hwalk).1
    exact if_neg (by omega)
  | tokenLeaf sym =>
    have hlen : s.eng.dpos + (2 + more.length) = s.dictionaryLen := by
      rw [← h.len, List.length_append]
      rfl
    exact if_neg (by omega)

/-- The path a walk goes on from. -/
theorem walkFits_tail {pathMax : Nat} {i : Instr} {toks : List Instr} {s : State}
    (h : walkFits pathMax (i :: toks) s.eng.path = true) :
    walkFits pathMax toks (s.afterTokens [i]).eng.path = true := by
  cases i with
  | tokenInternal => exact (Bool.and_eq_true_iff.mp h).2
  | _ => exact h

theorem isMarkToken.wf_ne_nil {i : Instr} (h : isMarkToken i) : i.wf = true ∧ tokenBytes i ≠ [] := by
  cases i with
  | tokenInternal => exact ⟨rfl, List.cons_ne_nil _ _⟩
  | tokenLeaf sym => exact ⟨rfl, List.cons_ne_nil _ _⟩
  | _ => exact h.elim

/-- The parse loop over legal tokens within PATH_MAX, whatever follows them (R57): one turn each. -/
theorem parseLoop_tokens {s : State} {toks : List Instr} {more : List Byte} (fuel : Nat)
    (htoks : ∀ i ∈ toks, isMarkToken i) (hwalk : walkFits s.cfg.pathMax toks s.eng.path = true)
    (h : s.restIs (toks.flatMap tokenBytes ++ more)) :
    parseLoop (toks.length + fuel) s = parseLoop fuel (s.afterTokens toks) := by
  induction toks generalizing s with
  | nil => simp
  | cons i toks ih =>
    have hmark := htoks i (List.mem_cons_self ..)
    obtain ⟨hwf, hne⟩ := hmark.wf_ne_nil
    have hhead : s.restIs (tokenBytes i ++ (toks.flatMap tokenBytes ++ more)) := by
      rwa [List.flatMap_cons, List.append_assoc] at h
    have hroom : s.eng.dpos < s.dictionaryLen := by
      have hlen := hhead.len
      have hpos := List.length_pos_iff.mpr hne
      rw [List.length_append] at hlen
      omega
    have htoken : parseToken s = .ok (s.afterTokens [i]) :=
      (parseToken_stored hwf hne hhead).trans (runToken_mark hmark hwalk hhead)
    have hrest : (s.afterTokens [i]).restIs (toks.flatMap tokenBytes ++ more) :=
      State.restIs.afterTokens (by simpa using hhead)
    rw [State.afterTokens_cons, ← ih (fun j hj => htoks j (List.mem_cons_of_mem i hj))
      (walkFits_tail hwalk) hrest, List.length_cons, Nat.add_right_comm, parseLoop, if_pos hroom,
      htoken]

/-- Every legal token has a byte. -/
theorem length_le_tokenBytes {toks : List Instr} (htoks : ∀ i ∈ toks, isMarkToken i) :
    toks.length ≤ (toks.flatMap tokenBytes).length := by
  induction toks with
  | nil => exact Nat.zero_le _
  | cons i toks ih =>
    have hpos := List.length_pos_iff.mpr (htoks i (List.mem_cons_self ..)).wf_ne_nil.2
    have hrest := ih fun j hj => htoks j (List.mem_cons_of_mem i hj)
    rw [List.flatMap_cons, List.length_append, List.length_cons]
    omega

/-- The parser from its start to the first byte after a list of legal tokens, where it raises an error. -/
theorem parseLoop_error_after_tokens {s t : State} {toks : List Instr} {mark : Byte}
    {more : List Byte} {e : ErrCode} (htoks : ∀ i ∈ toks, isMarkToken i)
    (hwalk : walkFits s.cfg.pathMax toks [] = true) (hfit : s.dictionaryLen ≤ s.cfg.dbufSize)
    (hd : s.dictionaryIs (toks.flatMap tokenBytes ++ mark :: more))
    (herr : parseToken ((parseInit s).afterTokens toks) = .error (e, t)) :
    parseLoop s.dictionaryLen (parseInit s) = .error (e, t) := by
  have hstart := State.dictionaryIs.restIs_parseInit hd hfit
  have hlen := hstart.afterTokens.len
  have hbytes := length_le_tokenBytes htoks
  obtain ⟨fuel, hfuel⟩ : ∃ fuel, s.dictionaryLen = toks.length + (fuel + 1) := by
    refine ⟨s.dictionaryLen - toks.length - 1, ?_⟩
    rw [hd.1, List.length_append, List.length_cons]
    omega
  have hroom : ((parseInit s).afterTokens toks).eng.dpos <
      ((parseInit s).afterTokens toks).dictionaryLen := by
    rw [← hlen, List.length_cons]
    omega
  rw [hfuel, parseLoop_tokens (s := parseInit s) _ htoks hwalk hstart, parseLoop, if_pos hroom, herr]

/-! The errors of DECOMPRESS. -/

/-- DECOMPRESS with lengths in range ends with the error its parse loop raises (R80, R88). -/
theorem exec_decompress_parseLoop_error_after_tokens {s t : State} {e : ErrCode}
    (hin : s.inputLen ≤ s.cfg.ibufSize) (hdict : s.dictionaryLen ≤ s.cfg.dbufSize)
    (herr : parseLoop s.dictionaryLen (parseInit s) = .error (e, t)) :
    ∃ u, exec .decompress s = .next u ∧ errorCompleted .decompress e s u := by
  have hrun : decompressRun s = .error (e, t) := by
    rw [decompressRun, if_neg (by omega), herr]
  have hframe : sameButWorking (parseInit s) t := by
    rcases parseLoop_parses s.dictionaryLen (parseInit s) with ⟨u, hr, -⟩ | ⟨e', u, hr, hu, -⟩ <;>
      cases hr.symm.trans herr
    exact hu
  refine ⟨errorComplete .decompress e t, by rw [exec, execDecompress, hrun]; rfl, ?_⟩
  obtain ⟨eng, draws, rfl⟩ := hframe
  exact errorCompleted_of_raised rfl (fun _ hne => absurd rfl hne) (errorComplete_completed ..)

/-- Settles O31: the parser walks the legal tokens and raises the error at what follows them. -/
theorem invalidDictionaryIsReported : Obligations.InvalidDictionaryIsReported := by
  intro s toks htoks hwalk hin hdict
  refine ⟨fun mark rest hmark hd => ?_, fun hd => ?_⟩ <;>
    have hrest := (State.dictionaryIs.restIs_parseInit hd hdict).afterTokens
  · exact exec_decompress_parseLoop_error_after_tokens hin hdict
      (parseLoop_error_after_tokens htoks hwalk hdict hd (parseToken_invalid hmark hrest))
  · exact exec_decompress_parseLoop_error_after_tokens hin hdict
      (parseLoop_error_after_tokens htoks hwalk hdict hd (parseToken_lone_leaf hrest))

end Sys2Proof.Machine
end

section
/-!
FREQ, the Leaves and the merges (R47 to R50): what each part of FREQ_BUILD and TREE_BUILD computes.
-/

namespace Sys2Proof.Machine

/-! SELECT_MIN. -/

/-- The least frequency is at most each of the frequencies, and is one of them. -/
theorem minFreq_le (f : Nat → Nat) (m : Nat) (hs : List Nat) :
    minFreq f m hs ≤ m ∧ ∀ k ∈ hs, minFreq f m hs ≤ f k := by
  induction hs generalizing m with
  | nil => simp [minFreq]
  | cons h hs ih =>
    obtain ⟨hmin, hrest⟩ := ih (min m (f h))
    refine ⟨hmin.trans (Nat.min_le_left ..), fun k hk => ?_⟩
    rcases List.mem_cons.mp hk with rfl | hk
    · exact hmin.trans (Nat.min_le_right ..)
    · exact hrest k hk

theorem minFreq_mem (f : Nat → Nat) (m : Nat) (hs : List Nat) :
    minFreq f m hs = m ∨ ∃ k ∈ hs, f k = minFreq f m hs := by
  induction hs generalizing m with
  | nil => exact .inl rfl
  | cons h hs ih =>
    rcases ih (min m (f h)) with hmin | ⟨k, hk, hfk⟩
    · rcases Nat.le_total m (f h) with hle | hle
      · exact .inl (hmin.trans (Nat.min_eq_left hle))
      · exact .inr ⟨h, List.mem_cons_self, (hmin.trans (Nat.min_eq_right hle)).symm⟩
    · exact .inr ⟨k, List.mem_cons_of_mem h hk, hfk⟩

/-- Settles O39: the scan finds the first handle whose frequency is the least one. -/
theorem selectMinTakesEarliestLeast : Obligations.SelectMinTakesEarliestLeast := by
  intro f work hwork
  obtain ⟨h0, hs, rfl⟩ := List.exists_cons_of_ne_nil hwork
  set m := minFreq f (f h0) hs with hm
  have hle : ∀ k ∈ h0 :: hs, m ≤ f k :=
    List.forall_mem_cons.mpr (minFreq_le f (f h0) hs)
  obtain ⟨k, hk, hfk⟩ : ∃ k ∈ h0 :: hs, f k = m := by
    rcases minFreq_mem f (f h0) hs with h | ⟨k, hk, h⟩
    · exact ⟨h0, List.mem_cons_self, h.symm⟩
    · exact ⟨k, List.mem_cons_of_mem h0 hk, h⟩
  obtain ⟨h, before, after, hbefore, hfh, hsplit, herase⟩ :=
    List.exists_of_eraseP (p := fun k => f k == m) hk (by simp [hfk])
  have hfind : (h0 :: hs).find? (fun k => f k == m) = some h :=
    List.find?_eq_some_iff_append.mpr ⟨hfh, before, after, hsplit, by simpa using hbefore⟩
  have hfh : f h = m := by simpa using hfh
  refine ⟨before, h, after, hsplit, ?_, fun k hk => ?_, fun k hk => ?_⟩
  · simp only [selectMin, ← hm, hfind, herase]
  · have hne : f k ≠ m := by simpa using hbefore k hk
    have := hle k (by simp [hsplit, hk])
    omega
  · rw [hfh]
    exact hle k (by simp [hsplit, hk])

/-- SELECT_MIN of a nonempty list takes one handle out of it (R49). -/
theorem selectMin_perm (f : Nat → Nat) {work : List Nat} (hwork : work ≠ []) :
    ∃ a rest, selectMin f work = some (a, rest) ∧ work.Perm (a :: rest) := by
  obtain ⟨before, a, after, rfl, hsel, -, -⟩ := selectMinTakesEarliestLeast f work hwork
  exact ⟨a, before ++ after, hsel, List.perm_middle⟩

/-! The merges. -/

/-- One turn of the merge loop with two or more handles at hand (R50). -/
theorem mergeLoop_merge (fuel : Nat) (nodes : List Node) {work : List Nat} (hwork : 2 ≤ work.length) :
    ∃ a work1 b work2, selectMin (nodeFreq nodes) work = some (a, work1) ∧
      selectMin (nodeFreq nodes) work1 = some (b, work2) ∧
      work.Perm (a :: b :: work2) ∧
      mergeLoop (fuel + 1) nodes work =
        mergeLoop fuel (nodes ++ [.internal (nodeFreq nodes a + nodeFreq nodes b) a b])
          (work2 ++ [nodes.length]) := by
  obtain ⟨a, work1, ha, hperm1⟩ :=
    selectMin_perm (nodeFreq nodes) (List.ne_nil_of_length_pos (by omega : 0 < work.length))
  have hlen := hperm1.length_eq
  rw [List.length_cons] at hlen
  obtain ⟨b, work2, hb, hperm2⟩ :=
    selectMin_perm (nodeFreq nodes) (List.ne_nil_of_length_pos (by omega : 0 < work1.length))
  exact ⟨a, work1, b, work2, ha, hb, hperm1.trans (hperm2.cons a), by simp only [mergeLoop, ha, hb]⟩

/-- With fewer than two handles nothing is merged. -/
theorem mergeLoop_done (fuel : Nat) (nodes : List Node) {work : List Nat} (hwork : work.length < 2) :
    mergeLoop fuel nodes work = (nodes, work) := by
  cases fuel with
  | zero => rfl
  | succ fuel =>
    match work, hwork with
    | [], _ => rfl
    | [h], _ => simp [mergeLoop, selectMin, minFreq]

/-- What every merge keeps, the merge loop keeps. -/
theorem mergeLoop_keeps {P : List Node → List Nat → Prop}
    (merge : ∀ nodes work a b work2, P nodes work → work.Perm (a :: b :: work2) →
      P (nodes ++ [.internal (nodeFreq nodes a + nodeFreq nodes b) a b]) (work2 ++ [nodes.length]))
    (fuel : Nat) {nodes : List Node} {work : List Nat} (h : P nodes work) :
    P (mergeLoop fuel nodes work).1 (mergeLoop fuel nodes work).2 := by
  induction fuel generalizing nodes work with
  | zero => exact h
  | succ fuel ih =>
    rcases Nat.lt_or_ge work.length 2 with hwork | hwork
    · rwa [mergeLoop_done _ _ hwork]
    · obtain ⟨a, work1, b, work2, -, -, hperm, hmerge⟩ := mergeLoop_merge fuel nodes hwork
      rw [hmerge]
      exact ih (merge _ _ a b work2 h hperm)

/-- Enough merges leave one handle. -/
theorem mergeLoop_single (fuel : Nat) (nodes : List Node) {work : List Nat} (hwork : work ≠ [])
    (hfuel : work.length ≤ fuel + 1) : ∃ root, (mergeLoop fuel nodes work).2 = [root] := by
  induction fuel generalizing nodes work with
  | zero =>
    have hpos := List.length_pos_iff.mpr hwork
    exact List.length_eq_one_iff.mp (show work.length = 1 by omega)
  | succ fuel ih =>
    have hpos := List.length_pos_iff.mpr hwork
    rcases Nat.lt_or_ge work.length 2 with hlt | hge
    · rw [mergeLoop_done _ _ hlt]
      exact List.length_eq_one_iff.mp (show work.length = 1 by omega)
    · obtain ⟨a, work1, b, work2, -, -, hperm, hmerge⟩ := mergeLoop_merge fuel nodes hge
      have hlen := hperm.length_eq
      simp only [List.length_cons] at hlen
      rw [hmerge]
      refine ih _ (by simp) ?_
      rw [List.length_append, List.length_singleton]
      omega

theorem buildTree_single {freq : Vector Nat 256} (h : leafNodes freq ≠ []) :
    ∃ root, (buildTree freq).2 = [root] :=
  mergeLoop_single _ _ (by simpa using h) (by rw [List.length_range]; omega)

/-- Settles O40: a merge by `mergeLoop_merge`, the end of the loop by the number of handles. -/
theorem mergeJoinsTheTwoLeast : Obligations.MergeJoinsTheTwoLeast := by
  refine ⟨fun fuel nodes work hwork => ?_, fun fuel nodes h => mergeLoop_done _ _ (by simp),
    fun _ => rfl, fun _ => buildTree_single⟩
  obtain ⟨a, work1, b, work2, ha, hb, -, hmerge⟩ := mergeLoop_merge fuel nodes hwork
  exact ⟨a, work1, b, work2, ha, hb, hmerge⟩

/-! The Leaves. -/

/-- `FREQ[x]`. -/
def freqOf (freq : Vector Nat 256) (x : Byte) : Nat := freq[x.toNat]'x.isLt

/-- The symbols that occur, in ascending byte order. -/
def occurring (freq : Vector Nat 256) : List Byte :=
  ((List.finRange 256).map (BitVec.ofFin (w := 8))).filter (fun x => 0 < freqOf freq x)

theorem leafNodes_eq (freq : Vector Nat 256) :
    leafNodes freq = (occurring freq).map (fun x => .leaf x (freqOf freq x)) := by
  unfold leafNodes occurring
  induction List.finRange 256 with
  | nil => rfl
  | cons s l ih =>
    have hs : freqOf freq (BitVec.ofFin (w := 8) s) = freq[s] := rfl
    rw [List.filterMap_cons, List.map_cons, List.filter_cons, ih, hs, BitVec.ofNat_finVal]
    by_cases hpos : 0 < freq[s]
    · simp only [hpos, if_true, decide_true, List.map_cons, hs]
    · simp only [hpos, if_false, decide_false, Bool.false_eq_true]

theorem mem_occurring {freq : Vector Nat 256} {x : Byte} :
    x ∈ occurring freq ↔ 0 < freqOf freq x := by
  have hx : x ∈ (List.finRange 256).map (BitVec.ofFin (w := 8)) :=
    List.mem_map.mpr ⟨x.toFin, List.mem_finRange _, rfl⟩
  simp [occurring, List.mem_filter, hx]

theorem occurring_ascending (freq : Vector Nat 256) :
    (occurring freq).Pairwise (fun x y => x.toNat < y.toNat) :=
  List.Pairwise.filter _ (List.pairwise_map.mpr ((List.pairwise_lt_finRange 256).imp id))

theorem occurring_nodup (freq : Vector Nat 256) : (occurring freq).Nodup :=
  (occurring_ascending freq).imp fun hlt heq => hlt.ne (congrArg BitVec.toNat heq)

/-- Settles O38: the symbols are those of `occurring`. -/
theorem leavesAreAscending : Obligations.LeavesAreAscending := fun freq =>
  ⟨occurring freq, leafNodes_eq freq, occurring_ascending freq, fun _ => mem_occurring⟩

/-! The counts. -/

/-- The sum over a table after one entry is set: the old entry's share gives way to the new one's. -/
theorem sum_set {α : Type} (g : α → Nat) (v : Vector α 256) (k : Nat) (hk : k < 256) (a : α) :
    ∑ i : Fin 256, g (v.set k a)[i] + g v[k] = ∑ i : Fin 256, g v[i] + g a := by
  have hother : ∑ i ∈ Finset.univ.erase (⟨k, hk⟩ : Fin 256), g (v.set k a)[i] =
      ∑ i ∈ Finset.univ.erase (⟨k, hk⟩ : Fin 256), g v[i] :=
    Finset.sum_congr rfl fun i hi => by
      have hne : k ≠ i.val := fun h => Finset.ne_of_mem_erase hi (Fin.ext h.symm)
      simp [hne]
  rw [← Finset.add_sum_erase _ _ (Finset.mem_univ (⟨k, hk⟩ : Fin 256)), hother,
    ← Finset.add_sum_erase _ (fun i : Fin 256 => g v[i]) (Finset.mem_univ (⟨k, hk⟩ : Fin 256))]
  have hself : (v.set k a)[(⟨k, hk⟩ : Fin 256)] = a := Vector.getElem_set_self hk
  have hold : g v[(⟨k, hk⟩ : Fin 256)] = g v[k] := rfl
  rw [hself, hold]
  omega

theorem freqTable_concat (bytes : List Byte) (x : Byte) :
    freqTable (bytes ++ [x]) = countByte (freqTable bytes) x := by
  simp [freqTable]

/-- FREQ counts every symbol (R47). -/
theorem freqOf_freqTable (bytes : List Byte) (x : Byte) :
    freqOf (freqTable bytes) x = bytes.count x := by
  induction bytes using List.reverseRecOn with
  | nil => simp [freqTable, freqOf]
  | append_singleton bytes y ih =>
    rw [freqTable_concat, List.count_append, ← ih]
    by_cases h : y = x
    · subst h
      simp [freqOf, countByte]
    · have hne : y.toNat ≠ x.toNat := fun heq => h (BitVec.eq_of_toNat_eq heq)
      simp [freqOf, countByte, hne, h]

/-- The counts add up to the length of the input (R47). -/
theorem sum_freqTable (bytes : List Byte) : ∑ i : Fin 256, (freqTable bytes)[i] = bytes.length := by
  induction bytes using List.reverseRecOn with
  | nil => simp [freqTable]
  | append_singleton bytes x ih =>
    have hset := sum_set id (freqTable bytes) x.toNat x.isLt (freqOf (freqTable bytes) x + 1)
    simp only [id_eq, ih] at hset
    rw [freqTable_concat, List.length_append, List.length_singleton]
    change ∑ i : Fin 256,
      ((freqTable bytes).set x.toNat (freqOf (freqTable bytes) x + 1) x.isLt)[i] = _
    have hold : (freqTable bytes)[x.toNat] = freqOf (freqTable bytes) x := rfl
    omega

theorem occurring_freqTable (bytes : List Byte) :
    (occurring (freqTable bytes)).Perm bytes.dedup :=
  (List.perm_ext_iff_of_nodup (occurring_nodup _) (List.nodup_dedup _)).mpr fun x => by
    rw [mem_occurring, freqOf_freqTable, List.count_pos_iff, List.mem_dedup]

end Sys2Proof.Machine
end

section
/-!
Code trees (R43, R51 to R55): what NODE holds below a handle, as a tree, and what GENERATE computes of
it.
-/

namespace Sys2Proof.Machine

/-- A binary tree with a symbol at each Leaf. -/
inductive Tree where
  | leaf (sym : Byte)
  | node (left right : Tree)

namespace Tree

/-- The symbols at the Leaves, left to right. -/
def syms : Tree → List Byte
  | leaf x => [x]
  | node l r => l.syms ++ r.syms

/-- The symbol at the Leaf a path leads to, 0 for left and 1 for right (R43). -/
def symAt : Tree → Bits → Option Byte
  | leaf x, [] => some x
  | leaf _, _ :: _ => none
  | node _ _, [] => none
  | node l r, bit :: p => if bit then r.symAt p else l.symAt p

/-- The codes of the Leaves below a path (R52). -/
def codes : Tree → Bits → List (Byte × Bits)
  | leaf x, path => [(x, leafKey path)]
  | node l r, path => l.codes (path ++ [false]) ++ r.codes (path ++ [true])

/-- The dictionary tokens, in pre-order (R54). -/
def tokens : Tree → List Instr
  | leaf x => [.tokenLeaf x]
  | node l r => .tokenInternal :: (l.tokens ++ r.tokens)

/-! Leaves. -/

theorem length_syms_pos (T : Tree) : 0 < T.syms.length := by
  induction T with
  | leaf x => simp [syms]
  | node l r ihl ihr => simp [syms, ihl]

theorem two_le_length_syms (l r : Tree) : 2 ≤ (node l r).syms.length := by
  have hl := l.length_syms_pos
  have hr := r.length_syms_pos
  rw [syms, List.length_append]
  omega

theorem map_fst_codes (T : Tree) (path : Bits) : (T.codes path).map Prod.fst = T.syms := by
  induction T generalizing path with
  | leaf x => rfl
  | node l r ihl ihr => rw [codes, List.map_append, ihl, ihr, syms]

/-- The codes are the paths to the Leaves. -/
theorem mem_codes {T : Tree} {path : Bits} {x : Byte} {c : Bits} :
    (x, c) ∈ T.codes path ↔ ∃ p, T.symAt p = some x ∧ c = leafKey (path ++ p) := by
  induction T generalizing path with
  | leaf y =>
    refine ⟨fun h => ⟨[], ?_⟩, fun ⟨p, hp, hc⟩ => ?_⟩
    · obtain ⟨rfl, rfl⟩ := Prod.mk.inj (List.mem_singleton.mp h)
      exact ⟨rfl, by rw [List.append_nil]⟩
    · cases p with
      | nil =>
        cases hp
        rw [hc, List.append_nil]
        exact List.mem_singleton.mpr rfl
      | cons bit p => cases hp
  | node l r ihl ihr =>
    rw [codes, List.mem_append, ihl, ihr]
    constructor
    · rintro (⟨p, hp, rfl⟩ | ⟨p, hp, rfl⟩)
      · exact ⟨false :: p, hp, by simp⟩
      · exact ⟨true :: p, hp, by simp⟩
    · rintro ⟨p, hp, rfl⟩
      match p with
      | [] => cases hp
      | false :: p => exact .inl ⟨p, hp, by simp⟩
      | true :: p => exact .inr ⟨p, hp, by simp⟩

/-! Paths. -/

/-- A path is shorter than the number of Leaves. -/
theorem length_lt_of_symAt {T : Tree} {p : Bits} {x : Byte} (h : T.symAt p = some x) :
    p.length < T.syms.length := by
  induction T generalizing p with
  | leaf y =>
    cases p with
    | nil => simp [syms]
    | cons bit p => cases h
  | node l r ihl ihr =>
    have hl := l.length_syms_pos
    have hr := r.length_syms_pos
    rw [syms, List.length_append]
    match p with
    | [] => exact Nat.add_pos_left hl _
    | false :: p =>
      have := ihl (p := p) h
      rw [List.length_cons]
      omega
    | true :: p =>
      have := ihr (p := p) h
      rw [List.length_cons]
      omega

/-- No path to a Leaf goes on to another one. -/
theorem eq_of_symAt_prefix {T : Tree} {p q : Bits} {x y : Byte} (hp : T.symAt p = some x)
    (hq : T.symAt q = some y) (hpq : p <+: q) : p = q := by
  induction T generalizing p q with
  | leaf z =>
    match p, q with
    | [], [] => rfl
    | [], _ :: _ => cases hq
    | _ :: _, _ => cases hp
  | node l r ihl ihr =>
    match p, q with
    | [], _ => cases hp
    | _ :: _, [] => cases hq
    | b :: p, c :: q =>
      obtain ⟨rfl, htails⟩ := List.cons_prefix_cons.mp hpq
      cases b with
      | false => rw [ihl hp hq htails]
      | true => rw [ihr hp hq htails]

/-- Going left ends at a Leaf. -/
theorem exists_symAt_zeros (T : Tree) : ∃ d x, T.symAt (zeros d) = some x := by
  induction T with
  | leaf x => exact ⟨0, x, rfl⟩
  | node l r ihl ihr =>
    obtain ⟨d, x, h⟩ := ihl
    exact ⟨d + 1, x, h⟩

theorem zeros_prefix {d e : Nat} (h : d ≤ e) : zeros d <+: zeros e :=
  List.prefix_replicate_iff.mpr (by simp [zeros, h])

/-- There is one Leaf to the left of all others. -/
theorem symAt_zeros_unique {T : Tree} {d e : Nat} {x y : Byte} (hx : T.symAt (zeros d) = some x)
    (hy : T.symAt (zeros e) = some y) : x = y := by
  have heq : zeros d = zeros e := by
    rcases Nat.le_total d e with h | h
    · exact eq_of_symAt_prefix hx hy (zeros_prefix h)
    · exact (eq_of_symAt_prefix hy hx (zeros_prefix h)).symm
  exact Option.some.inj (hx.symm.trans (heq ▸ hy))

/-! The Kraft sum (R55). -/

/-- The shares `2 ^ (k - length)` of the codes in a list add up. -/
def kraft (k : Nat) (entries : List (Byte × Bits)) : Nat :=
  (entries.map fun e => 2 ^ (k - e.2.length)).sum

/-- The Leaves below a path share what the path has. -/
theorem kraft_codes (T : Tree) {k : Nat} {path : Bits} (hpath : path ≠ [])
    (hk : path.length + T.syms.length ≤ k + 1) :
    kraft k (T.codes path) = 2 ^ (k - path.length) := by
  induction T generalizing path with
  | leaf x => simp [kraft, codes, leafKey, hpath]
  | node l r ihl ihr =>
    have hl := l.length_syms_pos
    have hr := r.length_syms_pos
    rw [syms, List.length_append] at hk
    have hleft := ihl (path := path ++ [false]) (by simp)
      (by rw [List.length_append, List.length_singleton]; omega)
    have hright := ihr (path := path ++ [true]) (by simp)
      (by rw [List.length_append, List.length_singleton]; omega)
    rw [List.length_append, List.length_singleton] at hleft hright
    obtain ⟨j, hj⟩ : ∃ j, k - path.length = j + 1 := ⟨k - path.length - 1, by omega⟩
    have hj' : k - (path.length + 1) = j := by omega
    rw [hj'] at hleft hright
    rw [hj, codes, kraft, List.map_append, List.sum_append, ← kraft, ← kraft, hleft, hright, pow_succ]
    omega

/-- The codes of a tree of two or more Leaves, none deeper than `k`, share all of `2 ^ k`. -/
theorem kraft_codes_node (l r : Tree) {k : Nat} (hk : (node l r).syms.length ≤ k + 1) :
    kraft k ((node l r).codes []) = 2 ^ k := by
  have hl := l.length_syms_pos
  have hr := r.length_syms_pos
  rw [syms, List.length_append] at hk
  obtain ⟨j, rfl⟩ : ∃ j, k = j + 1 := ⟨k - 1, by omega⟩
  rw [codes, kraft, List.map_append, List.sum_append, ← kraft, ← kraft,
    kraft_codes l (by simp) (by rw [List.nil_append, List.length_singleton]; omega),
    kraft_codes r (by simp) (by rw [List.nil_append, List.length_singleton]; omega), pow_succ,
    List.nil_append, List.nil_append, List.length_singleton, List.length_singleton, Nat.add_sub_cancel]
  omega

/-! The dictionary (R54). -/

theorem isMarkToken_tokens (T : Tree) : ∀ i ∈ T.tokens, isMarkToken i := by
  induction T with
  | leaf x => exact List.forall_mem_singleton.mpr trivial
  | node l r ihl ihr =>
    exact List.forall_mem_cons.mpr ⟨trivial, List.forall_mem_append.mpr ⟨ihl, ihr⟩⟩

theorem filterMap_leafSym_tokens (T : Tree) : T.tokens.filterMap leafSym = T.syms := by
  induction T with
  | leaf x => rfl
  | node l r ihl ihr => simp [tokens, syms, leafSym, List.filterMap_cons, ihl, ihr]

/-- There is one INTERNAL token less than Leaves. -/
theorem count_tokens (T : Tree) : T.tokens.count .tokenInternal + 1 = T.syms.length := by
  induction T with
  | leaf x => simp [tokens, syms]
  | node l r ihl ihr =>
    rw [tokens, List.count_cons_self, List.count_append, syms, List.length_append]
    omega

/-- Two bytes for a LEAF token, one for an INTERNAL one. -/
theorem length_tokenBytes (T : Tree) : (T.tokens.flatMap tokenBytes).length + 1 = 3 * T.syms.length := by
  induction T with
  | leaf x => rfl
  | node l r ihl ihr =>
    rw [tokens, List.flatMap_cons, List.flatMap_append, List.length_append, List.length_append, syms,
      List.length_append]
    have hmark : (tokenBytes .tokenInternal).length = 1 := rfl
    omega

end Tree

/-! Trees in the arena. -/

/-- The tree stands in NODE at a handle: its Leaves have the frequencies `weight`, and children are
earlier nodes. -/
def Stores (weight : Byte → Nat) (nodes : List Node) : Nat → Tree → Prop
  | h, .leaf x => nodes[h]? = some (.leaf x (weight x))
  | h, .node l r => ∃ f a b, nodes[h]? = some (.internal f a b) ∧ a < h ∧ b < h ∧
      Stores weight nodes a l ∧ Stores weight nodes b r

section Stored

variable {weight : Byte → Nat} {nodes : List Node} {h : Nat} {T : Tree}

theorem Stores.append (hT : Stores weight nodes h T) (new : List Node) :
    Stores weight (nodes ++ new) h T := by
  have hold : ∀ {k : Nat} {nd : Node}, nodes[k]? = some nd → (nodes ++ new)[k]? = some nd :=
    fun hk => (List.getElem?_append_left (List.getElem?_eq_some_iff.mp hk).1).trans hk
  induction T generalizing h with
  | leaf x => exact hold hT
  | node l r ihl ihr =>
    obtain ⟨f, a, b, hnode, ha, hb, hl, hr⟩ := hT
    exact ⟨f, a, b, hold hnode, ha, hb, ihl hl, ihr hr⟩

/-- The frequency at a handle is the sum over the Leaves below it (R20, R51). -/
theorem Stores.nodeFreq (hlegal : ∀ k nd, nodes[k]? = some nd → nodeLegal nodes k nd)
    (hT : Stores weight nodes h T) : nodeFreq nodes h = (T.syms.map weight).sum := by
  induction T generalizing h with
  | leaf x =>
    have hnode : nodes[h]? = some (.leaf x (weight x)) := hT
    simp [Machine.nodeFreq, hnode, Node.freq, Tree.syms]
  | node l r ihl ihr =>
    obtain ⟨f, a, b, hnode, -, -, hl, hr⟩ := hT
    obtain ⟨-, -, hf⟩ := hlegal h _ hnode
    rw [Tree.syms, List.map_append, List.sum_append, ← ihl hl, ← ihr hr, ← hf]
    simp [Machine.nodeFreq, hnode, Node.freq]

/-- VISIT finds the codes and the dictionary of the tree (R53). -/
theorem Stores.visit (hT : Stores weight nodes h T) {fuel : Nat} (hfuel : h < fuel) (path : Bits) :
    visit fuel nodes h path = (T.codes path, T.tokens.flatMap tokenBytes) := by
  induction T generalizing h fuel path with
  | leaf x =>
    obtain ⟨fuel, rfl⟩ := Nat.exists_eq_add_one_of_ne_zero (Nat.ne_zero_of_lt hfuel)
    have hnode : nodes[h]? = some (.leaf x (weight x)) := hT
    simp [Machine.visit, hnode, Tree.codes, Tree.tokens, leafKey, tokenBytes, encode]
  | node l r ihl ihr =>
    obtain ⟨fuel, rfl⟩ := Nat.exists_eq_add_one_of_ne_zero (Nat.ne_zero_of_lt hfuel)
    obtain ⟨f, a, b, hnode, ha, hb, hl, hr⟩ := hT
    simp [Machine.visit, hnode, ihl hl (by omega : a < fuel), ihr hr (by omega : b < fuel),
      Tree.codes, Tree.tokens, tokenBytes, encode]

/-- The paths of the arena from the handle to a Leaf are those of the tree (R43). -/
theorem Stores.nodeAt (hT : Stores weight nodes h T) {p : Bits} {x : Byte} {f : Nat} :
    nodeAt nodes h p = some (.leaf x f) ↔ T.symAt p = some x ∧ f = weight x := by
  induction T generalizing h p with
  | leaf y =>
    have hnode : nodes[h]? = some (.leaf y (weight y)) := hT
    cases p with
    | nil =>
      simp only [Machine.nodeAt, hnode, Tree.symAt, Option.some.injEq, Node.leaf.injEq]
      constructor
      · rintro ⟨rfl, rfl⟩
        exact ⟨rfl, rfl⟩
      · rintro ⟨rfl, rfl⟩
        exact ⟨rfl, rfl⟩
    | cons bit p => simp [Machine.nodeAt, hnode, Tree.symAt]
  | node l r ihl ihr =>
    obtain ⟨g, a, b, hnode, -, -, hl, hr⟩ := hT
    match p with
    | [] => simp [Machine.nodeAt, hnode, Tree.symAt]
    | false :: p => simp [Machine.nodeAt, hnode, Tree.symAt, ihl hl]
    | true :: p => simp [Machine.nodeAt, hnode, Tree.symAt, ihr hr]

end Stored

/-! The forest of TREE_BUILD. -/

/-- NODE and WORK during TREE_BUILD: a tree stands at every handle, the trees at the handles of WORK
have the symbols to be coded, and every handle is in WORK or a child once. -/
structure Forest (weight : Byte → Nat) (syms : List Byte) (nodes : List Node) (work : List Nat) :
    Prop where
  trees : ∃ tree : Nat → Tree, (∀ h < nodes.length, Stores weight nodes h (tree h)) ∧
    (work.flatMap fun h => (tree h).syms).Perm syms
  parents : (nodes.flatMap Node.children ++ work).Perm (List.range nodes.length)

theorem Forest.handle_lt {weight : Byte → Nat} {syms : List Byte} {nodes : List Node}
    {work : List Nat} (hF : Forest weight syms nodes work) {h : Nat} (hh : h ∈ work) :
    h < nodes.length :=
  List.mem_range.mp (hF.parents.mem_iff.mp (List.mem_append_right _ hh))

/-- A merge joins two trees (R50). -/
theorem Forest.merge {weight : Byte → Nat} {syms : List Byte} {nodes : List Node}
    {work work2 : List Nat} {a b f : Nat} (hF : Forest weight syms nodes work)
    (hperm : work.Perm (a :: b :: work2)) :
    Forest weight syms (nodes ++ [.internal f a b]) (work2 ++ [nodes.length]) := by
  have hlt : ∀ h ∈ a :: b :: work2, h < nodes.length := fun h hh =>
    hF.handle_lt (hperm.mem_iff.mpr hh)
  obtain ⟨ha, hlt⟩ := List.forall_mem_cons.mp hlt
  obtain ⟨hb, hlt⟩ := List.forall_mem_cons.mp hlt
  obtain ⟨tree, hstores, hsyms⟩ := hF.trees
  refine ⟨⟨Function.update tree nodes.length (.node (tree a) (tree b)), fun h hh => ?_, ?_⟩, ?_⟩
  · rw [List.length_append, List.length_singleton] at hh
    rcases Nat.lt_succ_iff_lt_or_eq.mp hh with hh | rfl
    · rw [Function.update_of_ne hh.ne]
      exact (hstores h hh).append _
    · rw [Function.update_self]
      exact ⟨f, a, b, List.getElem?_concat_length .., ha, hb, (hstores a ha).append _,
        (hstores b hb).append _⟩
  · have hold : (work2.flatMap fun h =>
        (Function.update tree nodes.length (.node (tree a) (tree b)) h).syms) =
        work2.flatMap fun h => (tree h).syms :=
      List.flatMap_congr fun h hh => by rw [Function.update_of_ne (hlt h hh).ne]
    rw [List.flatMap_append, hold, List.flatMap_singleton, Function.update_self, Tree.syms]
    refine List.perm_append_comm.trans (.trans ?_ hsyms)
    rw [List.append_assoc]
    exact (hperm.flatMap_right fun h => (tree h).syms).symm
  · rw [List.flatMap_append, List.flatMap_singleton, Node.children, List.length_append,
      List.length_singleton, List.range_succ, List.append_assoc]
    refine .trans ?_ (hF.parents.append_right [nodes.length])
    rw [List.append_assoc]
    exact ((hperm.symm.append_right _).append_left _)

/-- TREE_BUILD starts from a forest of Leaves. -/
theorem leafNodes_forest (freq : Vector Nat 256) : Forest (freqOf freq) (occurring freq)
    (leafNodes freq) (List.range (leafNodes freq).length) := by
  refine ⟨⟨fun h => .leaf ((occurring freq).getD h 0), fun h hh => ?_, ?_⟩, ?_⟩
  · rw [leafNodes_eq, List.length_map] at hh
    show (leafNodes freq)[h]? = _
    rw [leafNodes_eq, List.getElem?_map, List.getElem?_eq_getElem hh, List.getD_eq_getElem _ _ hh]
    rfl
  · refine .of_eq (List.ext_getElem (by simp [Tree.syms, leafNodes_eq]) fun h h1 h2 => ?_)
    simp [Tree.syms, ← List.map_eq_flatMap, h2]
  · have hnone : (leafNodes freq).flatMap Node.children = [] := by
      rw [leafNodes_eq, List.flatMap_map]
      simp [Node.children]
    rw [hnone, List.nil_append]

/-- TREE_BUILD of one or more symbols leaves one tree of them, in which every other node is a child
once (R50, R51). -/
theorem buildTree_tree {freq : Vector Nat 256} (h : leafNodes freq ≠ []) :
    ∃ root T, (buildTree freq).2 = [root] ∧ Stores (freqOf freq) (buildTree freq).1 root T ∧
      T.syms.Perm (occurring freq) ∧
      ((buildTree freq).1.flatMap Node.children ++ [root]).Perm
        (List.range (buildTree freq).1.length) := by
  have hF : Forest (freqOf freq) (occurring freq) (buildTree freq).1 (buildTree freq).2 :=
    mergeLoop_keeps (fun _ _ _ _ _ hP hperm => hP.merge hperm) _ (leafNodes_forest freq)
  obtain ⟨root, hroot⟩ := buildTree_single h
  rw [hroot] at hF
  obtain ⟨tree, hstores, hsyms⟩ := hF.trees
  exact ⟨root, tree root, hroot, hstores root (hF.handle_lt (List.mem_singleton.mpr rfl)),
    by simpa using hsyms, hF.parents⟩

/-- The Leaves of the arena are those TREE_BUILD starts from: a merge adds Internal nodes (R51). -/
theorem buildTree_leaves (freq : Vector Nat 256) :
    (buildTree freq).1.filter Node.isLeaf = leafNodes freq := by
  refine mergeLoop_keeps (P := fun nodes _ => nodes.filter Node.isLeaf = leafNodes freq)
    (fun nodes work a b work2 hP _ => ?_) _ ?_
  · rw [List.filter_append, hP]
    exact List.append_nil _
  · rw [leafNodes_eq]
    exact List.filter_eq_self.mpr (List.forall_mem_map.mpr fun _ _ => rfl)

end Sys2Proof.Machine
end

section
/-!
The working state COMPRESS leaves (R47 to R55; log 18): FREQ counts the input, NODE holds a code tree of
its symbols, CODE and DICT are that tree's codes and tokens.
-/

namespace Sys2Proof.Machine

/-! CODE as a table. -/

theorem codeTable_concat (entries : List (Byte × Bits)) (e : Byte × Bits) :
    codeTable (entries ++ [e]) = setCode (codeTable entries) e := by
  simp [codeTable]

/-- With one code per symbol, CODE holds each of them (R53). -/
theorem codeTable_eq_some {entries : List (Byte × Bits)} (hkeys : (entries.map Prod.fst).Nodup)
    {x : Byte} {c : Bits} : (codeTable entries)[x.toNat]'x.isLt = some c ↔ (x, c) ∈ entries := by
  induction entries using List.reverseRecOn with
  | nil => simp [codeTable]
  | append_singleton entries e ih =>
    rw [List.map_append, List.nodup_append] at hkeys
    obtain ⟨hkeys, -, hnew⟩ := hkeys
    rw [codeTable_concat, setCode, Vector.getElem_set, List.mem_append, ← ih hkeys,
      List.mem_singleton]
    by_cases hx : e.1 = x
    · subst hx
      have hnone : (codeTable entries)[e.1.toNat]'e.1.isLt ≠ some c := fun h =>
        hnew _ (List.mem_map_of_mem (f := Prod.fst) ((ih hkeys).mp h)) e.1 (by simp) rfl
      simp [hnone, Prod.ext_iff, eq_comm]
    · have hne : e.1.toNat ≠ x.toNat := fun h => hx (BitVec.eq_of_toNat_eq h)
      simp [hne, Prod.ext_iff, Ne.symm hx]

/-- What a code of CODE adds to the Kraft sum, in units of `2 ^ -k`. -/
def share (k : Nat) : Option Bits → Nat
  | some c => 2 ^ (k - c.length)
  | none => 0

/-- The Kraft sum over CODE is the one over the codes it was filled with. -/
theorem sum_share_codeTable (k : Nat) {entries : List (Byte × Bits)}
    (hkeys : (entries.map Prod.fst).Nodup) :
    ∑ i : Fin 256, share k (codeTable entries)[i] = Tree.kraft k entries := by
  induction entries using List.reverseRecOn with
  | nil => simp [codeTable, share, Tree.kraft]
  | append_singleton entries e ih =>
    rw [List.map_append, List.nodup_append] at hkeys
    obtain ⟨hkeys, -, hnew⟩ := hkeys
    have hfree : (codeTable entries)[e.1.toNat]'e.1.isLt = none :=
      Option.eq_none_iff_forall_ne_some.mpr fun c h =>
        hnew _ (List.mem_map_of_mem (f := Prod.fst) ((codeTable_eq_some hkeys).mp h)) e.1 (by simp) rfl
    have hset := sum_set (share k) (codeTable entries) e.1.toNat e.1.isLt (some e.2)
    rw [hfree, ih hkeys] at hset
    rw [codeTable_concat, Tree.kraft, List.map_append, List.sum_append, ← Tree.kraft]
    simpa [share, setCode] using hset

/-! The keys of a code tree. -/

theorem leafKey_of_ne_nil {p : Bits} (hp : p ≠ []) : leafKey p = p := if_neg hp

namespace Tree

theorem leafKey_of_symAt_node {l r : Tree} {p : Bits} {x : Byte}
    (h : (node l r).symAt p = some x) : leafKey p = p := by
  refine leafKey_of_ne_nil ?_
  rintro rfl
  cases h

/-- No code is a prefix of another, the code [1] of a lone symbol included (R55). -/
theorem eq_of_leafKey_prefix {T : Tree} {p q : Bits} {x y : Byte} (hp : T.symAt p = some x)
    (hq : T.symAt q = some y) (hpq : leafKey p <+: leafKey q) : x = y := by
  have heq : p = q := by
    cases T with
    | leaf z =>
      match p, q with
      | [], [] => rfl
      | [], _ :: _ => cases hq
      | _ :: _, _ => cases hp
    | node l r =>
      rw [leafKey_of_symAt_node hp, leafKey_of_symAt_node hq] at hpq
      exact eq_of_symAt_prefix hp hq hpq
  exact Option.some.inj (hp.symm.trans (heq ▸ hq))

/-- A tree of two or more Leaves has an Internal root. -/
theorem exists_eq_node {T : Tree} (h : 2 ≤ T.syms.length) : ∃ l r, T = node l r := by
  cases T with
  | leaf x => exact absurd h (by simp [syms])
  | node l r => exact ⟨l, r, rfl⟩

end Tree

/-! The tables of COMPRESS. -/

/-- The working state after GENERATE, on an input. -/
structure Tabled (bytes : List Byte) (e : Engine) : Prop where
  freq : e.freq = freqTable bytes
  node : e.node = (buildTree e.freq).1
  work : e.work = (buildTree e.freq).2
  root : e.root = (buildTree e.freq).2.headD 0
  code : e.code = codeTable (visit e.node.length e.node e.root []).1
  dict : e.dict = (visit e.node.length e.node e.root []).2

theorem compressTables_tabled {s : State} {bytes : List Byte} (hin : s.inputIs bytes)
    (hfit : bytes.length ≤ s.cfg.ibufSize) : Tabled bytes (compressTables s).eng := by
  rw [compressTables, memReadN_input hin hfit]
  exact ⟨rfl, rfl, rfl, rfl, rfl, rfl⟩

theorem Tabled.congr {bytes : List Byte} {e f : Engine} (h : Tabled bytes e) (hf : sameTables e f) :
    Tabled bytes f := by
  obtain ⟨hfreq, hnode, hwork, hroot, hcode, hdict, -⟩ := hf
  obtain ⟨k1, k2, k3, k4, k5, k6⟩ := h
  constructor <;> simp only [hfreq, hnode, hwork, hroot, hcode, hdict] <;> assumption

theorem packStart_tables (s : State) : sameTables s.eng (packStart s).eng := by
  rw [packStart, memWriteN_eq]
  exact .refl _

/-- The end of a command leaves the working state its pseudocode left (log 18). -/
theorem finish_eng (c : Command) (r : Except Raised State) : (finish c r).eng = (endState r).eng := by
  cases r with
  | ok s => rfl
  | error p => rw [finish, errorComplete_frame]; rfl

/-- COMPRESS leaves the tables of its input, also when OBUF overflows. -/
theorem exec_compress_tabled {s t : State} {bytes : List Byte} (hin : s.inputIs bytes)
    (hpos : 1 ≤ bytes.length) (hfit : bytes.length ≤ s.cfg.ibufSize)
    (hexec : exec .compress s = .next t) : Tabled bytes t.eng := by
  have hemitted : ∀ {out u}, Emitted (packStart (compressTables s)) out u → Tabled bytes u.eng :=
    fun hu => (compressTables_tabled hin hfit).congr ((packStart_tables _).trans hu.tables)
  have hlen := hin.1
  cases hexec
  rw [finish_eng]
  rcases compressRun_cases s with
    ⟨hlong, -⟩ | ⟨-, hzero, -⟩ | ⟨-, -, ⟨out, u, hr, hu⟩ | ⟨out, u, hr, hu, -⟩⟩
  · omega
  · omega
  · rw [hr]
    exact show Tabled bytes u.eng from hemitted hu
  · rw [hr]
    exact hemitted hu

theorem length_leafNodes_freqTable (bytes : List Byte) :
    (leafNodes (freqTable bytes)).length = distinct bytes := by
  rw [leafNodes_eq, List.length_map, (occurring_freqTable bytes).length_eq, distinct]

theorem distinct_le (bytes : List Byte) : distinct bytes ≤ 256 :=
  length_leafNodes_freqTable bytes ▸ leafNodes_length _

/-- The working state holds a code tree of the input's symbols: NODE stores it at ROOT, the only handle
of WORK, every other node is a child once, and CODE and DICT are its codes and its tokens. -/
structure CodeTree (bytes : List Byte) (e : Engine) (T : Tree) : Prop where
  work : e.work = [e.root]
  stores : Stores (fun x => bytes.count x) e.node e.root T
  syms : T.syms.Perm bytes.dedup
  parents : (e.node.flatMap Node.children ++ [e.root]).Perm (List.range e.node.length)
  code : e.code = codeTable (T.codes [])
  dict : e.dict = T.tokens.flatMap tokenBytes

theorem CodeTree.root_lt {bytes : List Byte} {e : Engine} {T : Tree} (h : CodeTree bytes e T) :
    e.root < e.node.length :=
  List.mem_range.mp (h.parents.mem_iff.mp (by simp))

/-- The tables of a nonempty input hold its code tree. -/
theorem Tabled.codeTree {bytes : List Byte} {e : Engine} (h : Tabled bytes e)
    (hpos : 1 ≤ bytes.length) : ∃ T, CodeTree bytes e T := by
  have hleaves : leafNodes (freqTable bytes) ≠ [] := by
    rw [leafNodes_eq, Ne, List.map_eq_nil_iff]
    intro hnil
    have hdedup := (hnil ▸ occurring_freqTable bytes).nil_eq.symm
    rw [List.dedup_eq_nil] at hdedup
    simp [hdedup] at hpos
  obtain ⟨root, T, hwork, hstores, hsyms, hparents⟩ := buildTree_tree hleaves
  have hcount : freqOf (freqTable bytes) = fun x => bytes.count x :=
    funext (freqOf_freqTable bytes)
  have hroot : e.root = root := by rw [h.root, h.freq, hwork, List.headD_cons]
  rw [← h.freq, ← h.work] at hwork
  rw [← h.freq, ← h.node, h.freq, hcount, ← hroot] at hstores
  rw [← h.freq, ← h.node, ← hroot] at hparents
  have hlt : e.root < e.node.length := List.mem_range.mp (hparents.mem_iff.mp (by simp))
  refine ⟨T, hroot ▸ hwork, hstores, hsyms.trans (occurring_freqTable bytes), hparents, ?_, ?_⟩
  · rw [h.code, hstores.visit hlt]
  · rw [h.dict, hstores.visit hlt]

/-- COMPRESS leaves the code tree of its input. -/
theorem exec_compress_codeTree {s t : State} {bytes : List Byte} (hin : s.inputIs bytes)
    (hpos : 1 ≤ bytes.length) (hfit : bytes.length ≤ s.cfg.ibufSize)
    (hexec : exec .compress s = .next t) : ∃ T, CodeTree bytes t.eng T :=
  (exec_compress_tabled hin hpos hfit hexec).codeTree hpos

section CodeTrees

variable {bytes : List Byte} {e : Engine} {T : Tree} (h : CodeTree bytes e T)

include h

theorem CodeTree.length_syms : T.syms.length = distinct bytes := h.syms.length_eq

theorem CodeTree.nodup_syms : T.syms.Nodup := h.syms.nodup_iff.mpr (List.nodup_dedup _)

theorem CodeTree.mem_syms {x : Byte} : x ∈ T.syms ↔ x ∈ bytes :=
  h.syms.mem_iff.trans List.mem_dedup

/-- A symbol's code is the key of the path to its Leaf (R43, R52). -/
theorem CodeTree.code_eq_some {x : Byte} {c : Bits} :
    e.code[x.toNat]'x.isLt = some c ↔ ∃ p, T.symAt p = some x ∧ c = leafKey p := by
  simp only [h.code]
  rw [codeTable_eq_some (by rw [Tree.map_fst_codes]; exact h.nodup_syms), Tree.mem_codes]
  simp only [List.nil_append]

/-- With two or more symbols a symbol's code is the path to its Leaf (R43). -/
theorem CodeTree.code_eq_some_path (htwo : 2 ≤ distinct bytes) {x : Byte} {c : Bits} :
    e.code[x.toNat]'x.isLt = some c ↔ T.symAt c = some x := by
  obtain ⟨l, r, rfl⟩ := Tree.exists_eq_node (h.length_syms ▸ htwo)
  rw [h.code_eq_some]
  constructor
  · rintro ⟨p, hp, rfl⟩
    rwa [Tree.leafKey_of_symAt_node hp]
  · exact fun hc => ⟨c, hc, (Tree.leafKey_of_symAt_node hc).symm⟩

/-- The symbols with a code are those of the input (R52). -/
theorem CodeTree.coded_iff {x : Byte} : e.code[x.toNat]'x.isLt ≠ none ↔ x ∈ bytes := by
  rw [← h.mem_syms, ← T.map_fst_codes [], Option.ne_none_iff_exists']
  simp only [h.code]
  simp only [codeTable_eq_some (T.map_fst_codes [] ▸ h.nodup_syms), List.mem_map, Prod.exists,
    exists_and_right, exists_eq_right]

/-- The length of a code (R52, R55). -/
theorem CodeTree.code_length {x : Byte} {c : Bits} (hc : e.code[x.toNat]'x.isLt = some c) :
    1 ≤ c.length ∧ c.length ≤ 255 ∧ (2 ≤ distinct bytes → c.length ≤ distinct bytes - 1) ∧
      (distinct bytes = 1 → c = [true]) := by
  obtain ⟨p, hp, rfl⟩ := h.code_eq_some.mp hc
  have hlen := Tree.length_lt_of_symAt hp
  have hkey := leafKey_length p
  have hpos := List.length_pos_iff.mpr (leafKey_ne_nil p)
  have hn := distinct_le bytes
  rw [h.length_syms] at hlen
  refine ⟨hpos, by omega, fun _ => by omega, fun hone => ?_⟩
  rw [List.length_eq_zero_iff.mp (show p.length = 0 by omega)]
  rfl

/-- The number of dictionary bytes (R54). -/
theorem CodeTree.dict_length : e.dict.length + 1 = 3 * distinct bytes := by
  rw [h.dict, ← h.length_syms, T.length_tokenBytes]

end CodeTrees

/-! The obligations on the tables. -/

/-- Settles O37: FREQ is the table of `freqTable`. -/
theorem freqBuildCounts : Obligations.FreqBuildCounts := by
  intro s t bytes _ hin hpos hfit hexec
  have hfreq := (exec_compress_tabled hin hpos hfit hexec).freq
  refine ⟨fun x => ?_, ?_⟩
  · simp only [hfreq]
    exact freqOf_freqTable bytes x
  · rw [hfreq, ← sum_freqTable, Fin.sum_univ_def]
    congr 1
    exact List.ext_getElem (by simp) (by simp)

/-- Settles O41: the counts from the arena, the rest from the code tree. -/
theorem treeShape : Obligations.TreeShape := by
  intro s t bytes _ hin hpos hfit hexec
  have htables := exec_compress_tabled hin hpos hfit hexec
  obtain ⟨T, hT⟩ := htables.codeTree hpos
  have harena := buildTree_arena t.eng.freq
  rw [← htables.node, ← htables.work, htables.freq, length_leafNodes_freqTable] at harena
  have hcount := harena.count
  have hn := distinct_le bytes
  rw [hT.work, List.length_singleton] at hcount
  refine ⟨by omega, by omega, ?_, htables.node, htables.work, hT.work, hT.root_lt, ?_,
    fun h hh => harena.legal h _ (List.getElem?_eq_getElem hh), fun h hh hne => ?_⟩
  · rw [htables.node, buildTree_leaves, htables.freq, length_leafNodes_freqTable]
  · rw [hT.stores.nodeFreq harena.legal, (hT.syms.map _).sum_eq]
    exact List.sum_map_count_dedup_eq_length bytes
  · have hcount := hT.parents.count_eq h
    have hroot : [t.eng.root].count h = 0 := List.count_eq_zero_of_not_mem (by simpa using hne)
    rw [List.count_append, hroot] at hcount
    exact hcount.trans (List.count_eq_one_of_mem List.nodup_range (List.mem_range.mpr hh))

/-- Settles O42: CODE is the table of the tree's paths, none of which goes on to another Leaf. -/
theorem codebookIsPrefixFree : Obligations.CodebookIsPrefixFree := by
  intro s t bytes _ hin hpos hfit hexec
  obtain ⟨T, hT⟩ := exec_compress_codeTree hin hpos hfit hexec
  refine ⟨fun x => hT.coded_iff, fun x c => hT.code_length, fun htwo x c => ?_,
    fun x y c d hc hd hcd => ?_⟩
  · rw [hT.code_eq_some_path htwo, hT.stores.nodeAt]
    exact (and_iff_left rfl).symm
  · obtain ⟨p, hp, rfl⟩ := hT.code_eq_some.mp hc
    obtain ⟨q, hq, rfl⟩ := hT.code_eq_some.mp hd
    exact Tree.eq_of_leafKey_prefix hp hq hcd

/-- Settles O43: the Kraft sum of a tree with an Internal root, and its leftmost Leaf. -/
theorem codebookIsComplete : Obligations.CodebookIsComplete := by
  intro s t bytes _ hin htwo hfit hexec
  have hpos : 1 ≤ bytes.length := by
    have := (List.dedup_sublist bytes).length_le
    exact (Nat.le_of_succ_le htwo).trans this
  obtain ⟨T, hT⟩ := exec_compress_codeTree hin hpos hfit hexec
  have hn := distinct_le bytes
  have hlen := hT.length_syms
  refine ⟨?_, ?_⟩
  · obtain ⟨l, r, rfl⟩ := Tree.exists_eq_node (hT.length_syms ▸ htwo)
    rw [← Tree.kraft_codes_node l r (k := 255) (by omega),
      ← sum_share_codeTable _ (by rw [Tree.map_fst_codes]; exact hT.nodup_syms), ← hT.code,
      Fin.sum_univ_def]
    rfl
  · obtain ⟨d, x, hx⟩ := T.exists_symAt_zeros
    have hcode := (hT.code_eq_some_path htwo).mpr hx
    refine ⟨x, d, ?_, hcode, fun y e hy => ?_⟩
    · have := (hT.code_length hcode).1
      rwa [zeros, List.length_replicate] at this
    · exact Tree.symAt_zeros_unique ((hT.code_eq_some_path htwo).mp hy) hx

/-- Settles O44: DICT is the tree's tokens. -/
theorem dictionaryShape : Obligations.DictionaryShape := by
  intro s t bytes hcfg hin hpos hfit hexec
  obtain ⟨T, hT⟩ := exec_compress_codeTree hin hpos hfit hexec
  have hlen := hT.dict_length
  have hn := distinct_le bytes
  have hcount := T.count_tokens
  obtain ⟨-, -, ⟨hdbuf, -⟩, -⟩ := hcfg
  rw [hT.length_syms] at hcount
  refine ⟨by omega, by omega, by omega, T.tokens, hT.dict, T.isMarkToken_tokens, ?_⟩
  rw [T.filterMap_leafSym_tokens]
  exact ⟨hT.nodup_syms, fun x => hT.mem_syms, hT.length_syms, by omega⟩

end Sys2Proof.Machine
end

section
/-!
Two runs of PACK over the same input (R56, R66): what they emit depends on CODE, PBUF and the input
bytes only.
-/

namespace Sys2Proof.Machine

/-- Two states that PACK cannot tell apart: the parameters, CODE, PBUF and OPOS agree. -/
structure PackAlike (s t : State) : Prop where
  cfg : t.cfg = s.cfg
  code : t.eng.code = s.eng.code
  pbuf : t.eng.pbuf = s.eng.pbuf
  opos : t.eng.opos = s.eng.opos

/-- Two ends of a part of PACK: both go on alike, having emitted the same bytes, or OBUF is full in
both. -/
def EndsAlike (s t : State) (r q : Except Raised State) : Prop :=
  (∃ out u v, r = .ok u ∧ q = .ok v ∧ Emitted s out u ∧ Emitted t out v ∧ PackAlike u v) ∨
  (∃ u v, r = .error (.outOverflow, u) ∧ q = .error (.outOverflow, v))

/-- The same emission keeps two states alike, with the same bits left in PBUF. -/
theorem PackAlike.emitted {s t u v : State} {out : List Byte} (h : PackAlike s t)
    (hu : Emitted s out u) (hv : Emitted t out v) (hbits : v.eng.pbuf = u.eng.pbuf) :
    PackAlike u v := by
  obtain ⟨-, -, -, -, hcode, -⟩ := hu.tables
  obtain ⟨-, -, -, -, hcode', -⟩ := hv.tables
  exact ⟨by rw [hu.cfg, hv.cfg, h.cfg], by rw [hcode, hcode', h.code], hbits,
    by rw [hu.opos, hv.opos, h.opos]⟩

theorem EndsAlike.refl {s t : State} (h : PackAlike s t) : EndsAlike s t (.ok s) (.ok t) :=
  .inl ⟨[], s, t, rfl, rfl, .refl s, .refl t, h⟩

theorem EndsAlike.after {s t u v : State} {out : List Byte} {r q : Except Raised State}
    (hu : Emitted s out u) (hv : Emitted t out v) (h : EndsAlike u v r q) : EndsAlike s t r q := by
  rcases h with ⟨more, u', v', hr, hq, hu', hv', halike⟩ | hfull
  · exact .inl ⟨out ++ more, u', v', hr, hq, hu.trans hu', hv.trans hv', halike⟩
  · exact .inr hfull

theorem emit_alike (v : Byte) {s t : State} (h : PackAlike s t) :
    EndsAlike s t (emit v s) (emit v t) := by
  rcases emit_cases v s with ⟨hs, u, hr, hu, hubits, -⟩ | ⟨hs, hr⟩ <;>
    rcases emit_cases v t with ⟨ht, w, hq, hw, hwbits, -⟩ | ⟨ht, hq⟩ <;>
    rw [h.cfg, h.opos] at ht
  · exact .inl ⟨[v], u, w, hr, hq, hu, hw, h.emitted hu hw (by rw [hubits, hwbits, h.pbuf])⟩
  · omega
  · omega
  · exact .inr ⟨s, t, hr, hq⟩

theorem Emitted.ofPbuf (s : State) (bits : Bits) :
    Emitted s [] (s.withEng { s.eng with pbuf := bits }) :=
  .nil rfl (.refl s.eng) rfl

/-- New bits in PBUF, the same in both states. -/
theorem EndsAlike.withBits {s t : State} (h : PackAlike s t) (bits : Bits) {r q : Except Raised State}
    (hrq : PackAlike (s.withEng { s.eng with pbuf := bits }) (t.withEng { t.eng with pbuf := bits }) →
      EndsAlike (s.withEng { s.eng with pbuf := bits }) (t.withEng { t.eng with pbuf := bits }) r q) :
    EndsAlike s t r q :=
  .after (Emitted.ofPbuf s bits) (Emitted.ofPbuf t bits) (hrq ⟨h.cfg, h.code, rfl, h.opos⟩)

theorem drain_alike (fuel : Nat) {s t : State} (h : PackAlike s t) :
    EndsAlike s t (drain fuel s) (drain fuel t) := by
  induction fuel generalizing s t with
  | zero => exact .refl h
  | succ fuel ih =>
    unfold drain
    rw [h.pbuf]
    by_cases hlong : 8 < s.eng.pbuf.length
    · rw [if_pos hlong, if_pos hlong]
      rcases emit_alike (byte8 (s.eng.pbuf.take 8)) h with
        ⟨out, u, v, hr, hq, hu, hv, huv⟩ | ⟨u, v, hr, hq⟩
      · rw [hr, hq]
        refine .after hu hv (.withBits huv (u.eng.pbuf.drop 8) fun hbits => ?_)
        simp only [huv.pbuf]
        exact ih hbits
      · rw [hr, hq]
        exact .inr ⟨u, v, rfl, rfl⟩
    · rw [if_neg hlong, if_neg hlong]
      exact .refl h

theorem lookupCode_some {x : Byte} {s : State} {c : Bits}
    (hc : s.eng.code[x.toNat]'x.isLt = some c) : lookupCode x s = (c, s) := by
  simp [lookupCode, hc]

/-- A symbol that has a code. -/
theorem packSymbol_alike {x : Byte} {s t : State} (hx : s.eng.code[x.toNat]'x.isLt ≠ none)
    (h : PackAlike s t) : EndsAlike s t (packSymbol x s) (packSymbol x t) := by
  obtain ⟨c, hc⟩ := Option.ne_none_iff_exists'.mp hx
  have hc' : t.eng.code[x.toNat]'x.isLt = some c := by simpa only [h.code] using hc
  simp only [packSymbol, lookupCode_some hc, lookupCode_some hc', h.pbuf]
  exact .withBits h _ fun hbits => drain_alike _ hbits

/-- Bytes of IBUF from an index on that are stored and have codes. -/
structure PackInput (s : State) (i : Nat) (bytes : List Byte) : Prop where
  fits : i + bytes.length ≤ s.cfg.ibufSize
  stored : ∀ k, k < bytes.length → s.byteAt .ibuf (i + k) = bytes[k]?
  coded : ∀ x ∈ bytes, s.eng.code[x.toNat]'x.isLt ≠ none

theorem PackInput.read_head {s : State} {i : Nat} {x : Byte} {bytes : List Byte}
    (h : PackInput s i (x :: bytes)) : memRead .ibuf i s = (x, s) := by
  have hfits := h.fits
  rw [List.length_cons] at hfits
  exact memRead_stored (show i < s.cfg.ibufSize by omega) (by simpa using h.stored 0 (by simp))

/-- PACK does not store in IBUF, and keeps OPOS within OBUF. -/
theorem PackInput.tail {s t : State} {out : List Byte} {i : Nat} {x : Byte} {bytes : List Byte}
    (h : PackInput s i (x :: bytes)) (hcfg : s.cfg.ok) (ho : s.eng.opos ≤ s.cfg.obufSize)
    (ht : Emitted s out t) : PackInput t (i + 1) bytes := by
  obtain ⟨-, -, -, -, hcode, -⟩ := ht.tables
  have hfits := h.fits
  rw [List.length_cons] at hfits
  refine ⟨by rw [ht.cfg]; omega, fun k hk => ?_, fun y hy => ?_⟩
  · rw [ht.byteAt_other ho hcfg (by simp) (show i + 1 + k < s.cfg.ibufSize by omega)]
    simpa [Nat.add_assoc, Nat.add_comm 1 k] using h.stored (k + 1) (by simpa using hk)
  · simpa only [hcode] using h.coded y (List.mem_cons_of_mem x hy)

theorem packLoop_alike (bytes : List Byte) {i : Nat} {s t : State} (hcfg : s.cfg.ok)
    (ho : s.eng.opos ≤ s.cfg.obufSize) (hs : PackInput s i bytes) (ht : PackInput t i bytes)
    (h : PackAlike s t) : EndsAlike s t (packLoop bytes.length i s) (packLoop bytes.length i t) := by
  induction bytes generalizing i s t with
  | nil => exact .refl h
  | cons x bytes ih =>
    simp only [List.length_cons, packLoop, hs.read_head, ht.read_head]
    rcases packSymbol_alike (hs.coded x List.mem_cons_self) h with
      ⟨out, u, v, hr, hq, hu, hv, huv⟩ | ⟨u, v, hr, hq⟩
    · have hou : u.eng.opos ≤ u.cfg.obufSize := by
        rw [hu.opos, hu.cfg]
        exact hu.fits ho
      rw [hr, hq]
      exact .after hu hv (ih (hu.cfg ▸ hcfg) hou (hs.tail hcfg ho hu)
        (ht.tail (h.cfg ▸ hcfg) (by rwa [h.opos, h.cfg]) hv) huv)
    · rw [hr, hq]
      exact .inr ⟨u, v, rfl, rfl⟩

theorem packFlush_alike {s t : State} (h : PackAlike s t) :
    EndsAlike s t (packFlush s) (packFlush t) := by
  unfold packFlush
  rw [h.pbuf]
  by_cases hempty : s.eng.pbuf = []
  · rw [if_pos hempty, if_pos hempty]
    exact .refl h
  · rw [if_neg hempty, if_neg hempty]
    rcases emit_alike (byte8 (s.eng.pbuf ++ zeros (8 - s.eng.pbuf.length))) h with
      ⟨out, u, v, hr, hq, hu, hv, huv⟩ | ⟨u, v, hr, hq⟩
    · rw [hr, hq]
      exact .after hu hv (.withBits huv [] fun hbits => .refl hbits)
    · rw [hr, hq]
      exact .inr ⟨u, v, rfl, rfl⟩

/-- The emission of PACK from its start, where it stores the bytes of an input it has codes for. -/
theorem pack_alike {s t : State} {bytes : List Byte} (hcfg : s.cfg.ok)
    (hs : PackInput (packStart s) 0 bytes) (ht : PackInput (packStart t) 0 bytes)
    (h : PackAlike (packStart s) (packStart t)) :
    EndsAlike (packStart s) (packStart t) (pack bytes.length (memWriteN .dbuf 0 s.eng.dict s))
      (pack bytes.length (memWriteN .dbuf 0 t.eng.dict t)) := by
  have hloop := packLoop_alike bytes (by simpa using hcfg) (Nat.zero_le _) hs ht h
  unfold pack
  rcases hloop with ⟨out, u, v, hr, hq, hu, hv, huv⟩ | ⟨u, v, hr, hq⟩
  · rw [packStart] at hr hq
    simp only [hr, hq]
    exact .after hu hv (packFlush_alike huv)
  · rw [packStart] at hr hq
    simp only [hr, hq]
    exact .inr ⟨u, v, rfl, rfl⟩

/-! Two runs of COMPRESS. -/

/-- COMPRESS with an input length in range is PACK of the tables (R78). -/
theorem compressRun_pack {s : State} (hpos : s.inputLen ≠ 0) (hfit : s.inputLen ≤ s.cfg.ibufSize) :
    compressRun s =
      (pack s.inputLen
        (memWriteN .dbuf 0 (compressTables s).eng.dict (compressTables s))).map compressLengths := by
  have hlen : (compressTables s).inputLen = s.inputLen := by
    obtain ⟨e, n, h⟩ := compressTables_frame s
    rw [h]
    rfl
  have hmap : ∀ r : Except Raised State,
      (match r with
        | .error p => .error p
        | .ok t => .ok (compressLengths t)) = r.map compressLengths := fun r => by cases r <;> rfl
  rw [compressRun, if_neg (Nat.not_lt.mpr hfit), freqBuild, if_neg hpos]
  exact (hmap (pack (compressTables s).inputLen _)).trans (by rw [hlen]; rfl)

/-- PACK starts from the tables of the input and finds the input in IBUF. -/
theorem packStart_input {s : State} {bytes : List Byte} (hcfg : s.cfg.ok) (hin : s.inputIs bytes)
    (hpos : 1 ≤ bytes.length) (hfit : bytes.length ≤ s.cfg.ibufSize) :
    PackInput (packStart (compressTables s)) 0 bytes := by
  have heffect := (compressTables_effect s).trans (packStart_effect _)
  obtain ⟨T, hT⟩ := ((compressTables_tabled hin hfit).congr (packStart_tables _)).codeTree hpos
  refine ⟨by rw [heffect.cfg]; omega, fun k hk => ?_, fun x hx => hT.coded_iff.mpr hx⟩
  rw [Nat.zero_add, heffect.bytes hcfg .ibuf k id (hk.trans_le hfit)]
  exact hin.2 k hk

/-- The tables depend on the input only (R56). -/
theorem Tabled.unique {bytes : List Byte} {e f : Engine} (he : Tabled bytes e) (hf : Tabled bytes f) :
    f.code = e.code ∧ f.dict = e.dict := by
  have hnode : f.node = e.node := by rw [hf.node, he.node, hf.freq, he.freq]
  have hroot : f.root = e.root := by rw [hf.root, he.root, hf.freq, he.freq]
  rw [he.code, hf.code, he.dict, hf.dict, hnode, hroot]
  exact ⟨rfl, rfl⟩

/-- Two states a host cannot tell apart by STATUS, the lengths, the dictionary and the payload (R56). -/
structure SameResult (s t : State) : Prop where
  status : s.status = t.status
  dictLen : s.dictLen = t.dictLen
  outLen : s.outLen = t.outLen
  dict : ∀ i, i < s.dictLen.toNat → s.byteAt .dbuf i = t.byteAt .dbuf i
  payload : ∀ i, i < s.outLen.toNat → s.byteAt .obuf i = t.byteAt .obuf i

/-- After an error there is no dictionary and no payload (R88). -/
theorem sameResult_error (e : ErrCode) (s t : State) :
    SameResult (finish .compress (.error (e, s))) (finish .compress (.error (e, t))) := by
  simp only [finish, errorComplete_frame]
  exact ⟨rfl, rfl, rfl, fun i hi => absurd hi (Nat.not_lt_zero i),
    fun i hi => absurd hi (Nat.not_lt_zero i)⟩

/-- What PACK leaves of the dictionary and what it has emitted (R66, R78). -/
theorem Emitted.result {s u : State} {out : List Byte} (hu : Emitted (packStart s) out u)
    (hcfg : s.cfg.ok) (hdict : s.eng.dict.length ≤ s.cfg.dbufSize) :
    u.eng.dict = s.eng.dict ∧ u.eng.opos = out.length ∧ u.holds .dbuf s.eng.dict ∧
      u.holds .obuf out := by
  obtain ⟨-, -, -, -, -, hkept, -⟩ := (packStart_tables s).trans hu.tables
  refine ⟨hkept, ?_, fun i hi => ?_, fun i hi => ?_⟩
  · exact hu.opos.trans (Nat.zero_add _)
  · rw [hu.byteAt_other (Nat.zero_le _) (by simpa using hcfg) (by simp)
      (show i < (packStart s).cfg.dbufSize from (hi.trans_le hdict).trans_eq (by simp))]
    exact holds_memWriteN (b := .dbuf) hdict i hi
  · have hstart : (packStart s).eng.opos = 0 := rfl
    rw [State.byteAt, hu.read, hstart, if_pos (by omega)]
    simp

/-- Two emissions of the same bytes beside the same dictionary (R56). -/
theorem sameResult_emitted {s t u v : State} {out : List Byte}
    (hu : Emitted (packStart s) out u) (hv : Emitted (packStart t) out v) (hcfg : s.cfg.ok)
    (hst : s.cfg = t.cfg) (hdict : t.eng.dict = s.eng.dict)
    (hfit : s.eng.dict.length ≤ s.cfg.dbufSize) :
    SameResult (finish .compress (.ok (compressLengths u)))
      (finish .compress (.ok (compressLengths v))) := by
  obtain ⟨hud, huo, hudict, huout⟩ := hu.result hcfg hfit
  obtain ⟨hvd, hvo, hvdict, hvout⟩ := hv.result (hst ▸ hcfg) (by rwa [hdict, ← hst])
  rw [hdict] at hvd hvdict
  refine ⟨rfl, ?_, ?_, fun i hi => ?_, fun i hi => ?_⟩
  · show BitVec.ofNat 32 u.eng.dict.length = BitVec.ofNat 32 v.eng.dict.length
    rw [hud, hvd]
  · show BitVec.ofNat 32 u.eng.opos = BitVec.ofNat 32 v.eng.opos
    rw [huo, hvo]
  · have hlt : i < s.eng.dict.length := hud ▸ lt_of_lt_of_le hi (Nat.mod_le _ _)
    exact (hudict i hlt).trans (hvdict i hlt).symm
  · have hlt : i < out.length := huo ▸ lt_of_lt_of_le hi (Nat.mod_le _ _)
    exact (huout i hlt).trans (hvout i hlt).symm

section SameInput

variable {s t : State} {bytes : List Byte} (hcfg : s.cfg.ok) (hst : s.cfg = t.cfg)
  (hins : s.inputIs bytes) (hint : t.inputIs bytes) (hfit : bytes.length ≤ s.cfg.ibufSize)

include hst hins hint hfit

/-- PACK cannot tell the two runs apart at its start. -/
theorem packStart_alike : PackAlike (packStart (compressTables s)) (packStart (compressTables t)) := by
  have hcode := ((compressTables_tabled hins hfit).congr (packStart_tables _)).unique
    ((compressTables_tabled hint (hst ▸ hfit)).congr (packStart_tables _))
  refine ⟨?_, hcode.1, rfl, rfl⟩
  rw [packStart_cfg, packStart_cfg, (compressTables_effect s).cfg, (compressTables_effect t).cfg, hst]

include hcfg

/-- The two runs end the same way on a nonempty input within IBUF. -/
theorem compressRun_sameResult (hpos : 1 ≤ bytes.length) :
    SameResult (finish .compress (compressRun s)) (finish .compress (compressRun t)) := by
  have hlens := hins.1
  have hlent := hint.1
  have hfit' : bytes.length ≤ t.cfg.ibufSize := hst ▸ hfit
  have hcfgs := (compressTables_effect s).cfg
  have hcfgt := (compressTables_effect t).cfg
  have htables := compressTables_tabled hins hfit
  have hdict : (compressTables s).eng.dict.length ≤ (compressTables s).cfg.dbufSize := by
    obtain ⟨T, hT⟩ := htables.codeTree hpos
    have hlen := hT.dict_length
    have hn := distinct_le bytes
    obtain ⟨-, -, ⟨hdbuf, -⟩, -⟩ := hcfg
    rw [hcfgs]
    omega
  rw [compressRun_pack (by omega) (by omega), compressRun_pack (by omega) (by omega), hlens, hlent]
  rcases pack_alike (hcfgs ▸ hcfg) (packStart_input hcfg hins hpos hfit)
      (packStart_input (hst ▸ hcfg) hint hpos hfit') (packStart_alike hst hins hint hfit) with
    ⟨out, u, v, hr, hq, hu, hv, -⟩ | ⟨u, v, hr, hq⟩
  · rw [hr, hq]
    exact sameResult_emitted hu hv (hcfgs ▸ hcfg) (by rw [hcfgs, hcfgt, hst])
      (htables.unique (compressTables_tabled hint hfit')).2 hdict
  · rw [hr, hq]
    exact sameResult_error _ u v

end SameInput

/-- Settles O48: the two runs have the same tables, and PACK ends alike in both. -/
theorem compressIsDeterministic : Obligations.CompressIsDeterministic := by
  intro s t u v bytes hcfg hst hins hint hu hv
  suffices h : SameResult u v from ⟨h.status, h.dictLen, h.outLen, h.dict, h.payload⟩
  cases hu
  cases hv
  have hlens := hins.1
  have hlent := hint.1
  rcases Nat.lt_or_ge s.cfg.ibufSize bytes.length with hlong | hfit
  · rw [compressRun, if_pos (by omega), compressRun, if_pos (by rw [← hst]; omega)]
    exact sameResult_error _ s t
  · rcases Nat.eq_zero_or_pos bytes.length with hzero | hpos
    · rw [compressRun, if_neg (by omega), compressRun, if_neg (by omega), hlens, hlent, hzero]
      exact sameResult_error _ s t
    · exact compressRun_sameResult hcfg hst hins hint hfit hpos

end Sys2Proof.Machine
end

section
/-!
One token (R57 to R61): what `exec` and the engine's turn make of it, what INV holds after an insertion, and
the node BACKTRACK moves to.
-/

namespace Sys2Proof.Machine

/-! BACKTRACK. -/

/-- A path that ends in 0 has nothing to strip. -/
theorem stripRight_concat_false (fuel : Nat) (path : Bits) :
    stripRight fuel (path ++ [false]) = path ++ [false] := by
  cases fuel with
  | zero => rfl
  | succ fuel => simp [stripRight]

/-- A last 1 is stripped where bits stand before it. -/
theorem stripRight_concat_true (fuel : Nat) {path : Bits} (h : path ≠ []) :
    stripRight (fuel + 1) (path ++ [true]) = stripRight fuel path := by
  have hpos := List.length_pos_iff.mpr h
  simp [stripRight, hpos]

/-- After the left subtree of a node comes its right one (R60). -/
@[simp] theorem backtrack_concat_false (path : Bits) : backtrack (path ++ [false]) = path ++ [true] := by
  simp [backtrack, stripRight_concat_false]

/-- After the right subtree of a node comes what follows the node (R60). -/
theorem backtrack_concat_true {path : Bits} (h : path ≠ []) :
    backtrack (path ++ [true]) = backtrack path := by
  simp [backtrack, h, stripRight_concat_true]

/-- Settles O36: the 1s at the end go one by one, and what is left ends in 0 or is [1]. -/
theorem backtrackMovesToNextNode : Obligations.BacktrackMovesToNextNode := by
  refine ⟨rfl, fun p k => ?_, fun k => ?_⟩
  · induction k with
    | zero => rw [List.replicate_zero, List.append_nil, backtrack_concat_false]
    | succ k ih =>
      rw [List.replicate_succ', ← List.append_assoc, backtrack_concat_true (by simp), ih]
  · induction k with
    | zero => rfl
    | succ k ih => rw [List.replicate_succ', backtrack_concat_true (by simp), ih]

/-! INV. -/

/-- `INV[key] := v` gives `key` the symbol and keeps every other entry (R8, R59). -/
theorem invGet_invSet (k key : Bits) (v : Byte) (inv : List (Bits × Byte)) :
    invGet k (invSet key v inv) = if k = key then some v else invGet k inv := by
  induction inv with
  | nil => simp [invSet, invGet, eq_comm]
  | cons p inv ih =>
    by_cases hp : p.1 = key
    · subst hp
      simp only [invSet, invGet, if_true, eq_comm]
      split <;> rfl
    · by_cases hk : p.1 = k
      · subst hk
        simp [invSet, invGet, hp]
      · simp [invSet, invGet, hp, hk, ih]

/-! The tokens. -/

theorem tokenInternal_room {s : State} (h : s.eng.path.length < s.cfg.pathMax) :
    tokenInternal s =
      .ok (s.withEng { s.eng with path := s.eng.path ++ [false], dpos := s.eng.dpos + 1 }) :=
  if_neg (Nat.not_le.mpr h)

theorem tokenInternal_full {s : State} (h : s.eng.path.length = s.cfg.pathMax) :
    tokenInternal s = .error (.pathOverflow, s) :=
  if_pos h.ge

theorem tokenLeaf_room (sym : Byte) {s : State} (h : s.eng.dpos + 1 < s.dictionaryLen) :
    tokenLeaf sym s = .ok (s.withEng { s.eng with
      inv := invSet (leafKey s.eng.path) sym s.eng.inv
      entries := s.eng.entries + 1
      path := backtrack s.eng.path
      dpos := s.eng.dpos + 2 }) :=
  if_neg (Nat.not_le.mpr h)

theorem tokenLeaf_last (sym : Byte) {s : State} (h : s.eng.dpos + 1 = s.dictionaryLen) :
    tokenLeaf sym s = .error (.invalidDictionary, s) :=
  if_pos h.ge

/-- The instruction of a token is the parser's turn on it. -/
theorem exec_token {i : Instr} (hi : tokenBytes i ≠ []) (s : State) :
    exec i s = .next (finishToken (runToken i s)) := by
  cases i with
  | compress => exact absurd rfl hi
  | decompress => exact absurd rfl hi
  | badCommand opcode rsv => exact absurd rfl hi
  | tokenInternal => rfl
  | tokenLeaf sym => rfl
  | tokenInvalid mark => rfl

/-- A token that raises an error ends the command with it (R88). -/
theorem exec_token_error {i : Instr} {s : State} {e : ErrCode} (hi : tokenBytes i ≠ [])
    (herr : runToken i s = .error (e, s)) :
    ∃ t, exec i s = .next t ∧ errorCompleted .decompress e s t :=
  ⟨errorComplete .decompress e s, by rw [exec_token hi, herr]; rfl, errorComplete_completed ..⟩

/-- Settles O33: the two sides of the check against PATH_MAX. -/
theorem tokenInternalResult : Obligations.TokenInternalResult := by
  refine fun s => ⟨fun hroom => ?_, fun hfull => ?_⟩
  · rw [exec_token (by decide), runToken, tokenInternal_room hroom]
    rfl
  · exact exec_token_error (List.cons_ne_nil _ _) (tokenInternal_full hfull)

/-- Settles O34: the two sides of the check against the dictionary's end. -/
theorem tokenLeafResult : Obligations.TokenLeafResult := by
  refine fun s sym => ⟨fun hroom => ?_, fun hlast => ?_⟩
  · refine ⟨invSet (leafKey s.eng.path) sym s.eng.inv, ?_, fun key => invGet_invSet ..⟩
    rw [exec_token (show tokenBytes (.tokenLeaf sym) ≠ [] from List.cons_ne_nil _ _), runToken,
      tokenLeaf_room sym hroom]
    rfl
  · exact exec_token_error (List.cons_ne_nil _ _) (tokenLeaf_last sym hlast)

/-- Settles O35: the token raises its error in every state. -/
theorem tokenInvalidResult : Obligations.TokenInvalidResult := fun _ _ =>
  exec_token_error (List.cons_ne_nil _ _) rfl

/-! The engine's turn at a token. -/

/-- A token is fetched whole where its own bytes are stored at DPOS, whatever follows them (R41). -/
theorem fetchToken_of_bytes {s : State} {i : Instr} (hwf : i.wf = true) (hi : tokenBytes i ≠ [])
    (hlen : s.eng.dpos + (tokenBytes i).length ≤ s.dictionaryLen)
    (hfit : s.dictionaryLen ≤ s.cfg.dbufSize)
    (hstored : ∀ k, k < (tokenBytes i).length → s.byteAt .dbuf (s.eng.dpos + k) = (tokenBytes i)[k]?) :
    fetchToken s = (tokenBytes i, s) := by
  have hread : ∀ {k v}, (tokenBytes i)[k]? = some v → memRead .dbuf (s.eng.dpos + k) s = (v, s) := by
    intro k v hv
    have hk := (List.getElem?_eq_some_iff.mp hv).1
    exact memRead_stored (show s.eng.dpos + k < s.cfg.dbufSize by omega) ((hstored k hk).trans hv)
  have hshort : ∀ {mark}, mark ≠ 0x31 → (tokenBytes i)[0]? = some mark →
      fetchToken s = ([mark], s) := by
    intro mark hmark hv
    have hmem : memRead .dbuf s.eng.dpos s = (mark, s) := hread hv
    simp only [fetchToken, hmem, if_neg hmark]
  cases i with
  | compress => exact absurd rfl hi
  | decompress => exact absurd rfl hi
  | badCommand opcode rsv => exact absurd rfl hi
  | tokenInternal => exact hshort (by decide) rfl
  | tokenInvalid mark =>
    have hmark : illegalMark mark := of_decide_eq_true hwf
    exact hshort hmark.2 rfl
  | tokenLeaf sym =>
    have hmark : memRead .dbuf s.eng.dpos s = (0x31, s) := hread (k := 0) rfl
    have hsym : memRead .dbuf (s.eng.dpos + 1) s = (sym, s) := hread rfl
    have hroom : s.eng.dpos + 1 < s.dictionaryLen := hlen
    simp only [fetchToken, hmark, if_true, if_pos hroom, hsym]
    rfl

/-- Inside PARSE the engine runs what the fetch and the token decoder give (R57; log 3). -/
theorem engineRun_token {s : State} {i : Instr} {bytes rest : List Byte} (hstage : s.stage = .parse)
    (hmore : s.eng.dpos < s.dictionaryLen) (hfetch : fetchToken s = (bytes, s))
    (hdecode : decodeToken bytes = .ok (i, rest)) : engineRun s = exec i s := by
  simp only [engineRun, hstage, if_pos hmore, engineToken, hfetch, hdecode]

theorem step_token {s : State} {ts : List Turn} {i : Instr} {bytes rest : List Byte}
    (h : engineRunning s ts .parse) (hmore : s.eng.dpos < s.dictionaryLen)
    (hfetch : fetchToken { s with schedule := ts } = (bytes, { s with schedule := ts }))
    (hdecode : decodeToken bytes = .ok (i, rest)) : step s = exec i { s with schedule := ts } := by
  rw [step_engine h]
  obtain ⟨-, -, -, hstage⟩ := h
  exact engineRun_token hstage hmore hfetch hdecode

/-- Settles O23: the fetch gives the token's own bytes, and for a lone LEAF mark a token that raises the
error. -/
theorem engineStepRunsTokenAtDpos : Obligations.EngineStepRunsTokenAtDpos := by
  refine ⟨fun s ts i h hwf hi hlen hfit hstored => ?_, fun s ts h hlast hfit hmark => ?_⟩
  · have hpos := List.length_pos_iff.mpr hi
    have hdecode := decodeToken_tokenBytes hwf hi []
    rw [List.append_nil] at hdecode
    exact step_token h (by omega)
      (fetchToken_of_bytes (s := { s with schedule := ts }) hwf hi hlen hfit hstored) hdecode
  · have hrest : ({ s with schedule := ts } : State).restIs [0x31] :=
      ⟨hfit, hlast, fun | 0, _ => hmark⟩
    rw [step_token (i := .tokenLeaf 0) h (by omega) (fetchToken_lone_leaf hrest) rfl]
    exact exec_token_error (List.cons_ne_nil _ _) (tokenLeaf_last 0 hlast)

end Sys2Proof.Machine
end

section
/-!
PARSE of a whole dictionary of legal tokens (R57 to R65): the errors that such a dictionary can end in, and
the dictionary of a code tree.
-/

namespace Sys2Proof.Machine

/-! The parse loop to the end of the dictionary. -/

theorem parseLoop_at_end (fuel : Nat) {s : State} (h : s.dictionaryLen ≤ s.eng.dpos) :
    parseLoop fuel s = .ok s := by
  cases fuel with
  | zero => rfl
  | succ fuel => exact if_neg (Nat.not_lt.mpr h)

/-- A dictionary of legal tokens within PATH_MAX is read to its end (R57). -/
theorem parseLoop_dictionary {s : State} {toks : List Instr} (htoks : ∀ i ∈ toks, isMarkToken i)
    (hwalk : walkFits s.cfg.pathMax toks [] = true) (hfit : s.dictionaryLen ≤ s.cfg.dbufSize)
    (hd : s.dictionaryIs (toks.flatMap tokenBytes)) :
    parseLoop s.dictionaryLen (parseInit s) = .ok ((parseInit s).afterTokens toks) := by
  have hstart : (parseInit s).restIs (toks.flatMap tokenBytes ++ []) := by
    rw [List.append_nil]
    exact State.dictionaryIs.restIs_parseInit hd hfit
  obtain ⟨fuel, hfuel⟩ : ∃ fuel, s.dictionaryLen = toks.length + fuel :=
    Nat.exists_eq_add_of_le (hd.1 ▸ length_le_tokenBytes htoks)
  rw [hfuel, parseLoop_tokens (s := parseInit s) _ htoks hwalk hstart]
  exact parseLoop_at_end _ hstart.afterTokens.len.ge

/-- An INTERNAL token at a full PATH (R58). -/
theorem parseToken_full {s : State} {more : List Byte} (hfull : s.eng.path.length = s.cfg.pathMax)
    (h : s.restIs (0x30 :: more)) : parseToken s = .error (.pathOverflow, s) :=
  (parseToken_stored (i := .tokenInternal) rfl (by decide) h).trans (tokenInternal_full hfull)

/-! Dictionaries of INTERNAL tokens. -/

theorem tokenBytes_replicate_internal (n : Nat) :
    (List.replicate n Instr.tokenInternal).flatMap tokenBytes = List.replicate n 0x30 := by
  rw [List.flatMap_replicate]
  exact List.flatten_replicate_singleton

theorem isMarkToken_replicate_internal (n : Nat) :
    ∀ i ∈ List.replicate n Instr.tokenInternal, isMarkToken i := fun i hi => by
  rw [List.eq_of_mem_replicate hi]
  trivial

theorem walkFits_replicate_internal {pathMax n : Nat} (h : n ≤ pathMax) :
    walkFits pathMax (List.replicate n .tokenInternal) [] = true :=
  walkFits_of_short _ _ (by rwa [List.count_replicate_self, List.length_nil, Nat.zero_add])

/-- A run of INTERNAL tokens goes left all the way (R58). -/
theorem walkTokens_replicate_internal (n : Nat) (w : Bits × List (Bits × Byte)) :
    walkTokens (List.replicate n .tokenInternal) w = (w.1 ++ zeros n, w.2) := by
  induction n generalizing w with
  | zero => simp [walkTokens, zeros]
  | succ n ih => simp [List.replicate_succ, walkTokens, ih, zeros]

/-- A dictionary without LEAF tokens counts no entry (R62). -/
theorem decompressRun_empty {s : State} {toks : List Instr} (htoks : ∀ i ∈ toks, isMarkToken i)
    (hwalk : walkFits s.cfg.pathMax toks [] = true) (hin : s.inputLen ≤ s.cfg.ibufSize)
    (hfit : s.dictionaryLen ≤ s.cfg.dbufSize) (hd : s.dictionaryIs (toks.flatMap tokenBytes))
    (hleaf : toks.filterMap leafSym = []) :
    decompressRun s = .error (.emptyDictionary, (parseInit s).afterTokens toks) := by
  have hentries : ((parseInit s).afterTokens toks).eng.entries = 0 := by
    simp [State.afterTokens, hleaf]
  rw [decompressRun, if_neg (by omega), parseLoop_dictionary htoks hwalk hfit hd]
  simp only [decompressTail, parseEnd, hentries, if_true]

/-- Settles O30: the walk counts no LEAF token. -/
theorem dictionaryWithoutLeavesIsEmpty : Obligations.DictionaryWithoutLeavesIsEmpty := by
  intro s n hin hdbuf hpath hd
  have hlen := hd.1
  rw [List.length_replicate] at hlen
  rw [← tokenBytes_replicate_internal] at hd
  have hrun := decompressRun_empty (isMarkToken_replicate_internal n)
    (walkFits_replicate_internal hpath) hin (hlen ▸ hdbuf) hd
    (List.filterMap_eq_nil_iff.mpr fun i hi => by rw [List.eq_of_mem_replicate hi]; rfl)
  refine ⟨_, by rw [exec, execDecompress, hrun], ?_⟩
  exact errorCompleted_of_raised rfl (fun _ hne => absurd rfl hne) (errorComplete_completed ..)

/-- Legal tokens that fill PATH, and one INTERNAL token more (R58, R89). -/
theorem exec_decompress_full_path {s : State} {toks : List Instr} {rest : List Byte}
    (hin : s.inputLen ≤ s.cfg.ibufSize) (hdict : s.dictionaryLen ≤ s.cfg.dbufSize)
    (htoks : ∀ i ∈ toks, isMarkToken i) (hwalk : walkFits s.cfg.pathMax toks [] = true)
    (hfull : (walkTokens toks ([], [])).1.length = s.cfg.pathMax)
    (hd : s.dictionaryIs (toks.flatMap tokenBytes ++ 0x30 :: rest)) :
    ∃ t, exec .decompress s = .next t ∧ errorCompleted .decompress .pathOverflow s t := by
  have hrest := (State.dictionaryIs.restIs_parseInit hd hdict).afterTokens
  exact exec_decompress_parseLoop_error_after_tokens hin hdict
    (parseLoop_error_after_tokens htoks hwalk hdict hd (parseToken_full hfull hrest))

/-- Settles O32: the parser walks the legal tokens to a full PATH; a run of PATH_MAX INTERNAL tokens is
such a walk. -/
theorem tooDeepDictionaryOverflowsPath : Obligations.TooDeepDictionaryOverflowsPath := by
  refine fun s rest hin hdict => ⟨fun toks htoks hwalk hfull hd =>
    exec_decompress_full_path hin hdict htoks hwalk hfull hd, fun hd => ?_⟩
  refine exec_decompress_full_path hin hdict (isMarkToken_replicate_internal s.cfg.pathMax)
    (walkFits_replicate_internal (Nat.le_refl _)) ?_ (rest := rest) ?_
  · rw [walkTokens_replicate_internal, List.nil_append, zeros, List.length_replicate]
  · rwa [tokenBytes_replicate_internal, List.append_cons, ← List.replicate_succ']

/-! The dictionary of a code tree. -/

/-- INV after a list of symbols and keys has been recorded (R59). -/
def recorded (entries : List (Byte × Bits)) (inv : List (Bits × Byte)) : List (Bits × Byte) :=
  entries.foldl (fun inv e => invSet e.2 e.1 inv) inv

theorem recorded_append (entries more : List (Byte × Bits)) (inv : List (Bits × Byte)) :
    recorded (entries ++ more) inv = recorded more (recorded entries inv) :=
  List.foldl_append

theorem recorded_singleton (e : Byte × Bits) (inv : List (Bits × Byte)) :
    recorded [e] inv = invSet e.2 e.1 inv := rfl

/-- Where no key is recorded for two symbols, INV is the list turned round. -/
theorem invGet_recorded {entries : List (Byte × Bits)}
    (hkeys : ∀ {x y c}, (x, c) ∈ entries → (y, c) ∈ entries → x = y) {key : Bits} {x : Byte} :
    invGet key (recorded entries []) = some x ↔ (x, key) ∈ entries := by
  induction entries using List.reverseRecOn with
  | nil => simp [recorded, invGet]
  | append_singleton entries e ih =>
    have ih := ih fun hx hy => hkeys (List.mem_append_left _ hx) (List.mem_append_left _ hy)
    rw [recorded_append, recorded_singleton, invGet_invSet]
    by_cases hk : key = e.2
    · subst hk
      have he : (e.1, e.2) ∈ entries ++ [e] := List.mem_append_right _ (List.mem_singleton.mpr rfl)
      rw [if_pos rfl, Option.some.injEq]
      exact ⟨fun hx => hx ▸ he, hkeys he⟩
    · rw [if_neg hk, ih, List.mem_append, List.mem_singleton]
      exact (or_iff_left fun h => hk (congrArg Prod.snd h)).symm

theorem walkTokens_append (toks more : List Instr) (w : Bits × List (Bits × Byte)) :
    walkTokens (toks ++ more) w = walkTokens more (walkTokens toks w) := by
  induction toks generalizing w with
  | nil => rfl
  | cons i toks ih => rw [List.cons_append, walkTokens_cons, ih, ← walkTokens_cons]

namespace Tree

/-- The walk of a subtree's tokens from its path records its codes and moves to the next node (R63). -/
theorem walkTokens_tokens (T : Tree) {path : Bits} (hpath : path ≠ []) (inv : List (Bits × Byte)) :
    walkTokens T.tokens (path, inv) = (backtrack path, recorded (T.codes path) inv) := by
  induction T generalizing path inv with
  | leaf x => rfl
  | node l r ihl ihr =>
    rw [tokens, walkTokens, walkTokens_append, ihl (by simp), backtrack_concat_false,
      ihr (by simp), backtrack_concat_true hpath, codes, recorded_append]

/-- The walk of a whole tree's tokens records its codes, that of a lone Leaf included (R63). -/
theorem inv_walkTokens_tokens (T : Tree) :
    (walkTokens T.tokens ([], [])).2 = recorded (T.codes []) [] := by
  cases T with
  | leaf x => rfl
  | node l r =>
    rw [tokens, walkTokens, walkTokens_append, walkTokens_tokens l (by simp), backtrack_concat_false,
      walkTokens_tokens r (by simp), codes, recorded_append]

/-- INV after the walk of a tree's tokens is the inverse of its codes (R63). -/
theorem invGet_walkTokens_tokens (T : Tree) {key : Bits} {x : Byte} :
    invGet key (walkTokens T.tokens ([], [])).2 = some x ↔
      ∃ p, T.symAt p = some x ∧ key = leafKey p := by
  rw [inv_walkTokens_tokens, invGet_recorded, mem_codes]
  · rfl
  · intro x y c hx hy
    obtain ⟨p, hp, rfl⟩ := mem_codes.mp hx
    obtain ⟨q, hq, hpq⟩ := mem_codes.mp hy
    exact eq_of_leafKey_prefix hp hq (hpq ▸ List.prefix_refl _)

end Tree

/-- The dictionary of COMPRESS has at most 767 bytes, the least DBUF_SIZE (R5, R54). -/
theorem length_dict_compressTables {s : State} {bytes : List Byte} (hin : s.inputIs bytes)
    (hpos : 1 ≤ bytes.length) (hfit : bytes.length ≤ s.cfg.ibufSize) :
    (compressTables s).eng.dict.length ≤ 767 := by
  obtain ⟨T, hT⟩ := (compressTables_tabled hin hfit).codeTree hpos
  have hlen := hT.dict_length
  have hn := distinct_le bytes
  omega

/-- A successful COMPRESS leaves DICT in DBUF and its length in DICT_LEN (R78, R79). -/
theorem exec_compress_dictionaryIs {s t : State} {bytes : List Byte} (hcfg : s.cfg.ok)
    (hin : s.inputIs bytes) (hpos : 1 ≤ bytes.length) (hfit : bytes.length ≤ s.cfg.ibufSize)
    (hexec : exec .compress s = .next t) (herr : t.status.err = false) :
    t.dictionaryIs t.eng.dict := by
  have hlen := hin.1
  cases hexec
  rcases compressRun_cases s with
    ⟨hlong, -⟩ | ⟨-, hzero, -⟩ | ⟨-, -, ⟨out, u, hr, hu⟩ | ⟨out, u, hr, -, -⟩⟩
  · omega
  · omega
  · have htcfg := (compressTables_effect s).cfg
    have hdict := length_dict_compressTables hin hpos hfit
    have hdbuf : 767 ≤ s.cfg.dbufSize := by omega
    obtain ⟨hkept, -, hstored, -⟩ := hu.result (htcfg ▸ hcfg) (by rw [htcfg]; omega)
    rw [← hkept] at hdict hstored
    rw [hr]
    refine ⟨?_, hstored⟩
    show (BitVec.ofNat 32 u.eng.dict.length).toNat = u.eng.dict.length
    exact Nat.mod_eq_of_lt (by omega)
  · rw [hr, finish, errorComplete_frame] at herr
    cases herr

/-- Settles O56: the dictionary is that of the code tree, whose walk records the codes. -/
theorem dictionaryDescribesCodebook : Obligations.DictionaryDescribesCodebook := by
  intro s t bytes hcfg hin hpos hfit hexec herr
  obtain ⟨T, hT⟩ := exec_compress_codeTree hin hpos hfit hexec
  have hd := exec_compress_dictionaryIs hcfg hin hpos hfit hexec herr
  have htcfg : t.cfg = s.cfg := (exec_effect (by simp) hexec).cfg
  have hdict := hT.dict_length
  have hcount := T.count_tokens
  have hn := distinct_le bytes
  obtain ⟨-, -, ⟨hdbuf, -⟩, -, ⟨hpath, -⟩⟩ := hcfg
  rw [hT.length_syms] at hcount
  have hwalk : walkFits t.cfg.pathMax T.tokens [] = true :=
    walkFits_of_short _ _ (by rw [htcfg, List.length_nil]; omega)
  have hroom : t.dictionaryLen ≤ t.cfg.dbufSize := by rw [hd.1, htcfg]; omega
  have hentries : ((parseInit t).afterTokens T.tokens).eng.entries ≠ 0 := by
    have hpos := T.length_syms_pos
    simp only [State.afterTokens, State.withEng_eng, T.filterMap_leafSym_tokens]
    omega
  refine ⟨_, parseLoop_dictionary T.isMarkToken_tokens hwalk hroom (hT.dict ▸ hd), if_neg hentries,
    fun key x => ?_⟩
  rw [hT.code_eq_some]
  exact T.invGet_walkTokens_tokens

end Sys2Proof.Machine
end

section
/-!
Packing and matching (R44, R68 to R73): the bit order of bytes, the payload format and its inverse, and
greedy matching over prefix-free keys.
-/

namespace Sys2Proof.Machine

/-! The bits of a byte (R7). -/

/-- A number read from a bit sequence, its most significant bit first, has those bits. -/
theorem testBit_foldl_bitNat (f : Nat → Bool) {n i : Nat} (h : i < n) :
    ((List.range n).foldl (fun acc k => 2 * acc + bitNat (f k)) 0).testBit (n - 1 - i) = f i := by
  induction n with
  | zero => omega
  | succ n ih =>
    have hbit := bitNat_le (f n)
    rw [List.range_succ, List.foldl_append, List.foldl_cons, List.foldl_nil]
    rcases Nat.lt_succ_iff_lt_or_eq.mp h with hlt | rfl
    · rw [show n + 1 - 1 - i = n - 1 - i + 1 by omega, Nat.testBit_succ,
        show ∀ m, (2 * m + bitNat (f n)) / 2 = m by omega]
      exact ih hlt
    · rw [show i + 1 - 1 - i = 0 by omega, Nat.testBit_zero,
        show ∀ m, (2 * m + bitNat (f i)) % 2 = bitNat (f i) by omega]
      exact decide_bitNat (f i)

theorem getLsbD_byte8 (bits : Bits) {i : Nat} (hi : i < 8) :
    (byte8 bits).getLsbD (7 - i) = bits.getD i false := by
  rw [byte8, BitVec.getLsbD_ofNat, testBit_foldl_bitNat (fun k => bits.getD k false) hi]
  simp [show 7 - i < 8 by omega]

@[simp] theorem length_bits8 (v : Byte) : (bits8 v).length = 8 := rfl

theorem getElem?_bits8 (v : Byte) {i : Nat} (hi : i < 8) :
    (bits8 v)[i]? = some (v.getLsbD (7 - i)) := by
  simp [bits8, hi]

theorem getElem?_eq_getLsbD_byte8 {bits : Bits} {i : Nat} (hlen : bits.length = 8) (hi : i < 8) :
    bits[i]? = some ((byte8 bits).getLsbD (7 - i)) := by
  rw [getLsbD_byte8 bits hi, List.getD_eq_getElem _ _ (hlen ▸ hi)]
  exact List.getElem?_eq_getElem _

theorem bits8_byte8 {bits : Bits} (hlen : bits.length = 8) : bits8 (byte8 bits) = bits := by
  refine List.ext_getElem? fun i => ?_
  by_cases hi : i < 8
  · rw [getElem?_bits8 _ hi, getElem?_eq_getLsbD_byte8 hlen hi]
  · simp [hlen, hi]

theorem byte8_bits8 (v : Byte) : byte8 (bits8 v) = v := by
  refine BitVec.eq_of_getLsbD_eq fun j hj => ?_
  have hi : 7 - j < 8 := by omega
  have hbit : (byte8 (bits8 v)).getLsbD (7 - (7 - j)) = v.getLsbD (7 - (7 - j)) := by
    rw [getLsbD_byte8 _ hi, List.getD_eq_getElem?_getD, getElem?_bits8 v hi, Option.getD_some]
  rwa [show 7 - (7 - j) = j by omega] at hbit

/-! The payload format (R44). -/

/-- Cutting a sequence into pieces of 8 and joining them again. -/
theorem flatMap_take_drop_eight (bits : Bits) (n : Nat) :
    ((List.range n).flatMap fun k => (bits.drop (8 * k)).take 8) = bits.take (8 * n) := by
  induction n with
  | zero => rfl
  | succ n ih =>
    rw [List.range_succ, List.flatMap_append, ih, List.flatMap_singleton, Nat.mul_succ,
      List.take_add]

theorem length_append_padding (bits : Bits) :
    (bits ++ zeros (padLen bits.length)).length = 8 * bytesFor bits.length := by
  rw [List.length_append, zeros, List.length_replicate, padLen, bytesFor]
  omega

/-- Unpacking inverts packing, up to the padding (R70). -/
theorem flatMap_bits8_packBits (bits : Bits) :
    (packBits bits).flatMap bits8 = bits ++ zeros (padLen bits.length) := by
  have hlen := length_append_padding bits
  have hpiece : ∀ k ∈ List.range (bytesFor bits.length),
      (((bits ++ zeros (padLen bits.length)).drop (8 * k)).take 8).length = 8 := fun k hk => by
    have hk := List.mem_range.mp hk
    rw [List.length_take, List.length_drop, hlen]
    omega
  rw [packBits, List.flatMap_map, List.flatMap_congr fun k hk => bits8_byte8 (hpiece k hk),
    flatMap_take_drop_eight, ← hlen, List.take_length]

/-! UNPACK (R68). -/

theorem length_flatMap_bits8 (payload : List Byte) :
    (payload.flatMap bits8).length = 8 * payload.length := by
  simp [List.length_flatMap, Nat.mul_comm]

/-- Bit `8 * k + i` of the unpacked bytes is bit `i` of byte `k`, most significant bit first. -/
theorem getElem?_flatMap_bits8 (payload : List Byte) (k : Nat) {i : Nat} (hi : i < 8) :
    (payload.flatMap bits8)[8 * k + i]? = payload[k]?.map fun v => v.getLsbD (7 - i) := by
  induction payload generalizing k with
  | nil => rfl
  | cons v payload ih =>
    rw [List.flatMap_cons]
    cases k with
    | zero =>
      rw [List.getElem?_append_left (by rw [length_bits8]; omega), Nat.mul_zero, Nat.zero_add]
      exact getElem?_bits8 v hi
    | succ k =>
      rw [List.getElem?_append_right (by rw [length_bits8]; omega), length_bits8,
        show 8 * (k + 1) + i - 8 = 8 * k + i by omega]
      exact ih k

/-- UNPACK of written bytes gives their bits and changes nothing. -/
theorem unpack_stored {s : State} {payload : List Byte} (hfit : payload.length ≤ s.cfg.ibufSize)
    (h : s.holds .ibuf payload) : unpack payload.length s = (payload.flatMap bits8, s) := by
  have hread : memReadN .ibuf 0 payload.length s = (payload, s) :=
    memReadN_stored (by simpa [Buf.size] using hfit) fun k hk => by simpa using h k hk
  rw [unpack, hread]

/-- Settles O49: `bits8` and `byte8` are inverse on 8 bits, so unpacking joins the pieces that packing
cut. -/
theorem unpackInvertsPack : Obligations.UnpackInvertsPack := by
  refine ⟨flatMap_bits8_packBits, byte8_bits8, fun v _ => getElem?_bits8 v,
    fun _ _ => getElem?_eq_getLsbD_byte8, fun s payload hfit h => ?_⟩
  rw [unpack_stored hfit h]
  exact ⟨length_flatMap_bits8 payload, fun k _ _ => getElem?_flatMap_bits8 payload k⟩

/-! Greedy matching (R69). -/

theorem invGet_eq_none {key : Bits} {inv : List (Bits × Byte)} (h : ∀ p ∈ inv, p.1 ≠ key) :
    invGet key inv = none := by
  induction inv with
  | nil => rfl
  | cons p inv ih =>
    rw [List.forall_mem_cons] at h
    exact (if_neg h.1).trans (ih h.2)

theorem mem_of_invGet {key : Bits} {v : Byte} {inv : List (Bits × Byte)}
    (h : invGet key inv = some v) : (key, v) ∈ inv := by
  induction inv with
  | nil => cases h
  | cons p inv ih =>
    rw [invGet] at h
    split at h
    next hkey =>
      cases h
      exact hkey ▸ List.mem_cons_self
    next => exact List.mem_cons_of_mem p (ih h)

theorem greedy_match {inv : List (Bits × Byte)} {buf : Bits} {bit : Bool} {v : Byte}
    (h : invGet (buf ++ [bit]) inv = some v) (bits : Bits) :
    greedy inv buf (bit :: bits) = v :: greedy inv [] bits := by
  rw [greedy, h]

theorem greedy_no_match {inv : List (Bits × Byte)} {buf : Bits} {bit : Bool}
    (h : invGet (buf ++ [bit]) inv = none) (bits : Bits) :
    greedy inv buf (bit :: bits) = greedy inv (buf ++ [bit]) bits := by
  rw [greedy, h]

/-- Settles O54: every further bit makes BUF longer than every key, so the test fails again. -/
theorem longBufferNeverMatches : Obligations.LongBufferNeverMatches := by
  intro inv buf bits hlong
  induction bits generalizing buf with
  | nil => rfl
  | cons bit bits ih =>
    have hlonger : ∀ p ∈ inv, p.1.length < (buf ++ [bit]).length := fun p hp => by
      have := hlong p hp
      rw [List.length_append, List.length_singleton]
      omega
    rw [greedy_no_match (invGet_eq_none fun p hp heq => (hlonger p hp).ne (congrArg _ heq))]
    exact ih _ fun p hp => (hlonger p hp).le

/-- Where the bits to come complete a key that begins with no other key, its symbol is emitted and
BUF is empty again. -/
theorem greedy_rest_of_key {inv : List (Bits × Byte)} {buf rest : Bits} {v : Byte}
    (hget : invGet (buf ++ rest) inv = some v) (hne : rest ≠ [])
    (hprefix : ∀ p ∈ inv, p.1 <+: buf ++ rest → p.1 = buf ++ rest) (tail : Bits) :
    greedy inv buf (rest ++ tail) = v :: greedy inv [] tail := by
  induction rest generalizing buf with
  | nil => exact absurd rfl hne
  | cons bit rest ih =>
    by_cases hlast : rest = []
    · subst hlast
      exact greedy_match hget tail
    · have hnone : invGet (buf ++ [bit]) inv = none := invGet_eq_none fun p hp heq => by
        have hkey : p.1 = buf ++ bit :: rest := hprefix p hp ⟨rest, by simp [heq]⟩
        exact hlast (by simpa [hkey] using heq)
      rw [List.append_cons] at hget hprefix
      rw [List.cons_append, greedy_no_match hnone]
      exact ih hget hlast hprefix

/-- Settles O55: one key at a time. -/
theorem greedyDecodesConcatenation : Obligations.GreedyDecodesConcatenation := by
  intro inv codes tail hne hprefix hcodes
  induction codes with
  | nil => rfl
  | cons c codes ih =>
    obtain ⟨hget, hcodes⟩ := List.forall_mem_cons.mp hcodes
    have hmem := mem_of_invGet hget
    rw [List.flatMap_cons, List.append_assoc, List.map_cons, List.cons_append,
      greedy_rest_of_key (buf := []) hget (hne _ hmem) fun p hp => hprefix p hp _ hmem, ih hcodes]

end Sys2Proof.Machine
end

section
/-!
The start of a command, and what the host sees until its completion (R75, R76, R82).
-/

namespace Sys2Proof.Machine

/-! Writes to CMD. -/

/-- A host write to CMD of an IDLE block. -/
theorem step_writeCommand {s : State} {ts : List Turn} {rest : List Stmt} {w : Word}
    (hr : s.resetIn = false) (hi : s.phase = .idle)
    (h : hostAccess s ts rest .w32 0x000 (.write (.imm w))) :
    step s = writeCommand w (afterStatement s ts rest) := by
  rw [step_writeRegister hr (by decide) (by decide) h]
  simp [writeRegisterAt, hi, Reg.ofOffset]

/-- A legal word starts its command (R75). -/
theorem writeCommand_legal {w : Word} (hw : w = 0x00000001 ∨ w = 0x00000002) (s : State) :
    writeCommand w s = .next (startCommand w s) := by
  rcases hw with rfl | rfl <;> rfl

/-- A word other than the two legal ones is BAD_COMMAND (R39). -/
theorem decodeCommand_of_not_legal {w : Word} (h1 : w ≠ 0x00000001) (h2 : w ≠ 0x00000002) :
    decodeCommand w = .badCommand (cmdOpcode w) (cmdRsv w) := by
  rcases decodeCommand_cases w with ⟨hw, -⟩ | ⟨hw, -⟩ | hd
  · exact absurd hw h1
  · exact absurd hw h2
  · exact hd

/-- Settles O20: the write runs BAD_COMMAND on the fields of the word. -/
theorem illegalCommandWriteCompletesAtOnce : Obligations.IllegalCommandWriteCompletesAtOnce := by
  intro s ts rest w hr hi h1 h2 h
  have hstep : step s = exec (.badCommand (cmdOpcode w) (cmdRsv w)) (afterStatement s ts rest) := by
    rw [step_writeCommand hr hi h, writeCommand, decodeCommand_of_not_legal h1 h2]
  refine ⟨_, hstep.trans ?_, rfl, ?_, hstep⟩
  · rw [exec_badCommand_idle (s := afterStatement s ts rest) hi, cmdWord_fields]
  · simp only [regRead, afterStatement_phase, hi]
    rfl

/-- Settles O21: `cmdWord` joins the two fields. -/
theorem badCommandResult : Obligations.BadCommandResult := fun _ opcode rsv hi _ =>
  exec_badCommand_idle hi opcode rsv

/-! The host's turn while BUSY. -/

/-- Every host write is ignored while BUSY (R99). -/
theorem WriteEffect.eq_of_busy {off : Nat} {s t : State} (h : WriteEffect off s t)
    (hb : s.phase = .busy) : t = s := by
  cases h with
  | ignored => rfl
  | _ => exact (Phase.not_idle_busy ‹s.phase = .idle› hb).elim

/-- While BUSY the host's turn changes its own program and names, and the draw counter (R99, R100). -/
theorem HostEffect.quiet_of_busy {s t : State} (h : HostEffect s t) (hb : s.phase = .busy) :
    ∃ prog vars draws, t = { s with prog := prog, vars := vars, draws := draws } := by
  cases h with
  | quiet prog vars draws => exact ⟨prog, vars, draws, rfl⟩
  | wrote a rest v off statement write decoded allowed effect =>
    exact ⟨rest, s.vars, s.draws, effect.eq_of_busy hb⟩

/-- A step at the host's turn is what its turn can do. -/
theorem step_host_effect {s t : State} {ts : List Turn} (ht : nextTurn s = (.host, ts))
    (h : step s = .next t) : HostEffect (atTurn s) t := by
  have hturn : takeTurn (nextTurn s).1 (atTurn s) = .next t := h
  rw [ht] at hturn
  exact hostTurn_effect hturn

/-- Settles O19: the write is `startCommand`; while BUSY the host writes nothing. -/
theorem legalCommandWriteStartsCommand : Obligations.LegalCommandWriteStartsCommand := by
  intro s ts rest w hr hi hw h
  refine ⟨startCommand w (afterStatement s ts rest), ?_, rfl, rfl,
    fun ts' rest' w' off v ho hp h' => ?_, fun u v ts' hb hcmd hin hdict hmem ht' hstep => ?_⟩
  · rw [step_writeCommand hr hi h, writeCommand_legal hw]
  · rw [step_write h' ho hp]
    exact busWrite_busy rfl w' off v
  · obtain ⟨prog, vars, draws, rfl⟩ := (step_host_effect ht' hstep).quiet_of_busy hb
    exact ⟨hb, hcmd, hin, hdict, hmem⟩

/-! The engine's turn. -/

/-- Settles O22: at the stage `command` the engine's turn is `exec`. -/
theorem engineStepRunsCommandInCmd : Obligations.EngineStepRunsCommandInCmd := by
  intro s ts h
  rw [step_engine h]
  obtain ⟨-, -, -, hstage⟩ := h
  simp only [engineRun, hstage]

/-- Settles O24: the engine's turn is the completion step, and STATUS shows DONE. -/
theorem legalCommandAlwaysCompletes : Obligations.LegalCommandAlwaysCompletes := by
  intro s ts h hcmd
  obtain ⟨c, t, hstep, hdone, -⟩ := step_completes h hcmd
  have ⟨hphase, hstage, _⟩ := hdone
  exact ⟨t, hstep, hphase, hstage, hdone.done, (statusDone_statusWord _ _).trans hdone.done⟩

/-- No register and no buffer shows the working state, the reset input, the host, the schedule or the
draw counter. -/
theorem visible_of_eq {s t : State}
    (h : ∃ eng resetIn prog vars schedule draws, t = { s with
      eng := eng, resetIn := resetIn, prog := prog, vars := vars, schedule := schedule,
      draws := draws }) :
    (∀ r, regRead r t = regRead r s) ∧ ∀ a, Memory.read a t.mem = Memory.read a s.mem := by
  obtain ⟨eng, resetIn, prog, vars, schedule, draws, rfl⟩ := h
  exact ⟨fun r => by cases r <;> rfl, fun _ => rfl⟩

/-- Settles O27: a step that leaves the block BUSY is a quiet host turn, a turn inside PARSE, or one
that only releases the reset input. -/
theorem nothingVisibleChangesWhileBusy : Obligations.NothingVisibleChangesWhileBusy := by
  intro s t h hb hb'
  cases step_effect h with
  | host _ effect =>
    obtain ⟨prog, vars, draws, rfl⟩ := effect.quiet_of_busy hb
    exact visible_of_eq ⟨_, _, _, _, _, _, rfl⟩
  | engineWaits => exact visible_of_eq ⟨_, _, _, _, _, _, rfl⟩
  | engineRuns _ busy _ run =>
    rcases (engineRun_effect (s := atTurn s) busy run).ends with ⟨hidle, -⟩ | ⟨eng, draws, rfl⟩
    · exact (Phase.not_idle_busy hidle hb').elim
    · exact visible_of_eq ⟨_, _, _, _, _, _, rfl⟩
  | assertReset => cases hb'
  | releaseReset => exact visible_of_eq ⟨_, _, _, _, _, _, rfl⟩

end Sys2Proof.Machine
end

section
/-!
What the two commands leave unchanged, with success and with an error (R78, R80, R86, R88).
-/

namespace Sys2Proof.Machine

/-! Ends. -/

/-- A command that ends without an error has run its pseudocode to the end (R76). -/
theorem finish_success {c : Command} {r : Except Raised State}
    (h : (finish c r).status.err = false) : ∃ u, r = .ok u := by
  cases r with
  | ok u => exact ⟨u, rfl⟩
  | error p =>
    rw [finish, errorComplete_frame] at h
    cases h

/-- A command that ends with an error has raised it (R88). -/
theorem finish_failure {c : Command} {r : Except Raised State}
    (h : (finish c r).status.err = true) : ∃ u, r = .error ((finish c r).status.code, u) := by
  cases r with
  | ok u => cases h
  | error p =>
    rw [finish, errorComplete_frame]
    exact ⟨p.2, rfl⟩

/-- The memory part of R88. -/
theorem errorCompleted.memory {c : Command} {e : ErrCode} {s t : State}
    (h : errorCompleted c e s t) : errorMemory c e s t := by
  obtain ⟨-, -, -, -, -, -, -, -, -, -, -, hmem⟩ := h
  exact hmem

/-- A number within the buffers' spans fits in a register (R7). -/
theorem toNat_ofNat_word {n : Nat} (h : n ≤ 2 ^ 22) : (BitVec.ofNat 32 n).toNat = n :=
  Nat.mod_eq_of_lt (by omega)

theorem sameButWorking.mem {s t : State} (h : sameButWorking s t) : t.mem = s.mem := by
  obtain ⟨e, n, rfl⟩ := h
  rfl

/-- The emitted bytes fit in OBUF. -/
theorem Emitted.length_le_obufSize {s u : State} {out : List Byte} (hu : Emitted s out u)
    (ho : s.eng.opos = 0) : out.length ≤ s.cfg.obufSize := by
  have hfits := hu.fits (by omega)
  omega

/-! COMPRESS. -/

/-- The tables are those of the bytes FREQ_BUILD has read, written or not. -/
theorem compressTables_tabled_read (s : State) :
    Tabled (memReadN .ibuf 0 s.inputLen s).1 (compressTables s).eng :=
  ⟨rfl, rfl, rfl, rfl, rfl, rfl⟩

/-- The dictionary of any nonempty input has at most 767 bytes, the least DBUF_SIZE (R5, R54). -/
theorem length_dict_le {s : State} (hpos : s.inputLen ≠ 0) :
    (compressTables s).eng.dict.length ≤ 767 := by
  have hlen := memReadN_length .ibuf 0 s.inputLen s
  obtain ⟨T, hT⟩ := (compressTables_tabled_read s).codeTree (by omega)
  have hdict := hT.dict_length
  have hn := distinct_le (memReadN .ibuf 0 s.inputLen s).1
  omega

/-- The memory PACK starts from: the dictionary stored in DBUF (R78). -/
theorem read_packStart {s : State} (hdict : s.eng.dict.length ≤ s.cfg.dbufSize) {a : Nat}
    (ha : ¬ (Buf.dbuf.offset ≤ a ∧ a < Buf.dbuf.offset + s.eng.dict.length)) :
    Memory.read a (packStart s).mem = Memory.read a s.mem := by
  have hfit : 0 + s.eng.dict.length ≤ Buf.dbuf.size s.cfg := by
    rw [Nat.zero_add]
    exact hdict
  exact (read_memWriteN hfit a).trans (if_neg ha)

/-- When PACK has emitted `out`, COMPRESS has stored the dictionary and those bytes, and no others. -/
theorem Emitted.read_compress {s u : State} {out : List Byte}
    (hu : Emitted (packStart (compressTables s)) out u)
    (hdict : (compressTables s).eng.dict.length ≤ s.cfg.dbufSize) {a : Nat}
    (hd : ¬ (Buf.dbuf.offset ≤ a ∧ a < Buf.dbuf.offset + (compressTables s).eng.dict.length))
    (ho : ¬ (Buf.obuf.offset ≤ a ∧ a < Buf.obuf.offset + out.length)) :
    Memory.read a u.mem = Memory.read a s.mem := by
  have hopos : (packStart (compressTables s)).eng.opos = 0 := rfl
  rw [hu.read, hopos, Nat.add_zero, if_neg ho,
    read_packStart (by rwa [(compressTables_effect s).cfg]) hd, (compressTables_frame s).mem]

/-- Beside the stored dictionary PACK starts in the state the tables were left in. -/
theorem packStart_frame (s : State) :
    packStart s = { s with eng := (packStart s).eng, mem := (packStart s).mem } := by
  rw [packStart, memWriteN_eq]
  rfl

/-- Whatever error COMPRESS raises, R88 leaves nothing changed beside what it lists. -/
theorem compressRun_error {s u : State} {e : ErrCode} (hcfg : s.cfg.ok)
    (h : compressRun s = .error (e, u)) :
    errorCompleted .compress e s (errorComplete .compress e u) := by
  rcases compressRun_cases s with
    ⟨-, hr⟩ | ⟨-, -, hr⟩ | ⟨-, hpos, ⟨out, t, hr, -⟩ | ⟨out, t, hr, hu, -⟩⟩ <;>
    cases hr.symm.trans h
  · exact errorComplete_completed ..
  · exact errorComplete_completed ..
  · have hdict := length_dict_le hpos
    obtain ⟨-, -, ⟨hdbuf, -⟩, -⟩ := hcfg
    have hout := hu.length_le_obufSize rfl
    rw [packStart_cfg, (compressTables_effect s).cfg] at hout
    refine errorCompleted_of_raised ?_ (fun a hne => ⟨rfl, ?_⟩) (errorComplete_completed ..)
    · obtain ⟨eng, draws, htables⟩ := compressTables_frame s
      rw [hu.frame, packStart_frame, htables]
    · by_contra hnone
      obtain ⟨hobuf, hnodict⟩ := not_or.mp hnone
      exact hne (hu.read_compress (by omega) (fun hd => hnodict ⟨rfl, by omega⟩) (by omega))

theorem exec_compress_ok {s u : State} (h : compressRun s = .ok u) :
    exec .compress s = .next (completeCommand u) := by
  rw [exec, execCompress, h]
  rfl

theorem exec_compress_error {s u : State} {e : ErrCode} (h : compressRun s = .error (e, u)) :
    exec .compress s = .next (errorComplete .compress e u) := by
  rw [exec, execCompress, h]
  rfl

theorem compressRun_too_long {s : State} (h : s.cfg.ibufSize < s.inputLen) :
    compressRun s = .error (.lengthRange, s) := if_pos h

theorem compressRun_empty {s : State} (h : s.inputLen = 0) :
    compressRun s = .error (.emptyInput, s) := by
  rw [compressRun, if_neg (by omega), freqBuild, if_pos h]

/-- Settles O28: the two checks come before anything is written. -/
theorem compressLengthErrors : Obligations.CompressLengthErrors := fun _ =>
  ⟨fun hlong => ⟨_, exec_compress_error (compressRun_too_long hlong), errorComplete_completed ..⟩,
    fun hzero => ⟨_, exec_compress_error (compressRun_empty hzero), errorComplete_completed ..⟩⟩

theorem CommandEffect.vars {c : Command} {s t : State} (h : CommandEffect c s t) :
    t.vars = s.vars := by
  rw [h.frame]

/-- How a COMPRESS that raises no error ends (R78). -/
theorem compressRun_ok {s t : State} (h : compressRun s = .ok t) :
    s.inputLen ≠ 0 ∧ ∃ out u, t = compressLengths u ∧
      Emitted (packStart (compressTables s)) out u := by
  rcases compressRun_cases s with
    ⟨-, hr⟩ | ⟨-, -, hr⟩ | ⟨-, hpos, ⟨out, u, hr, hu⟩ | ⟨out, u, hr, -, -⟩⟩ <;>
    cases hr.symm.trans h
  exact ⟨hpos, out, u, rfl, hu⟩

/-- What a COMPRESS whose PACK has emitted `out` leaves in DICT_LEN, OUT_LEN, DBUF and OBUF (R79). -/
structure CompressStored (dict out : List Byte) (t : State) : Prop where
  dictLen : t.dictLen.toNat = dict.length
  outLen : t.outLen.toNat = out.length
  dict : t.holds .dbuf dict
  payload : t.holds .obuf out

theorem Emitted.compressed {s u : State} {out : List Byte} (hcfg : s.cfg.ok) (hpos : s.inputLen ≠ 0)
    (hu : Emitted (packStart (compressTables s)) out u) :
    CompressStored (compressTables s).eng.dict out (compressLengths u) := by
  have hdict := length_dict_le hpos
  have htcfg := (compressTables_effect s).cfg
  have hout := hu.length_le_obufSize rfl
  rw [packStart_cfg, htcfg] at hout
  have hsizes := hcfg
  obtain ⟨-, -, ⟨hdbuf, -⟩, ⟨-, hobuf⟩, -⟩ := hsizes
  obtain ⟨hkept, hopos, hstored, hpayload⟩ := hu.result (htcfg ▸ hcfg) (by rw [htcfg]; omega)
  refine ⟨?_, ?_, hstored, hpayload⟩
  · rw [compressLengths_dictLen, hkept, toNat_ofNat_word (by omega)]
  · rw [compressLengths_outLen, hopos, toNat_ofNat_word (by omega)]

/-- Settles O47: with success COMPRESS has stored the dictionary and the bytes PACK emitted, as many as
DICT_LEN and OUT_LEN say; with an error it leaves what R88 says. -/
theorem compressFrame : Obligations.CompressFrame := by
  intro s t hcfg hexec
  have heffect : CommandEffect .compress s t := exec_effect (i := .compress) nofun hexec
  refine ⟨heffect.cfg, heffect.cmd, heffect.inLen, heffect.resetIn, heffect.prog, heffect.vars,
    heffect.schedule, fun herr a hd ho => ?_, fun herr => ?_⟩ <;> cases hexec
  · obtain ⟨v, hr⟩ := finish_success herr
    obtain ⟨hpos, out, u, rfl, hu⟩ := compressRun_ok hr
    have hdict := length_dict_le hpos
    have hstored := hu.compressed hcfg hpos
    obtain ⟨-, -, ⟨hdbuf, -⟩, -⟩ := hcfg
    rw [hr] at hd ho ⊢
    rw [finish, completeCommand_dictLen, hstored.dictLen] at hd
    rw [finish, completeCommand_outLen, hstored.outLen] at ho
    exact hu.read_compress (by omega) hd ho
  · obtain ⟨u, hr⟩ := finish_failure herr
    have hmem := (compressRun_error hcfg hr).memory
    rw [hr]
    exact hmem

/-! DECOMPRESS. -/

/-- When DECODE_MATCH has emitted `out`, DECOMPRESS has stored those bytes and no others. -/
theorem Emitted.read_decompress {s t u : State} {out : List Byte}
    (ht : sameButWorking (parseInit s) t) (hu : Emitted (matchStart t) out u) {a : Nat}
    (ho : ¬ (Buf.obuf.offset ≤ a ∧ a < Buf.obuf.offset + out.length)) :
    Memory.read a u.mem = Memory.read a s.mem := by
  have hopos : (matchStart t).eng.opos = 0 := rfl
  rw [hu.read, hopos, Nat.add_zero, if_neg ho, matchStart, State.withEng_mem, ht.mem, parseInit_mem]

/-- The parser changes nothing that R88 speaks of. -/
theorem errorCompleted_of_parser {s t : State} (ht : sameButWorking (parseInit s) t) (e : ErrCode) :
    errorCompleted .decompress e s (errorComplete .decompress e t) := by
  obtain ⟨eng, draws, rfl⟩ := ht
  exact errorCompleted_of_raised rfl (fun _ hne => absurd rfl hne) (errorComplete_completed ..)

/-- Whatever error DECOMPRESS raises, R88 leaves nothing changed beside what it lists. -/
theorem decompressRun_error {s u : State} {e : ErrCode} (h : decompressRun s = .error (e, u)) :
    errorCompleted .decompress e s (errorComplete .decompress e u) := by
  rcases decompressRun_cases s with ⟨-, hr⟩ | ⟨-, -, ⟨e', t, hr, ht, -⟩ | ⟨t, -, ht, hr⟩⟩
  · cases hr.symm.trans h
    exact errorComplete_completed ..
  · cases hr.symm.trans h
    exact errorCompleted_of_parser ht e
  · rw [hr] at h
    rcases decompressTail_cases t with ⟨-, hr'⟩ | ⟨-, ⟨out, v, hr', -⟩ | ⟨out, v, hr', hv, -⟩⟩ <;>
      cases hr'.symm.trans h
    · exact errorCompleted_of_parser ht _
    · have hout := hv.length_le_obufSize rfl
      rw [show (matchStart t).cfg = s.cfg from ht.cfg] at hout
      refine errorCompleted_of_raised ?_ (fun a hne => ⟨rfl, .inl ?_⟩) (errorComplete_completed ..)
      · obtain ⟨eng, draws, rfl⟩ := ht
        rw [hv.frame]
        rfl
      · by_contra hnone
        exact hne (hv.read_decompress ht (by omega))

/-- How a DECOMPRESS that raises no error ends (R80). -/
theorem decompressRun_ok {s v : State} (h : decompressRun s = .ok v) :
    ∃ t out u, v = { u with outLen := BitVec.ofNat 32 u.eng.opos } ∧
      sameButWorking (parseInit s) t ∧ Emitted (matchStart t) out u := by
  rcases decompressRun_cases s with ⟨-, hr⟩ | ⟨-, -, ⟨e', t, hr, -, -⟩ | ⟨t, -, ht, hr⟩⟩
  · cases hr.symm.trans h
  · cases hr.symm.trans h
  · rw [hr] at h
    rcases decompressTail_cases t with ⟨-, hr'⟩ | ⟨-, ⟨out, u, hr', hu⟩ | ⟨out, u, hr', -, -⟩⟩ <;>
      cases hr'.symm.trans h
    exact ⟨t, out, u, rfl, ht, hu⟩

theorem exec_decompress_ok {s u : State} (h : decompressRun s = .ok u) :
    exec .decompress s = .next (completeCommand u) := by
  rw [exec, execDecompress, h]
  rfl

theorem exec_decompress_error {s u : State} {e : ErrCode} (h : decompressRun s = .error (e, u)) :
    exec .decompress s = .next (errorComplete .decompress e u) := by
  rw [exec, execDecompress, h]
  rfl

/-- Settles O29: the check comes before the parse. -/
theorem decompressLengthError : Obligations.DecompressLengthError := fun _ h =>
  ⟨_, exec_decompress_error (if_pos h), errorComplete_completed ..⟩

/-- Settles O52: with success DECOMPRESS has stored the bytes DECODE_MATCH emitted, as many as OUT_LEN
says; with an error it leaves what R88 says. -/
theorem decompressFrame : Obligations.DecompressFrame := by
  intro s t hcfg hexec
  have heffect : CommandEffect .decompress s t := exec_effect (i := .decompress) nofun hexec
  refine ⟨heffect.cfg, heffect.cmd, heffect.inLen, heffect.dictLen rfl, heffect.resetIn,
    heffect.prog, heffect.vars, heffect.schedule, fun herr a ho => ?_, fun herr => ?_⟩ <;>
    cases hexec
  · obtain ⟨v, hr⟩ := finish_success herr
    obtain ⟨t, out, u, rfl, ht, hu⟩ := decompressRun_ok hr
    have hout := hu.length_le_obufSize rfl
    rw [show (matchStart t).cfg = s.cfg from ht.cfg] at hout
    obtain ⟨-, -, -, ⟨-, hobuf⟩, -⟩ := hcfg
    have hopos : u.eng.opos = out.length := hu.opos.trans (Nat.zero_add _)
    rw [hr] at ho ⊢
    simp only [finish, completeCommand_outLen, hopos] at ho
    rw [toNat_ofNat_word (by omega)] at ho
    exact hu.read_decompress ht ho
  · obtain ⟨u, hr⟩ := finish_failure herr
    have hmem := (decompressRun_error hr).memory
    rw [hr]
    exact hmem

end Sys2Proof.Machine
end

section
/-!
What PACK emits (R44, R66, R67) and the result of COMPRESS (R78, R79).
-/

namespace Sys2Proof.Machine

/-! Emitting a given list of bytes. -/

/-- The end of a part of a command that has the bytes `out` to emit: it has emitted them and what it leaves
meets `after`, or they do not fit in OBUF and it has raised OUT_OVERFLOW (R66, R69). -/
inductive Emits (s : State) (out : List Byte) (after : State → Prop) : Except Raised State → Prop
  | done {t : State} (emitted : Emitted s out t) (left : after t) : Emits s out after (.ok t)
  | full {t : State} (excess : s.cfg.obufSize < s.eng.opos + out.length) :
      Emits s out after (.error (.outOverflow, t))

/-- Bytes already emitted come before those still to emit. -/
theorem Emits.afterEmitted {s t : State} {out more : List Byte} {after : State → Prop}
    {r : Except Raised State} (ht : Emitted s out t) (h : Emits t more after r) :
    Emits s (out ++ more) after r := by
  cases h with
  | done emitted left => exact .done (ht.trans emitted) left
  | full excess =>
    rw [ht.opos, ht.cfg, Nat.add_assoc, ← List.length_append] at excess
    exact .full excess

/-- Two parts, one after the other. -/
theorem Emits.bind {s : State} {out more : List Byte} {mid after : State → Prop}
    {r : Except Raised State} {next : State → Except Raised State} (h : Emits s out mid r)
    (hnext : ∀ t, Emitted s out t → mid t → Emits t more after (next t)) :
    Emits s (out ++ more) after (r.bind next) := by
  cases h with
  | done emitted left => exact .afterEmitted emitted (hnext _ emitted left)
  | full excess => exact .full (by rw [List.length_append]; omega)

/-- The two ends, as equations. -/
theorem Emits.ends {s : State} {out : List Byte} {after : State → Prop} {r : Except Raised State}
    (h : Emits s out after r) : (∃ t, r = .ok t ∧ Emitted s out t ∧ after t) ∨
      ∃ t, r = .error (.outOverflow, t) ∧ s.cfg.obufSize < s.eng.opos + out.length := by
  cases h with
  | done emitted left => exact .inl ⟨_, rfl, emitted, left⟩
  | full excess => exact .inr ⟨_, rfl, excess⟩

theorem emit_emits (v : Byte) (s : State) :
    Emits s [v] (fun t => t.eng.pbuf = s.eng.pbuf) (emit v s) := by
  rcases emit_cases v s with ⟨-, t, hr, ht, hbits, -⟩ | ⟨hfull, hr⟩ <;> rw [hr]
  · exact .done ht hbits
  · exact .full (Nat.lt_succ_of_le hfull)

/-! The payload, piece by piece (R44). -/

theorem length_packBits (bits : Bits) : (packBits bits).length = bytesFor bits.length := by
  simp [packBits]

/-- A sequence of 8 or more bits begins with its first 8. -/
theorem packBits_of_long {bits : Bits} (h : 8 ≤ bits.length) :
    packBits bits = byte8 (bits.take 8) :: packBits (bits.drop 8) := by
  obtain ⟨n, hn⟩ := Nat.exists_eq_add_of_le h
  have hcount : bytesFor bits.length = bytesFor (bits.drop 8).length + 1 := by
    rw [List.length_drop, bytesFor, bytesFor]
    omega
  have hpad : padLen bits.length = padLen (bits.drop 8).length := by
    rw [List.length_drop, padLen, padLen]
    omega
  rw [packBits, hcount, List.range_succ_eq_map, List.map_cons, List.map_map, packBits, hpad]
  congr 1
  · rw [Nat.mul_zero, List.drop_zero, List.take_append_of_le_length h]
  · refine List.map_congr_left fun k _ => ?_
    rw [Function.comp_apply, Nat.mul_succ, Nat.add_comm, ← List.drop_drop,
      List.drop_append_of_le_length h]

/-- 1 to 8 bits make one byte, padded with 0 bits. -/
theorem packBits_of_short {bits : Bits} (hne : bits ≠ []) (h : bits.length ≤ 8) :
    packBits bits = [byte8 (bits ++ zeros (8 - bits.length))] := by
  have hpos := List.length_pos_iff.mpr hne
  have hcount : bytesFor bits.length = 1 := by
    rw [bytesFor]
    omega
  have hpad : padLen bits.length = 8 - bits.length := by
    rw [padLen]
    omega
  have hlen : (bits ++ zeros (8 - bits.length)).length ≤ 8 := by
    rw [List.length_append, zeros, List.length_replicate]
    omega
  rw [packBits, hcount, hpad]
  simp [List.take_of_length_le hlen]

/-! PACK (R66). -/

/-- The inner loop of PACK on the bits of PBUF: the bytes `out` go to OBUF and at most 8 bits stay. -/
inductive HoldsBack : Bits → List Byte → Bits → Prop
  | short {bits : Bits} (h : bits.length ≤ 8) : HoldsBack bits [] bits
  | long {bits rest : Bits} {out : List Byte} (h : 8 < bits.length)
      (tail : HoldsBack (bits.drop 8) out rest) :
      HoldsBack bits (byte8 (bits.take 8) :: out) rest

theorem exists_holdsBack (bits : Bits) : ∃ out rest, HoldsBack bits out rest := by
  induction hn : bits.length using Nat.strong_induction_on generalizing bits with
  | _ n ih =>
    rcases Nat.lt_or_ge 8 bits.length with hlong | hshort
    · obtain ⟨out, rest, hrest⟩ := ih _ (by rw [List.length_drop]; omega) (bits.drop 8) rfl
      exact ⟨_, rest, .long hlong hrest⟩
    · exact ⟨[], bits, .short hshort⟩

theorem HoldsBack.length_le {bits rest : Bits} {out : List Byte} (h : HoldsBack bits out rest) :
    rest.length ≤ 8 := by
  induction h with
  | short h => exact h
  | long _ _ ih => exact ih

/-- Emitting early does not change the payload, whatever bits follow (R44, R66). -/
theorem HoldsBack.packBits {bits rest : Bits} {out : List Byte} (h : HoldsBack bits out rest)
    (more : Bits) : packBits (bits ++ more) = out ++ packBits (rest ++ more) := by
  induction h with
  | short => rfl
  | long h _ ih =>
    rw [packBits_of_long (by rw [List.length_append]; omega),
      List.take_append_of_le_length (by omega), List.drop_append_of_le_length (by omega), ih,
      List.cons_append]

/-- One turn of the inner loop. -/
theorem drain_long (fuel : Nat) {s : State} (h : 8 < s.eng.pbuf.length) :
    drain (fuel + 1) s = (emit (byte8 (s.eng.pbuf.take 8)) s).bind fun t =>
      drain fuel (t.withEng { t.eng with pbuf := t.eng.pbuf.drop 8 }) := by
  rw [drain, if_pos h]
  cases emit (byte8 (s.eng.pbuf.take 8)) s <;> rfl

theorem drain_short (fuel : Nat) {s : State} (h : s.eng.pbuf.length ≤ 8) : drain fuel s = .ok s := by
  cases fuel with
  | zero => rfl
  | succ fuel => exact if_neg (Nat.not_lt.mpr h)

theorem drain_emits_holdsBack {bits rest : Bits} {out : List Byte} (h : HoldsBack bits out rest)
    {fuel : Nat} (hfuel : bits.length ≤ fuel) {s : State} (hs : s.eng.pbuf = bits) :
    Emits s out (fun t => t.eng.pbuf = rest) (drain fuel s) := by
  induction h generalizing fuel s with
  | short h =>
    rw [drain_short fuel (hs ▸ h)]
    exact .done (.refl s) hs
  | @long bits rest out h _ ih =>
    obtain ⟨fuel, rfl⟩ := Nat.exists_eq_add_one_of_ne_zero (show fuel ≠ 0 by omega)
    rw [drain_long fuel (hs ▸ h), hs]
    refine Emits.bind (out := [_]) (emit_emits _ s) fun t _ hbits =>
      Emits.afterEmitted (out := []) (.ofPbuf t _) (ih ?_ ?_)
    · rw [List.length_drop]
      omega
    · exact congrArg (List.drop 8) (hbits.trans hs)

/-- One input symbol with its code. -/
theorem packSymbol_emits_holdsBack {x : Byte} {s : State} {c rest : Bits} {out : List Byte}
    (hc : s.eng.code[x.toNat]'x.isLt = some c) (h : HoldsBack (s.eng.pbuf ++ c) out rest) :
    Emits s out (fun t => t.eng.pbuf = rest) (packSymbol x s) := by
  simp only [packSymbol, lookupCode_some hc]
  exact .afterEmitted (out := []) (.ofPbuf s _) (drain_emits_holdsBack h (Nat.le_refl _) rfl)

/-- The final byte. -/
theorem packFlush_emits_packBits {s : State} (h : s.eng.pbuf.length ≤ 8) :
    Emits s (packBits s.eng.pbuf) (fun _ => True) (packFlush s) := by
  rw [packFlush]
  split
  · next hempty =>
    rw [hempty]
    exact .done (.refl s) trivial
  · next hne =>
    rw [packBits_of_short hne h]
    rcases (emit_emits (byte8 (s.eng.pbuf ++ zeros (8 - s.eng.pbuf.length))) s).ends with
      ⟨t, hr, ht, -⟩ | ⟨t, hr, hexcess⟩ <;> rw [hr]
    · exact .done (ht.withEng (.refl _) rfl) trivial
    · exact .full hexcess

theorem packLoop_succ (n i : Nat) (s : State) :
    packLoop (n + 1) i s = (packSymbol (memRead .ibuf i s).1 (memRead .ibuf i s).2).bind
      (packLoop n (i + 1)) := by
  rw [packLoop]
  cases packSymbol (memRead .ibuf i s).1 (memRead .ibuf i s).2 <;> rfl

theorem bind_assoc_raised (r : Except Raised State) (f g : State → Except Raised State) :
    (r.bind f).bind g = r.bind fun t => (f t).bind g :=
  bind_assoc r f g

/-- PACK from any bits in PBUF: the payload of those bits and the codes of the input to come. -/
theorem packLoop_emits_packBits {bytes : List Byte} {i : Nat} {s : State} (hcfg : s.cfg.ok)
    (ho : s.eng.opos ≤ s.cfg.obufSize) (hin : PackInput s i bytes) (hshort : s.eng.pbuf.length ≤ 8) :
    Emits s (packBits (s.eng.pbuf ++ codesOf s.eng.code bytes)) (fun _ => True)
      ((packLoop bytes.length i s).bind packFlush) := by
  induction bytes generalizing i s with
  | nil =>
    rw [codesOf, List.flatMap_nil, List.append_nil]
    exact packFlush_emits_packBits hshort
  | cons x bytes ih =>
    obtain ⟨c, hc⟩ := Option.ne_none_iff_exists'.mp (hin.coded x List.mem_cons_self)
    obtain ⟨out, rest, hheld⟩ := exists_holdsBack (s.eng.pbuf ++ c)
    have hcodes : codesOf s.eng.code (x :: bytes) = c ++ codesOf s.eng.code bytes := by
      simp [codesOf, hc]
    rw [hcodes, ← List.append_assoc, hheld.packBits, List.length_cons, packLoop_succ, hin.read_head,
      bind_assoc_raised]
    refine (packSymbol_emits_holdsBack hc hheld).bind fun t ht hrest => ?_
    have hot : t.eng.opos ≤ t.cfg.obufSize := by
      rw [ht.opos, ht.cfg]
      exact ht.fits ho
    obtain ⟨-, -, -, -, hcode, -⟩ := ht.tables
    rw [← hrest, ← hcode]
    exact ih (ht.cfg ▸ hcfg) hot (hin.tail hcfg ho ht) (hrest ▸ hheld.length_le)

theorem pack_eq (n : Nat) (s : State) :
    pack n s = (packLoop n 0 (s.withEng { s.eng with pbuf := [], opos := 0 })).bind packFlush := by
  rw [pack]
  cases packLoop n 0 (s.withEng { s.eng with pbuf := [], opos := 0 }) <;> rfl

/-- PACK of a written input emits the payload of its codes (R44, R67). -/
theorem pack_emits_packBits {s : State} {bytes : List Byte} (hcfg : s.cfg.ok)
    (hin : PackInput (packStart s) 0 bytes) :
    Emits (packStart s) (packBits (codesOf s.eng.code bytes)) (fun _ => True)
      (pack bytes.length (memWriteN .dbuf 0 s.eng.dict s)) := by
  obtain ⟨-, -, -, -, hcode, -⟩ := packStart_tables s
  have hloop := packLoop_emits_packBits (s := packStart s) (by rwa [packStart_cfg]) (Nat.zero_le _)
    hin (Nat.zero_le _)
  rw [hcode] at hloop
  rw [pack_eq]
  exact hloop

/-! The result of COMPRESS. -/

section Results

variable {s t : State} {bytes : List Byte} (hin : s.inputIs bytes) (hpos : 1 ≤ bytes.length)
  (hfit : bytes.length ≤ s.cfg.ibufSize)

include hin hpos hfit

/-- CODE and DICT after COMPRESS are those of its tables (log 18). -/
theorem exec_compress_code_dict (hexec : exec .compress s = .next t) :
    t.eng.code = (compressTables s).eng.code ∧ t.eng.dict = (compressTables s).eng.dict :=
  (compressTables_tabled hin hfit).unique (exec_compress_tabled hin hpos hfit hexec)

/-- The codes of an input have 1 to 255 bits a byte (R52). -/
theorem length_codesOf (hexec : exec .compress s = .next t) :
    bytes.length ≤ (codesOf t.eng.code bytes).length ∧
      (codesOf t.eng.code bytes).length ≤ 255 * bytes.length := by
  obtain ⟨T, hT⟩ := exec_compress_codeTree hin hpos hfit hexec
  have hbounds : ∀ x ∈ bytes, 1 ≤ ((t.eng.code[x.toNat]'x.isLt).getD []).length ∧
      ((t.eng.code[x.toNat]'x.isLt).getD []).length ≤ 255 := fun x hx => by
    obtain ⟨c, hc⟩ := Option.ne_none_iff_exists'.mp (hT.coded_iff.mpr hx)
    have hlen := hT.code_length hc
    rw [hc, Option.getD_some]
    exact ⟨hlen.1, hlen.2.1⟩
  rw [codesOf, List.length_flatMap]
  constructor
  · have := List.card_nsmul_le_sum (bytes.map fun x => ((t.eng.code[x.toNat]'x.isLt).getD []).length) 1
      (List.forall_mem_map.mpr fun x hx => (hbounds x hx).1)
    simpa using this
  · have := List.sum_le_card_nsmul (bytes.map fun x => ((t.eng.code[x.toNat]'x.isLt).getD []).length) 255
      (List.forall_mem_map.mpr fun x hx => (hbounds x hx).2)
    simpa [Nat.mul_comm] using this

/-- The two ends of COMPRESS on a written input (R78, R79). -/
theorem compressRun_ends (hcfg : s.cfg.ok) :
    (∃ u, compressRun s = .ok (compressLengths u) ∧ Emitted (packStart (compressTables s))
      (packBits (codesOf (compressTables s).eng.code bytes)) u) ∨
    (∃ u, compressRun s = .error (.outOverflow, u) ∧
      s.cfg.obufSize < bytesFor (codesOf (compressTables s).eng.code bytes).length) := by
  have htcfg := (compressTables_effect s).cfg
  have hlen := hin.1
  rw [compressRun_pack (by omega) (by omega), hlen]
  rcases (pack_emits_packBits (htcfg ▸ hcfg) (packStart_input hcfg hin hpos hfit)).ends with
    ⟨u, hr, hu, -⟩ | ⟨u, hr, hexcess⟩ <;> rw [hr]
  · exact .inl ⟨u, rfl, hu⟩
  · refine .inr ⟨u, rfl, ?_⟩
    have hopos : (packStart (compressTables s)).eng.opos = 0 := rfl
    rwa [packStart_cfg, htcfg, hopos, Nat.zero_add, length_packBits] at hexcess

end Results

/-- Settles O45: PACK emits the payload of the codes, unless it does not fit. -/
theorem compressResult : Obligations.CompressResult := by
  intro s bytes hcfg hin hpos hfit
  obtain ⟨t, hexec⟩ := exec_next .compress s
  obtain ⟨hcode, hdict⟩ := exec_compress_code_dict hin hpos hfit hexec
  have hcodes := (length_codesOf hin hpos hfit hexec).1
  obtain ⟨T, hT⟩ := exec_compress_codeTree hin hpos hfit hexec
  have hlen := hT.dict_length
  have hinLen := hin.1
  refine ⟨t, hexec, ?_⟩
  rw [hdict] at hlen ⊢
  rw [hcode] at hcodes ⊢
  rcases compressRun_ends hin hpos hfit hcfg with ⟨u, hr, hu⟩ | ⟨u, hr, hexcess⟩
  · have hroom := hu.length_le_obufSize rfl
    rw [packStart_cfg, (compressTables_effect s).cfg, length_packBits] at hroom
    refine ⟨fun _ => ?_, fun hexcess => absurd hroom (Nat.not_le.mpr hexcess)⟩
    obtain ⟨hdictLen, houtLen, hstored, hpayload⟩ := hu.compressed hcfg (by omega)
    rw [length_packBits] at houtLen
    have houtPos : 1 ≤ (compressLengths u).outLen.toNat := by
      rw [houtLen, bytesFor]
      omega
    cases (exec_compress_ok hr).symm.trans hexec
    exact ⟨rfl, rfl, hdictLen.trans (by omega), by omega, hstored, houtLen, houtPos, hpayload⟩
  · refine ⟨fun hroom => absurd hroom (Nat.not_le.mpr hexcess), fun _ => ?_⟩
    cases (exec_compress_error hr).symm.trans hexec
    exact compressRun_error hcfg hr

/-- Settles O46: 255 bits for every byte are enough for the payload. -/
theorem compressCompletes : Obligations.CompressCompletes := by
  intro s bytes hcfg hin hpos hfit hroom
  obtain ⟨t, hexec, hsuccess, -⟩ := compressResult s bytes hcfg hin hpos hfit
  have hcodes := (length_codesOf hin hpos hfit hexec).2
  have hfits : bytesFor (codesOf t.eng.code bytes).length ≤ s.cfg.obufSize :=
    (Nat.div_le_div_right (Nat.add_le_add_right hcodes 7)).trans hroom
  obtain ⟨hphase, hstatus, hdictLen, -, -, houtLen, -, hpayload⟩ := hsuccess hfits
  exact ⟨t, hexec, hphase, hstatus, hdictLen, houtLen, hpayload⟩

end Sys2Proof.Machine
end

section
/-!
What DECODE_MATCH emits (R69) and the result of DECOMPRESS (R80, R81).
-/

namespace Sys2Proof.Machine

/-! DECODE_MATCH. -/

theorem matchBit_emits_match {s : State} {bit : Bool} {v : Byte}
    (h : invGet (s.eng.buf ++ [bit]) s.eng.inv = some v) :
    Emits s [v] (fun t => t.eng.buf = []) (matchBit bit s) := by
  simp only [matchBit, h]
  rcases (emit_emits v s).ends with ⟨t, hr, ht, -⟩ | ⟨t, hr, hexcess⟩ <;> rw [hr]
  · exact .done (ht.withEng (.refl _) rfl) rfl
  · exact .full hexcess

theorem matchBit_emits_none {s : State} {bit : Bool}
    (h : invGet (s.eng.buf ++ [bit]) s.eng.inv = none) :
    Emits s [] (fun t => t.eng.buf = s.eng.buf ++ [bit]) (matchBit bit s) := by
  simp only [matchBit, h]
  exact .done ((Emitted.refl s).withEng (.refl _) rfl) rfl

theorem matchLoop_cons (bit : Bool) (bits : Bits) (s : State) :
    matchLoop (bit :: bits) s = (matchBit bit s).bind (matchLoop bits) := by
  rw [matchLoop]
  cases matchBit bit s <;> rfl

/-- The loop emits the symbols of greedy matching (R69). -/
theorem matchLoop_emits_greedy (bits : Bits) (s : State) :
    Emits s (greedy s.eng.inv s.eng.buf bits) (fun _ => True) (matchLoop bits s) := by
  induction bits generalizing s with
  | nil => exact .done (.refl s) trivial
  | cons bit bits ih =>
    have hrest : ∀ {out t}, Emitted s out t →
        Emits t (greedy s.eng.inv t.eng.buf bits) (fun _ => True) (matchLoop bits t) := fun ht => by
      obtain ⟨-, -, -, -, -, -, hinv, -⟩ := ht.tables
      exact hinv ▸ ih _
    rw [matchLoop_cons]
    cases hget : invGet (s.eng.buf ++ [bit]) s.eng.inv with
    | some v =>
      rw [greedy_match hget]
      exact (matchBit_emits_match hget).bind (out := [v]) fun t ht hbuf => hbuf ▸ hrest ht
    | none =>
      rw [greedy_no_match hget]
      exact (matchBit_emits_none hget).bind fun t ht hbuf => hbuf ▸ hrest ht

/-- Every symbol takes a bit. -/
theorem length_greedy_le (inv : List (Bits × Byte)) (buf bits : Bits) :
    (greedy inv buf bits).length ≤ bits.length := by
  induction bits generalizing buf with
  | nil => exact Nat.le_refl _
  | cons bit bits ih =>
    cases hget : invGet (buf ++ [bit]) inv with
    | some v =>
      rw [greedy_match hget]
      exact Nat.succ_le_succ (ih _)
    | none =>
      rw [greedy_no_match hget]
      exact (ih _).trans (Nat.le_succ _)

/-- DECODE_MATCH of a written payload emits the symbols of greedy matching (R69). -/
theorem decodeMatch_emits_greedy {s : State} {payload : List Byte}
    (hfit : payload.length ≤ s.cfg.ibufSize) (h : s.holds .ibuf payload) :
    Emits (matchStart s) (greedy s.eng.inv [] (payload.flatMap bits8)) (fun _ => True)
      (decodeMatch payload.length s) := by
  have hunpack := unpack_stored (s := matchStart s) hfit h
  have hloop := matchLoop_emits_greedy (payload.flatMap bits8) (matchStart s)
  simp only [decodeMatch]
  rw [← matchStart, hunpack]
  exact hloop

/-! The result of DECOMPRESS. -/

/-- The tail of DECOMPRESS where a leaf has been recorded. -/
theorem decompressTail_entries {s : State} (h : s.eng.entries ≠ 0) :
    decompressTail s = (decodeMatch s.inputLen s).map fun t =>
      { t with outLen := BitVec.ofNat 32 t.eng.opos } := by
  simp only [decompressTail, parseEnd, if_neg h]
  cases decodeMatch s.inputLen s <;> rfl

/-- The hypotheses of a DECOMPRESS that reads its whole dictionary and payload (R80). -/
structure Decodable (s : State) (toks : List Instr) (payload : List Byte) : Prop where
  marks : ∀ i ∈ toks, isMarkToken i
  leaf : toks.filterMap leafSym ≠ []
  walk : walkFits s.cfg.pathMax toks [] = true
  dictionary : s.dictionaryIs (toks.flatMap tokenBytes)
  dictionaryFits : s.dictionaryLen ≤ s.cfg.dbufSize
  input : s.inputIs payload
  inputFits : payload.length ≤ s.cfg.ibufSize

/-- Such a DECOMPRESS is DECODE_MATCH in the state the tokens leave. -/
theorem Decodable.decompressRun {s : State} {toks : List Instr} {payload : List Byte}
    (h : Decodable s toks payload) :
    decompressRun s = (decodeMatch payload.length ((parseInit s).afterTokens toks)).map fun t =>
      { t with outLen := BitVec.ofNat 32 t.eng.opos } := by
  have hlen := h.input.1
  have hlen' : ((parseInit s).afterTokens toks).inputLen = payload.length := hlen
  have hentries : ((parseInit s).afterTokens toks).eng.entries ≠ 0 := by
    have hpos := List.length_pos_iff.mpr h.leaf
    show 0 + (toks.filterMap leafSym).length ≠ 0
    omega
  have hfits := h.inputFits
  have hdict := h.dictionaryFits
  rw [Machine.decompressRun, if_neg (by omega),
    parseLoop_dictionary h.marks h.walk h.dictionaryFits h.dictionary]
  exact (decompressTail_entries hentries).trans (by rw [hlen'])

/-- The symbols a DECOMPRESS decodes (R69). -/
def decoded (toks : List Instr) (payload : List Byte) : List Byte :=
  greedy (walkTokens toks ([], [])).2 [] (payload.flatMap bits8)

/-- The two ends of such a DECOMPRESS (R80, R81). -/
theorem Decodable.ends {s : State} {toks : List Instr} {payload : List Byte}
    (h : Decodable s toks payload) :
    (∃ u, Machine.decompressRun s = .ok { u with outLen := BitVec.ofNat 32 u.eng.opos } ∧
      Emitted (matchStart ((parseInit s).afterTokens toks)) (decoded toks payload) u) ∨
    (∃ u, Machine.decompressRun s = .error (.outOverflow, u) ∧
      s.cfg.obufSize < (decoded toks payload).length) := by
  have hmatch := decodeMatch_emits_greedy (s := (parseInit s).afterTokens toks) h.inputFits h.input.2
  rw [h.decompressRun]
  rcases hmatch.ends with ⟨u, hr, hu, -⟩ | ⟨u, hr, hexcess⟩ <;> rw [hr]
  · exact .inl ⟨u, rfl, hu⟩
  · exact .inr ⟨u, rfl, hexcess.trans_eq (Nat.zero_add _)⟩

/-- Bytes emitted from OPOS = 0 stand at the start of OBUF. -/
theorem Emitted.holds_obuf {s u : State} {out : List Byte} (hu : Emitted s out u)
    (ho : s.eng.opos = 0) : u.holds .obuf out := by
  intro i hi
  rw [State.byteAt, hu.read, ho, if_pos (by omega)]
  simp

/-- The result of such a DECOMPRESS (R80, R81, R88). -/
theorem Decodable.result {s : State} {toks : List Instr} {payload : List Byte}
    (h : Decodable s toks payload) (hcfg : s.cfg.ok) :
    ∃ t, exec .decompress s = .next t ∧
      ((decoded toks payload).length ≤ s.cfg.obufSize →
        t.phase = .idle ∧ t.status = { done := true, err := false, code := .none } ∧
        t.outLen.toNat = (decoded toks payload).length ∧ t.holds .obuf (decoded toks payload) ∧
        t.dictLen = s.dictLen) ∧
      (s.cfg.obufSize < (decoded toks payload).length →
        errorCompleted .decompress .outOverflow s t) := by
  rcases h.ends with ⟨u, hr, hu⟩ | ⟨u, hr, hexcess⟩
  · have hroom : (decoded toks payload).length ≤ s.cfg.obufSize := hu.length_le_obufSize rfl
    have hopos : u.eng.opos = (decoded toks payload).length := hu.opos.trans (Nat.zero_add _)
    obtain ⟨-, -, -, ⟨-, hobuf⟩, -⟩ := hcfg
    refine ⟨_, exec_decompress_ok hr, fun _ => ⟨rfl, rfl, ?_, hu.holds_obuf rfl, ?_⟩,
      fun hexcess => absurd hroom (Nat.not_le.mpr hexcess)⟩
    · show (BitVec.ofNat 32 u.eng.opos).toNat = (decoded toks payload).length
      rw [hopos, toNat_ofNat_word (by omega)]
    · exact (hu.effect .decompress (Nat.zero_le _)).dictLen rfl
  · exact ⟨_, exec_decompress_error hr, fun hroom => absurd hroom (Nat.not_le.mpr hexcess),
      fun _ => decompressRun_error hr⟩

/-- At most 8 symbols for every payload byte (R81). -/
theorem length_decoded_le (toks : List Instr) (payload : List Byte) :
    (decoded toks payload).length ≤ 8 * payload.length :=
  length_flatMap_bits8 payload ▸ length_greedy_le ..

/-- Settles O50: DECODE_MATCH emits the symbols of greedy matching, unless they do not fit. -/
theorem decompressResult : Obligations.DecompressResult := by
  intro s toks payload hcfg hmarks hleaf hwalk hdict hdictFits hin hinFits
  have h : Decodable s toks payload := ⟨hmarks, hleaf, hwalk, hdict, hdictFits, hin, hinFits⟩
  exact ⟨length_decoded_le toks payload, h.result hcfg⟩

/-- Settles O51: 8 symbols for every payload byte are room enough. -/
theorem decompressCompletes : Obligations.DecompressCompletes := by
  intro s toks payload hcfg hmarks hleaf hwalk hdict hdictFits hin hinFits hroom
  have h : Decodable s toks payload := ⟨hmarks, hleaf, hwalk, hdict, hdictFits, hin, hinFits⟩
  obtain ⟨t, hexec, hsuccess, -⟩ := h.result hcfg
  obtain ⟨hphase, hstatus, houtLen, hout, -⟩ :=
    hsuccess ((length_decoded_le toks payload).trans hroom)
  refine ⟨t, hexec, hphase, hstatus, fun hempty => ?_, hout⟩
  rw [hempty] at houtLen
  exact BitVec.eq_of_toNat_eq houtLen

end Sys2Proof.Machine
end

section
/-!
The round-trip law (R74, R84): DECOMPRESS of what COMPRESS wrote.
-/

namespace Sys2Proof.Machine

/-! Greedy matching with the codes of a code tree. -/

theorem exists_invGet_of_mem {p : Bits × Byte} {inv : List (Bits × Byte)} (h : p ∈ inv) :
    ∃ v, invGet p.1 inv = some v := by
  by_contra hnone
  induction inv with
  | nil => cases h
  | cons q inv ih =>
    rw [invGet] at hnone
    split at hnone
    · exact hnone ⟨q.2, rfl⟩
    · next hq =>
      rcases List.mem_cons.mp h with rfl | h
      · exact hq rfl
      · exact ih h hnone

/-- Bits 0 that complete no key give no symbol. -/
theorem greedy_zeros_eq_nil {inv : List (Bits × Byte)} (k j : Nat)
    (h : ∀ d, d ≤ j + k → invGet (zeros d) inv = none) : greedy inv (zeros j) (zeros k) = [] := by
  induction k generalizing j with
  | zero => rfl
  | succ k ih =>
    have hbuf : zeros j ++ [false] = zeros (j + 1) := List.replicate_succ'.symm
    have hnone : invGet (zeros j ++ [false]) inv = none := hbuf ▸ h (j + 1) (by omega)
    exact (greedy_no_match hnone (zeros k)).trans (hbuf ▸ ih (j + 1) fun d hd => h d (by omega))

section CodeTrees

variable {bytes : List Byte} {e : Engine} {T : Tree} (h : CodeTree bytes e T)

include h

/-- INV after PARSE of the tree's tokens is the inverse of CODE (R63, R64). -/
theorem CodeTree.invGet_iff {key : Bits} {x : Byte} :
    invGet key (walkTokens T.tokens ([], [])).2 = some x ↔ e.code[x.toNat]'x.isLt = some key := by
  rw [T.invGet_walkTokens_tokens, h.code_eq_some]

/-- A code that begins another one is that code (R55). -/
theorem CodeTree.code_prefix {x y : Byte} {c d : Bits} (hc : e.code[x.toNat]'x.isLt = some c)
    (hd : e.code[y.toNat]'y.isLt = some d) (hcd : c <+: d) : c = d := by
  obtain ⟨p, hp, rfl⟩ := h.code_eq_some.mp hc
  obtain ⟨q, hq, rfl⟩ := h.code_eq_some.mp hd
  obtain rfl := Tree.eq_of_leafKey_prefix hp hq hcd
  exact Option.some.inj (hc.symm.trans hd)

/-- Greedy matching of a sequence of codes gives their symbols (R73). -/
theorem CodeTree.greedy_codes {codes : List (Bits × Byte)}
    (hcodes : ∀ c ∈ codes, e.code[c.2.toNat]'c.2.isLt = some c.1) (tail : Bits) :
    greedy (walkTokens T.tokens ([], [])).2 [] (codes.flatMap Prod.fst ++ tail) =
      codes.map Prod.snd ++ greedy (walkTokens T.tokens ([], [])).2 [] tail := by
  have hkey : ∀ p ∈ (walkTokens T.tokens ([], [])).2, ∃ x : Byte,
      e.code[x.toNat]'x.isLt = some p.1 := fun p hp => by
    obtain ⟨x, hx⟩ := exists_invGet_of_mem hp
    exact ⟨x, h.invGet_iff.mp hx⟩
  refine greedyDecodesConcatenation _ codes tail (fun p hp => ?_) (fun p hp q hq hpq => ?_)
    fun c hc => h.invGet_iff.mpr (hcodes c hc)
  · obtain ⟨x, hx⟩ := hkey p hp
    exact List.length_pos_iff.mp (h.code_length hx).1
  · obtain ⟨x, hx⟩ := hkey p hp
    obtain ⟨y, hy⟩ := hkey q hq
    exact h.code_prefix hx hy hpq

/-- The codes of the input give the input back (R73). -/
theorem CodeTree.greedy_codesOf (tail : Bits) :
    greedy (walkTokens T.tokens ([], [])).2 [] (codesOf e.code bytes ++ tail) =
      bytes ++ greedy (walkTokens T.tokens ([], [])).2 [] tail := by
  have hcodes := h.greedy_codes
    (codes := bytes.map fun x => ((e.code[x.toNat]'x.isLt).getD [], x)) (List.forall_mem_map.mpr
      fun x hx => by
        obtain ⟨c, hc⟩ := Option.ne_none_iff_exists'.mp (h.coded_iff.mpr hx)
        simp [hc]) tail
  rwa [List.flatMap_map, List.map_map, show (Prod.snd ∘ fun x : Byte =>
    ((e.code[x.toNat]'x.isLt).getD [], x)) = id from rfl, List.map_id] at hcodes

/-- With one symbol the padding gives none: the code is [1] (R74). -/
theorem CodeTree.greedy_padding_one (hone : distinct bytes = 1) (pad : Nat) :
    greedy (walkTokens T.tokens ([], [])).2 [] (zeros pad) = [] := by
  refine greedy_zeros_eq_nil pad 0 fun d _ => Option.eq_none_iff_forall_ne_some.mpr fun x hx => ?_
  obtain ⟨-, -, -, hcode⟩ := h.code_length (h.invGet_iff.mp hx)
  have htrue : true ∈ zeros d := hcode hone ▸ List.mem_singleton_self true
  cases List.eq_of_mem_replicate htrue

/-- With two or more symbols the padding gives one for every code of zeros in it (R74). -/
theorem CodeTree.greedy_padding_two {s0 : Byte} {d0 : Nat}
    (hcode : e.code[s0.toNat]'s0.isLt = some (zeros d0)) (pad : Nat) :
    greedy (walkTokens T.tokens ([], [])).2 [] (zeros pad) = List.replicate (pad / d0) s0 := by
  have hpos : 0 < d0 := by
    have hlen := (h.code_length hcode).1
    rwa [zeros, List.length_replicate] at hlen
  have hrest : greedy (walkTokens T.tokens ([], [])).2 [] (zeros (pad % d0)) = [] := by
    refine greedy_zeros_eq_nil (pad % d0) 0 fun d hd =>
      Option.eq_none_iff_forall_ne_some.mpr fun x hx => ?_
    have hlt := Nat.mod_lt pad hpos
    have heq := h.code_prefix (h.invGet_iff.mp hx) hcode (Tree.zeros_prefix (by omega))
    have hlen := congrArg List.length heq
    rw [zeros, zeros, List.length_replicate, List.length_replicate] at hlen
    omega
  have hsplit : zeros pad =
      (List.replicate (pad / d0) (zeros d0, s0)).flatMap Prod.fst ++ zeros (pad % d0) := by
    simp only [List.flatMap_replicate, zeros, List.flatten_replicate_replicate,
      List.replicate_append_replicate, Nat.div_add_mod']
  rw [hsplit, h.greedy_codes (fun c hc => by rw [List.eq_of_mem_replicate hc]; exact hcode), hrest,
    List.append_nil, List.map_replicate]

/-- DECOMPRESS reads the whole dictionary that describes the code tree (R5, R54, R65). -/
theorem CodeTree.decodable {u : State} {payload : List Byte} (hcfg : u.cfg.ok)
    (hdict : u.dictionaryIs e.dict) (hin : u.inputIs payload)
    (hfit : payload.length ≤ u.cfg.ibufSize) : Decodable u T.tokens payload := by
  have hlen := h.dict_length
  have hcount := T.count_tokens
  have hpos := T.length_syms_pos
  have hn := distinct_le bytes
  obtain ⟨-, -, ⟨hdbuf, -⟩, -, ⟨hpath, -⟩⟩ := hcfg
  rw [h.length_syms] at hcount
  refine ⟨T.isMarkToken_tokens, ?_, walkFits_of_short _ _ ?_, h.dict ▸ hdict, ?_, hin, hfit⟩
  · rwa [T.filterMap_leafSym_tokens, ← List.length_pos_iff]
  · rw [List.length_nil]
    omega
  · rw [hdict.1]
    omega

/-- DECOMPRESS of the payload decodes the input and then the padding (R74). -/
theorem CodeTree.decoded_packBits :
    decoded T.tokens (packBits (codesOf e.code bytes)) =
      bytes ++ greedy (walkTokens T.tokens ([], [])).2 []
        (zeros (padLen (codesOf e.code bytes).length)) := by
  rw [decoded, flatMap_bits8_packBits, h.greedy_codesOf]

end CodeTrees

/-! The two commands together. -/

/-- What a buffer holds is determined by its length. -/
theorem eq_of_holds {s : State} {b : Buf} {xs ys : List Byte} (hx : s.holds b xs) (hy : s.holds b ys)
    (hlen : xs.length = ys.length) : xs = ys := by
  refine List.ext_getElem? fun i => ?_
  rcases Nat.lt_or_ge i xs.length with hi | hi
  · rw [← hx i hi, hy i (hlen ▸ hi)]
  · rw [List.getElem?_eq_none hi, List.getElem?_eq_none (hlen ▸ hi)]

/-- A COMPRESS without error leaves the payload of its codes (R44, R79). -/
theorem exec_compress_payload {s t : State} {bytes : List Byte} (hcfg : s.cfg.ok)
    (hin : s.inputIs bytes) (hpos : 1 ≤ bytes.length) (hfit : bytes.length ≤ s.cfg.ibufSize)
    (hexec : exec .compress s = .next t) (herr : t.status.err = false) :
    t.outLen.toNat = bytesFor (codesOf t.eng.code bytes).length ∧
      t.holds .obuf (packBits (codesOf t.eng.code bytes)) := by
  obtain ⟨t', hexec', hsuccess, hoverflow⟩ := compressResult s bytes hcfg hin hpos hfit
  cases hexec'.symm.trans hexec
  rcases Nat.lt_or_ge s.cfg.obufSize (bytesFor (codesOf t.eng.code bytes).length) with hlong | hroom
  · obtain ⟨-, -, -, hstatus, -⟩ := hoverflow hlong
    rw [hstatus] at herr
    cases herr
  · obtain ⟨-, -, -, -, -, houtLen, -, hpayload⟩ := hsuccess hroom
    exact ⟨houtLen, hpayload⟩

/-- Settles O57: the dictionary is that of the code tree, the payload its codes and the padding, and
greedy matching decodes the two one after the other. -/
theorem roundTripLaw : Obligations.RoundTripLaw := by
  intro s t u bytes payload dict hcfg hin hpos hfit hexec herr hpay houtLen hdict hdictLen hucfg huin
    hudict hufit
  obtain ⟨T, hT⟩ := exec_compress_codeTree hin hpos hfit hexec
  obtain ⟨hlen, hstored⟩ := exec_compress_payload hcfg hin hpos hfit hexec herr
  obtain ⟨hdlen, hdstored⟩ := exec_compress_dictionaryIs hcfg hin hpos hfit hexec herr
  obtain rfl : packBits (codesOf t.eng.code bytes) = payload :=
    eq_of_holds hstored hpay (by rw [length_packBits, ← hlen, houtLen])
  obtain rfl : t.eng.dict = dict := eq_of_holds hdstored hdict (hdlen.symm.trans hdictLen)
  obtain ⟨v, hexecv, hsuccess, hoverflow⟩ :=
    (hT.decodable (hucfg ▸ hcfg) hudict huin (hucfg ▸ hufit)).result (hucfg ▸ hcfg)
  rw [hT.decoded_packBits, hucfg] at hsuccess hoverflow
  refine ⟨_, v, hexecv, fun hone => hT.greedy_padding_one hone _, fun htwo => ?_, fun hfits => ?_,
    hoverflow⟩
  · obtain ⟨d0, s0, hs0⟩ := T.exists_symAt_zeros
    have hcode := (hT.code_eq_some_path htwo).mpr hs0
    have hd0 := (hT.code_length hcode).1
    rw [zeros, List.length_replicate] at hd0
    exact ⟨s0, d0, hd0, hcode, hT.greedy_padding_two hcode _⟩
  · obtain ⟨hphase, hstatus, houtLenv, hholds, -⟩ := hsuccess hfits
    exact ⟨hphase, hstatus, houtLenv, hholds⟩

end Sys2Proof.Machine
end

section
/-!
The reset input (R96, R97) and the host writes the block ignores (R99).
-/

namespace Sys2Proof.Machine

/-! Reset. -/

/-- The turn at the head of the schedule is the next one. -/
theorem nextTurn_of_schedule {s : State} {t : Turn} {ts : List Turn} (h : s.schedule = t :: ts) :
    nextTurn s = (t, ts) := by
  simp [nextTurn, h]

/-- Reset empties the memory, so no buffer byte stays stored (R96; log 4). -/
theorem byteAt_assertReset (s : State) (b : Buf) (i : Nat) : (assertReset s).byteAt b i = none :=
  rfl

/-- A read of a word during reset is a free value (R97). -/
theorem busRead_reset_word {s : State} (hr : s.resetIn = true) (off : Nat) :
    busRead .w32 off s = (Config.freeWord s.draws, s.tick) := by
  simp [busRead, hr]

/-- A read of a byte during reset is a free byte, zero-extended (R97). -/
theorem busRead_reset_byte {s : State} (hr : s.resetIn = true) (off : Nat) :
    busRead .w8 off s = ((Config.freeByte s.draws).zeroExtend 32, s.tick) := by
  simp [busRead, hr]

/-- Settles O5: the next state is `assertReset`, whose registers are those of R96 and whose memory is
empty. -/
theorem resetSetsRegistersAndForgetsBuffers : Obligations.ResetSetsRegistersAndForgetsBuffers :=
  fun _ _ h => ⟨_, step_assertReset (nextTurn_of_schedule h), rfl, rfl, rfl, rfl, rfl, rfl, rfl, rfl,
    rfl, rfl, byteAt_assertReset _, rfl, rfl, rfl, rfl, rfl⟩

/-- Settles O6: one clause per turn: what the turn does, and what the bus answers during reset. -/
theorem resetAbandonsCommandAndBlocksAccesses :
    Obligations.ResetAbandonsCommandAndBlocksAccesses := by
  refine ⟨fun s ts h _ => ?_, fun s ts hr ht => ?_, fun s ts rest w off v hr ho hp h => ?_,
    fun s ts rest off x hr ho hm h => ?_, fun s ts rest off x hr hp ho h => ?_, fun s ts h => ?_⟩
  · exact ⟨_, step_assertReset (nextTurn_of_schedule h), rfl, rfl, rfl, rfl⟩
  · exact step_engine_waits ht (.inl hr)
  · rw [step_write h ho hp]
    exact busWrite_reset (s := afterStatement s ts rest) hr w off v
  · rw [step_read h ho (permitted_word hm), busRead_reset_word (s := afterStatement s ts rest) hr]
    rfl
  · rw [step_read h ho hp, busRead_reset_byte (s := afterStatement s ts rest) hr]
    rfl
  · exact step_releaseReset (nextTurn_of_schedule h)

/-! Ignored writes. -/

/-- STATUS, OUT_LEN, the CFG registers and the reserved offsets past them ignore writes in every phase
(R13, R16 to R18). -/
theorem writeRegisterAt_ignored {off : Nat} (h : off = 0x004 ∨ 0x010 ≤ off) (v : Word) (s : State) :
    writeRegisterAt off v s = .next s := by
  unfold writeRegisterAt
  cases s.phase with
  | busy => rfl
  | idle =>
    cases hreg : Reg.ofOffset off with
    | none => rfl
    | some r =>
      have hoff := Reg.eq_offset_of_ofOffset hreg
      cases r
      case cmd | inLen | dictLen => exact absurd h (by rw [hoff]; decide)
      all_goals rfl

/-- A write to a read-only register or a reserved offset has no effect, during reset too. -/
theorem busWrite_ignored {off : Nat} (h : (off = 0x004 ∨ (0x010 ≤ off ∧ off < 0x100000)) ∨
    (0x300000 ≤ off ∧ off < 0x400000)) (w : Width) (v : Word) (s : State) :
    busWrite w off v s = .next s := by
  cases hr : s.resetIn with
  | true => exact busWrite_reset hr w off v
  | false =>
    rcases h with hreg | ⟨hlo, hhi⟩
    · have hregion : regionOf off = .registers := regionOf_registers (by omega)
      simp [busWrite, hr, hregion, writeRegisterAt_ignored (off := off) (by omega)]
    · simp [busWrite, hr, regionOf_reserved hlo hhi]

/-- Settles O18: a permitted write is the bus write, which does nothing while BUSY, and nothing at these
offsets. -/
theorem ignoredWrites : Obligations.IgnoredWrites := by
  refine ⟨fun s ts rest w off v hb ho hp h => ?_, fun s ts rest off v hm hoff h => ?_⟩
  · rw [step_write h ho hp]
    exact busWrite_busy (s := afterStatement s ts rest) hb w off v
  · rw [step_write h (by omega) (permitted_word hm), busWrite_ignored hoff]

end Sys2Proof.Machine
end
